-- ==== Sys2Proof/Word.lean ====
section
/-! DEFINITION. The two word types of the BDU: register values (XLEN = 32 bits, spec/00_scope.md R6) and bytes
(spec/20_memory.md R50). All quantities are unsigned (R7). -/

namespace Sys2Proof

/-- A byte of a buffer (R50: "A byte is 8 bits"). -/
abbrev Byte := BitVec 8

/-- A register value: every operand, result, control and status register is XLEN = 32 bits wide (R6, R20). -/
abbrev Word := BitVec 32

end Sys2Proof
end

