-- ==== Sys2Proof/Syntax.lean ====
section
/-! DEFINITION. The commands of the BDU: one constructor per row of spec/opcode_table.json (spec/30_encoding.md R72, R73).
A byte-addressed operation has two rows, hence two constructors: the plain name takes its message from a row of the bit
buffer (SRC = 0), the name ending in `Out` from OUT (SRC = 1, where ROW must be 0). -/

namespace Sys2Proof

/-- A decoded command word. `row` is the ROW field (R71), `conv` and `zb` the modifiers of MANCH (R74), `refl` the
modifier of WHITEN (R75). All other arguments stand in the operand registers (R76). -/
inductive Instr where
  /-- SEARCH, OPC 0x10, bit-addressed: rule R100. -/
  | search (row : Nat)
  /-- EXTRACT, OPC 0x11, bit-addressed: rule R101. -/
  | extract (row : Nat)
  /-- GETBIT, OPC 0x12, bit-addressed: rule R102. -/
  | getbit (row : Nat)
  /-- GETBYTE, OPC 0x13, bit-addressed: rule R103. -/
  | getbyte (row : Nat)
  /-- INVERT, OPC 0x20, whole-buffer: rule R120. -/
  | invert
  /-- REV8, OPC 0x21, scalar: rule R121. -/
  | rev8
  /-- REFL4, OPC 0x22, scalar: rule R122. -/
  | refl4
  /-- MANCH, OPC 0x23, bit-addressed with modifiers: rule R131. -/
  | manch (row : Nat) (conv : Bool) (zb : Bool)
  /-- DMANCH, OPC 0x24, bit-addressed: rule R135. -/
  | dmanch (row : Nat)
  /-- UART8N1, OPC 0x25, bit-addressed: rule R150. -/
  | uart8n1 (row : Nat)
  /-- UART8O1, OPC 0x26, bit-addressed: rule R153. -/
  | uart8o1 (row : Nat)
  /-- NIB4B1S, OPC 0x27, bit-addressed: rule R156. -/
  | nib4b1s (row : Nat)
  /-- SYMBOLS, OPC 0x28, bit-addressed: rule R159. -/
  | symbols (row : Nat)
  /-- WHITEN, OPC 0x29, byte-addressed with modifier, SRC=0 (row): rule R180. -/
  | whiten (row : Nat) (refl : Bool)
  /-- WHITEN, OPC 0x29, byte-addressed with modifier, SRC=1 (out): rule R180. -/
  | whitenOut (refl : Bool)
  /-- CRC4, OPC 0x30, byte-addressed, SRC=0 (row): rule R193. -/
  | crc4 (row : Nat)
  /-- CRC4, OPC 0x30, byte-addressed, SRC=1 (out): rule R193. -/
  | crc4Out
  /-- CRC7, OPC 0x31, byte-addressed, SRC=0 (row): rule R194. -/
  | crc7 (row : Nat)
  /-- CRC7, OPC 0x31, byte-addressed, SRC=1 (out): rule R194. -/
  | crc7Out
  /-- CRC8, OPC 0x32, byte-addressed, SRC=0 (row): rule R195. -/
  | crc8 (row : Nat)
  /-- CRC8, OPC 0x32, byte-addressed, SRC=1 (out): rule R195. -/
  | crc8Out
  /-- CRC8LE, OPC 0x33, byte-addressed, SRC=0 (row): rule R196. -/
  | crc8le (row : Nat)
  /-- CRC8LE, OPC 0x33, byte-addressed, SRC=1 (out): rule R196. -/
  | crc8leOut
  /-- CRC16, OPC 0x34, byte-addressed, SRC=0 (row): rule R197. -/
  | crc16 (row : Nat)
  /-- CRC16, OPC 0x34, byte-addressed, SRC=1 (out): rule R197. -/
  | crc16Out
  /-- CRC16LSB, OPC 0x35, byte-addressed, SRC=0 (row): rule R198. -/
  | crc16lsb (row : Nat)
  /-- CRC16LSB, OPC 0x35, byte-addressed, SRC=1 (out): rule R198. -/
  | crc16lsbOut
  /-- LFSR8, OPC 0x38, byte-addressed, SRC=0 (row): rule R220. -/
  | lfsr8 (row : Nat)
  /-- LFSR8, OPC 0x38, byte-addressed, SRC=1 (out): rule R220. -/
  | lfsr8Out
  /-- LFSR8REV, OPC 0x39, byte-addressed, SRC=0 (row): rule R221. -/
  | lfsr8rev (row : Nat)
  /-- LFSR8REV, OPC 0x39, byte-addressed, SRC=1 (out): rule R221. -/
  | lfsr8revOut
  /-- LFSR8RFL, OPC 0x3A, byte-addressed, SRC=0 (row): rule R222. -/
  | lfsr8rfl (row : Nat)
  /-- LFSR8RFL, OPC 0x3A, byte-addressed, SRC=1 (out): rule R222. -/
  | lfsr8rflOut
  /-- LFSR16, OPC 0x3B, byte-addressed, SRC=0 (row): rule R223. -/
  | lfsr16 (row : Nat)
  /-- LFSR16, OPC 0x3B, byte-addressed, SRC=1 (out): rule R223. -/
  | lfsr16Out
  /-- PARITY8, OPC 0x40, scalar: rule R240. -/
  | parity8
  /-- PARITYB, OPC 0x41, byte-addressed, SRC=0 (row): rule R241. -/
  | parityb (row : Nat)
  /-- PARITYB, OPC 0x41, byte-addressed, SRC=1 (out): rule R241. -/
  | paritybOut
  /-- XORB, OPC 0x42, byte-addressed, SRC=0 (row): rule R242. -/
  | xorb (row : Nat)
  /-- XORB, OPC 0x42, byte-addressed, SRC=1 (out): rule R242. -/
  | xorbOut
  /-- ADDB, OPC 0x43, byte-addressed, SRC=0 (row): rule R243. -/
  | addb (row : Nat)
  /-- ADDB, OPC 0x43, byte-addressed, SRC=1 (out): rule R243. -/
  | addbOut
  /-- ADDN, OPC 0x44, byte-addressed, SRC=0 (row): rule R244. -/
  | addn (row : Nat)
  /-- ADDN, OPC 0x44, byte-addressed, SRC=1 (out): rule R244. -/
  | addnOut
deriving DecidableEq, Repr

/-- The ROW field of a command that uses it (R72); `none` for a command without one. -/
def Instr.namedRow : Instr → Option Nat
  | .search row => some row
  | .extract row => some row
  | .getbit row => some row
  | .getbyte row => some row
  | .invert => none
  | .rev8 => none
  | .refl4 => none
  | .manch row _ _ => some row
  | .dmanch row => some row
  | .uart8n1 row => some row
  | .uart8o1 row => some row
  | .nib4b1s row => some row
  | .symbols row => some row
  | .whiten row _ => some row
  | .whitenOut _ => none
  | .crc4 row => some row
  | .crc4Out => none
  | .crc7 row => some row
  | .crc7Out => none
  | .crc8 row => some row
  | .crc8Out => none
  | .crc8le row => some row
  | .crc8leOut => none
  | .crc16 row => some row
  | .crc16Out => none
  | .crc16lsb row => some row
  | .crc16lsbOut => none
  | .lfsr8 row => some row
  | .lfsr8Out => none
  | .lfsr8rev row => some row
  | .lfsr8revOut => none
  | .lfsr8rfl row => some row
  | .lfsr8rflOut => none
  | .lfsr16 row => some row
  | .lfsr16Out => none
  | .parity8 => none
  | .parityb row => some row
  | .paritybOut => none
  | .xorb row => some row
  | .xorbOut => none
  | .addb row => some row
  | .addbOut => none
  | .addn row => some row
  | .addnOut => none

/-- The mnemonic of R73, as spec/opcode_table.json spells it. -/
def Instr.mnemonic : Instr → String
  | .search _ => "SEARCH"
  | .extract _ => "EXTRACT"
  | .getbit _ => "GETBIT"
  | .getbyte _ => "GETBYTE"
  | .invert => "INVERT"
  | .rev8 => "REV8"
  | .refl4 => "REFL4"
  | .manch _ _ _ => "MANCH"
  | .dmanch _ => "DMANCH"
  | .uart8n1 _ => "UART8N1"
  | .uart8o1 _ => "UART8O1"
  | .nib4b1s _ => "NIB4B1S"
  | .symbols _ => "SYMBOLS"
  | .whiten _ _ => "WHITEN"
  | .whitenOut _ => "WHITEN"
  | .crc4 _ => "CRC4"
  | .crc4Out => "CRC4"
  | .crc7 _ => "CRC7"
  | .crc7Out => "CRC7"
  | .crc8 _ => "CRC8"
  | .crc8Out => "CRC8"
  | .crc8le _ => "CRC8LE"
  | .crc8leOut => "CRC8LE"
  | .crc16 _ => "CRC16"
  | .crc16Out => "CRC16"
  | .crc16lsb _ => "CRC16LSB"
  | .crc16lsbOut => "CRC16LSB"
  | .lfsr8 _ => "LFSR8"
  | .lfsr8Out => "LFSR8"
  | .lfsr8rev _ => "LFSR8REV"
  | .lfsr8revOut => "LFSR8REV"
  | .lfsr8rfl _ => "LFSR8RFL"
  | .lfsr8rflOut => "LFSR8RFL"
  | .lfsr16 _ => "LFSR16"
  | .lfsr16Out => "LFSR16"
  | .parity8 => "PARITY8"
  | .parityb _ => "PARITYB"
  | .paritybOut => "PARITYB"
  | .xorb _ => "XORB"
  | .xorbOut => "XORB"
  | .addb _ => "ADDB"
  | .addbOut => "ADDB"
  | .addn _ => "ADDN"
  | .addnOut => "ADDN"

/-- The modifiers of the command syntax R81: `c1` and `zb` for MANCH, `refl` for WHITEN; an absent modifier is 0. -/
def Instr.modifiers : Instr → List String
  | .manch _ conv zb => (if conv then ["c1"] else []) ++ (if zb then ["zb"] else [])
  | .whiten _ refl => if refl then ["refl"] else []
  | .whitenOut refl => if refl then ["refl"] else []
  | .search _ => []
  | .extract _ => []
  | .getbit _ => []
  | .getbyte _ => []
  | .invert => []
  | .rev8 => []
  | .refl4 => []
  | .dmanch _ => []
  | .uart8n1 _ => []
  | .uart8o1 _ => []
  | .nib4b1s _ => []
  | .symbols _ => []
  | .crc4 _ => []
  | .crc4Out => []
  | .crc7 _ => []
  | .crc7Out => []
  | .crc8 _ => []
  | .crc8Out => []
  | .crc8le _ => []
  | .crc8leOut => []
  | .crc16 _ => []
  | .crc16Out => []
  | .crc16lsb _ => []
  | .crc16lsbOut => []
  | .lfsr8 _ => []
  | .lfsr8Out => []
  | .lfsr8rev _ => []
  | .lfsr8revOut => []
  | .lfsr8rfl _ => []
  | .lfsr8rflOut => []
  | .lfsr16 _ => []
  | .lfsr16Out => []
  | .parity8 => []
  | .parityb _ => []
  | .paritybOut => []
  | .xorb _ => []
  | .xorbOut => []
  | .addb _ => []
  | .addbOut => []
  | .addn _ => []
  | .addnOut => []

/-- The source operand of the command syntax R81: `r<n>` for a row, `out` for OUT, nothing for a command without source. -/
def Instr.sourceText : Instr → List String
  | .search row => ["r" ++ toString row]
  | .extract row => ["r" ++ toString row]
  | .getbit row => ["r" ++ toString row]
  | .getbyte row => ["r" ++ toString row]
  | .invert => []
  | .rev8 => []
  | .refl4 => []
  | .manch row _ _ => ["r" ++ toString row]
  | .dmanch row => ["r" ++ toString row]
  | .uart8n1 row => ["r" ++ toString row]
  | .uart8o1 row => ["r" ++ toString row]
  | .nib4b1s row => ["r" ++ toString row]
  | .symbols row => ["r" ++ toString row]
  | .whiten row _ => ["r" ++ toString row]
  | .whitenOut _ => ["out"]
  | .crc4 row => ["r" ++ toString row]
  | .crc4Out => ["out"]
  | .crc7 row => ["r" ++ toString row]
  | .crc7Out => ["out"]
  | .crc8 row => ["r" ++ toString row]
  | .crc8Out => ["out"]
  | .crc8le row => ["r" ++ toString row]
  | .crc8leOut => ["out"]
  | .crc16 row => ["r" ++ toString row]
  | .crc16Out => ["out"]
  | .crc16lsb row => ["r" ++ toString row]
  | .crc16lsbOut => ["out"]
  | .lfsr8 row => ["r" ++ toString row]
  | .lfsr8Out => ["out"]
  | .lfsr8rev row => ["r" ++ toString row]
  | .lfsr8revOut => ["out"]
  | .lfsr8rfl row => ["r" ++ toString row]
  | .lfsr8rflOut => ["out"]
  | .lfsr16 row => ["r" ++ toString row]
  | .lfsr16Out => ["out"]
  | .parity8 => []
  | .parityb row => ["r" ++ toString row]
  | .paritybOut => ["out"]
  | .xorb row => ["r" ++ toString row]
  | .xorbOut => ["out"]
  | .addb row => ["r" ++ toString row]
  | .addbOut => ["out"]
  | .addn row => ["r" ++ toString row]
  | .addnOut => ["out"]

/-- A command as R81 writes it: the mnemonic, its modifiers after dots, then the source. -/
def Instr.text (i : Instr) : String :=
  " ".intercalate (".".intercalate (i.mnemonic :: i.modifiers) :: i.sourceText)

end Sys2Proof
end

