-- ==== Sys2Proof/WellFormed.lean ====
section
/-! DEFINITION. The one check an instruction must pass to have a command word: its row index fits the 5-bit ROW field
(spec/30_encoding.md R71). Everything else a word could get wrong (R77) cannot be written as an `Instr`. -/

namespace Sys2Proof

/-- The ROW field holds "row index r, 0..31" (R71). -/
def rowFits (row : Nat) : Bool := decide (row < 32)

/-- Every field of the instruction fits the field of the command word that carries it (R71, R72). Whether the row is a valid
row is no matter of form: it is checked when the command runs (R77). -/
def Instr.wellFormed (i : Instr) : Bool := i.namedRow.all rowFits

end Sys2Proof
end

