-- ==== Sys2Proof/Decode.lean ====
section
/-! DEFINITION. Decoding and encoding of command words (spec/30_encoding.md R70 to R79, R81). Decoding is total: every 32-bit
word is one command or is illegal, with the reason named (R77). The encoder is written from the same table (R71, R73, R81). -/

namespace Sys2Proof

/-- Why a word, or a run of bytes, is not a command (R78). The BDU reports every reason as ERR_ILLEGAL. -/
inductive Illegal where
  /-- A reserved bit (15:14 or 31:18) is not 0: step 1 of R77. -/
  | reservedBit
  /-- OPC is not in the table of R73: step 2 of R77. -/
  | unassignedOpcode
  /-- A field the operation does not use is not 0: step 3 of R77. -/
  | unusedField
  /-- Fewer than four bytes: a command word is always 32 bits (R70). -/
  | shortInput
deriving DecidableEq, Repr

/-- OPC, bits 7:0 (R71). -/
def opcOf (w : Word) : Nat := (w.extractLsb' 0 8).toNat

/-- ROW, bits 12:8 (R71), as the unsigned value of its bits (R76). -/
def rowOf (w : Word) : Nat := (w.extractLsb' 8 5).toNat

/-- SRC, bit 13 (R71). -/
def srcOf (w : Word) : Bool := w.getLsbD 13

/-- M0, bit 16: CONV of MANCH, REFL of WHITEN (R71). -/
def m0Of (w : Word) : Bool := w.getLsbD 16

/-- M1, bit 17: ZB of MANCH (R71). -/
def m1Of (w : Word) : Bool := w.getLsbD 17

/-- Whether all reserved bits, 15:14 and 31:18, are 0 (R71; step 1 of R77). -/
def reservedClear (w : Word) : Bool := w &&& 0xFFFCC000#32 == 0#32

/-- Class bit-addressed (R72, step 3 of R77): SRC, M0 and M1 must be 0. -/
def decodeBitAddressed (w : Word) (mk : Nat → Instr) : Except Illegal Instr :=
  if srcOf w || m0Of w || m1Of w then .error .unusedField else .ok (mk (rowOf w))

/-- MANCH (R72, R74, step 3 of R77): SRC must be 0; M0 is CONV and M1 is ZB. -/
def decodeManch (w : Word) : Except Illegal Instr :=
  if srcOf w then .error .unusedField else .ok (.manch (rowOf w) (m0Of w) (m1Of w))

/-- Class byte-addressed (R72, step 3 of R77): M0 and M1 must be 0, and ROW must be 0 when SRC = 1. -/
def decodeByteAddressed (w : Word) (mkRow : Nat → Instr) (mkOut : Instr) : Except Illegal Instr :=
  if m0Of w || m1Of w || (srcOf w && rowOf w != 0) then .error .unusedField
  else if srcOf w then .ok mkOut else .ok (mkRow (rowOf w))

/-- WHITEN (R72, R75, step 3 of R77): M0 is REFL, M1 must be 0, and ROW must be 0 when SRC = 1. -/
def decodeWhiten (w : Word) : Except Illegal Instr :=
  if m1Of w || (srcOf w && rowOf w != 0) then .error .unusedField
  else if srcOf w then .ok (.whitenOut (m0Of w)) else .ok (.whiten (rowOf w) (m0Of w))

/-- Classes whole-buffer and scalar (R72, step 3 of R77): `w[17:8]` must be 0. -/
def decodePlain (w : Word) (i : Instr) : Except Illegal Instr :=
  if rowOf w != 0 || srcOf w || m0Of w || m1Of w then .error .unusedField else .ok i

/-- Step 2 and 3 of R77: the operation of OPC by the table of R73, then the requirements of its class (R72). -/
def decodeOpcode (w : Word) : Except Illegal Instr :=
  match opcOf w with
  | 0x10 => decodeBitAddressed w .search
  | 0x11 => decodeBitAddressed w .extract
  | 0x12 => decodeBitAddressed w .getbit
  | 0x13 => decodeBitAddressed w .getbyte
  | 0x20 => decodePlain w .invert
  | 0x21 => decodePlain w .rev8
  | 0x22 => decodePlain w .refl4
  | 0x23 => decodeManch w
  | 0x24 => decodeBitAddressed w .dmanch
  | 0x25 => decodeBitAddressed w .uart8n1
  | 0x26 => decodeBitAddressed w .uart8o1
  | 0x27 => decodeBitAddressed w .nib4b1s
  | 0x28 => decodeBitAddressed w .symbols
  | 0x29 => decodeWhiten w
  | 0x30 => decodeByteAddressed w .crc4 .crc4Out
  | 0x31 => decodeByteAddressed w .crc7 .crc7Out
  | 0x32 => decodeByteAddressed w .crc8 .crc8Out
  | 0x33 => decodeByteAddressed w .crc8le .crc8leOut
  | 0x34 => decodeByteAddressed w .crc16 .crc16Out
  | 0x35 => decodeByteAddressed w .crc16lsb .crc16lsbOut
  | 0x38 => decodeByteAddressed w .lfsr8 .lfsr8Out
  | 0x39 => decodeByteAddressed w .lfsr8rev .lfsr8revOut
  | 0x3A => decodeByteAddressed w .lfsr8rfl .lfsr8rflOut
  | 0x3B => decodeByteAddressed w .lfsr16 .lfsr16Out
  | 0x40 => decodePlain w .parity8
  | 0x41 => decodeByteAddressed w .parityb .paritybOut
  | 0x42 => decodeByteAddressed w .xorb .xorbOut
  | 0x43 => decodeByteAddressed w .addb .addbOut
  | 0x44 => decodeByteAddressed w .addn .addnOut
  | _ => .error .unassignedOpcode

/-- Decoding of a command word (R77). Total: every word is exactly one command or is illegal. -/
def decodeWord (w : Word) : Except Illegal Instr :=
  if reservedClear w then decodeOpcode w else .error .reservedBit

/-- The four bytes of a 32-bit register value, least significant byte first (R57). -/
def wordBytes (w : Word) : List Byte :=
  [w.extractLsb' 0 8, w.extractLsb' 8 8, w.extractLsb' 16 8, w.extractLsb' 24 8]

/-- Decoding of a byte sequence that begins with a command word as it stands in the window, least significant byte at the lowest
address (R57): the command and the bytes after it. Total on any bytes. -/
def decode : List Byte → Except Illegal (Instr × List Byte)
  | b0 :: b1 :: b2 :: b3 :: rest =>
    match decodeWord (b3 ++ b2 ++ b1 ++ b0) with
    | .ok i => .ok (i, rest)
    | .error e => .error e
  | _ => .error .shortInput

/-- The instruction the decoder reads from the `nbits` low bits of `w` (all other bits 0), laid out as CMD stands in the window. -/
def decodeTableWord (nbits w : Nat) : Option Instr :=
  match decode (wordBytes (BitVec.ofNat 32 (w % 2 ^ nbits))) with
  | .ok (i, _) => some i
  | .error _ => none

/-- A one-bit field at bit `pos` of a command word. -/
def flagAt (b : Bool) (pos : Nat) : Word := (BitVec.ofBool b).setWidth 32 <<< pos

/-- "The word is `OPC | ROW << 8 | SRC << 13 | M0 << 16 | M1 << 17`" (R81). -/
def commandWord (opc : Byte) (row : Nat) (src m0 m1 : Bool) : Word :=
  opc.setWidth 32 ||| (BitVec.ofNat 5 row).setWidth 32 <<< 8 ||| flagAt src 13 ||| flagAt m0 16 ||| flagAt m1 17

/-- The command word of an instruction (R81; the opcodes of R73). DESIGN CHOICE for a row number above 31, which is not well-formed
and which R81 gives no word: its low five bits stand in ROW (log entry 13). -/
def encode : Instr → Word
  | .search row => commandWord 0x10#8 row false false false
  | .extract row => commandWord 0x11#8 row false false false
  | .getbit row => commandWord 0x12#8 row false false false
  | .getbyte row => commandWord 0x13#8 row false false false
  | .invert => commandWord 0x20#8 0 false false false
  | .rev8 => commandWord 0x21#8 0 false false false
  | .refl4 => commandWord 0x22#8 0 false false false
  | .manch row conv zb => commandWord 0x23#8 row false conv zb
  | .dmanch row => commandWord 0x24#8 row false false false
  | .uart8n1 row => commandWord 0x25#8 row false false false
  | .uart8o1 row => commandWord 0x26#8 row false false false
  | .nib4b1s row => commandWord 0x27#8 row false false false
  | .symbols row => commandWord 0x28#8 row false false false
  | .whiten row refl => commandWord 0x29#8 row false refl false
  | .whitenOut refl => commandWord 0x29#8 0 true refl false
  | .crc4 row => commandWord 0x30#8 row false false false
  | .crc4Out => commandWord 0x30#8 0 true false false
  | .crc7 row => commandWord 0x31#8 row false false false
  | .crc7Out => commandWord 0x31#8 0 true false false
  | .crc8 row => commandWord 0x32#8 row false false false
  | .crc8Out => commandWord 0x32#8 0 true false false
  | .crc8le row => commandWord 0x33#8 row false false false
  | .crc8leOut => commandWord 0x33#8 0 true false false
  | .crc16 row => commandWord 0x34#8 row false false false
  | .crc16Out => commandWord 0x34#8 0 true false false
  | .crc16lsb row => commandWord 0x35#8 row false false false
  | .crc16lsbOut => commandWord 0x35#8 0 true false false
  | .lfsr8 row => commandWord 0x38#8 row false false false
  | .lfsr8Out => commandWord 0x38#8 0 true false false
  | .lfsr8rev row => commandWord 0x39#8 row false false false
  | .lfsr8revOut => commandWord 0x39#8 0 true false false
  | .lfsr8rfl row => commandWord 0x3A#8 row false false false
  | .lfsr8rflOut => commandWord 0x3A#8 0 true false false
  | .lfsr16 row => commandWord 0x3B#8 row false false false
  | .lfsr16Out => commandWord 0x3B#8 0 true false false
  | .parity8 => commandWord 0x40#8 0 false false false
  | .parityb row => commandWord 0x41#8 row false false false
  | .paritybOut => commandWord 0x41#8 0 true false false
  | .xorb row => commandWord 0x42#8 row false false false
  | .xorbOut => commandWord 0x42#8 0 true false false
  | .addb row => commandWord 0x43#8 row false false false
  | .addbOut => commandWord 0x43#8 0 true false false
  | .addn row => commandWord 0x44#8 row false false false
  | .addnOut => commandWord 0x44#8 0 true false false

/-- One row of the opcode table: a word encodes the row's operation exactly when `w &&& mask = pattern` (R77). -/
structure TableRow where
  mnemonic : String
  mask : Word
  pattern : Word
deriving DecidableEq, Repr

/-- Whether a word encodes the operation of a table row (R77). -/
def TableRow.fits (t : TableRow) (w : Word) : Bool := w &&& t.mask == t.pattern

/-- The rows of spec/opcode_table.json, in its order (R77: "the rows are disjoint, and a word that matches no row is illegal"). -/
def commandTable : List TableRow := [
   ⟨"SEARCH", 0xFFFFE0FF#32, 0x00000010#32⟩,
   ⟨"EXTRACT", 0xFFFFE0FF#32, 0x00000011#32⟩,
   ⟨"GETBIT", 0xFFFFE0FF#32, 0x00000012#32⟩,
   ⟨"GETBYTE", 0xFFFFE0FF#32, 0x00000013#32⟩,
   ⟨"INVERT", 0xFFFFFFFF#32, 0x00000020#32⟩,
   ⟨"REV8", 0xFFFFFFFF#32, 0x00000021#32⟩,
   ⟨"REFL4", 0xFFFFFFFF#32, 0x00000022#32⟩,
   ⟨"MANCH", 0xFFFCE0FF#32, 0x00000023#32⟩,
   ⟨"DMANCH", 0xFFFFE0FF#32, 0x00000024#32⟩,
   ⟨"UART8N1", 0xFFFFE0FF#32, 0x00000025#32⟩,
   ⟨"UART8O1", 0xFFFFE0FF#32, 0x00000026#32⟩,
   ⟨"NIB4B1S", 0xFFFFE0FF#32, 0x00000027#32⟩,
   ⟨"SYMBOLS", 0xFFFFE0FF#32, 0x00000028#32⟩,
   ⟨"WHITEN", 0xFFFEE0FF#32, 0x00000029#32⟩,
   ⟨"WHITEN", 0xFFFEFFFF#32, 0x00002029#32⟩,
   ⟨"CRC4", 0xFFFFE0FF#32, 0x00000030#32⟩,
   ⟨"CRC4", 0xFFFFFFFF#32, 0x00002030#32⟩,
   ⟨"CRC7", 0xFFFFE0FF#32, 0x00000031#32⟩,
   ⟨"CRC7", 0xFFFFFFFF#32, 0x00002031#32⟩,
   ⟨"CRC8", 0xFFFFE0FF#32, 0x00000032#32⟩,
   ⟨"CRC8", 0xFFFFFFFF#32, 0x00002032#32⟩,
   ⟨"CRC8LE", 0xFFFFE0FF#32, 0x00000033#32⟩,
   ⟨"CRC8LE", 0xFFFFFFFF#32, 0x00002033#32⟩,
   ⟨"CRC16", 0xFFFFE0FF#32, 0x00000034#32⟩,
   ⟨"CRC16", 0xFFFFFFFF#32, 0x00002034#32⟩,
   ⟨"CRC16LSB", 0xFFFFE0FF#32, 0x00000035#32⟩,
   ⟨"CRC16LSB", 0xFFFFFFFF#32, 0x00002035#32⟩,
   ⟨"LFSR8", 0xFFFFE0FF#32, 0x00000038#32⟩,
   ⟨"LFSR8", 0xFFFFFFFF#32, 0x00002038#32⟩,
   ⟨"LFSR8REV", 0xFFFFE0FF#32, 0x00000039#32⟩,
   ⟨"LFSR8REV", 0xFFFFFFFF#32, 0x00002039#32⟩,
   ⟨"LFSR8RFL", 0xFFFFE0FF#32, 0x0000003A#32⟩,
   ⟨"LFSR8RFL", 0xFFFFFFFF#32, 0x0000203A#32⟩,
   ⟨"LFSR16", 0xFFFFE0FF#32, 0x0000003B#32⟩,
   ⟨"LFSR16", 0xFFFFFFFF#32, 0x0000203B#32⟩,
   ⟨"PARITY8", 0xFFFFFFFF#32, 0x00000040#32⟩,
   ⟨"PARITYB", 0xFFFFE0FF#32, 0x00000041#32⟩,
   ⟨"PARITYB", 0xFFFFFFFF#32, 0x00002041#32⟩,
   ⟨"XORB", 0xFFFFE0FF#32, 0x00000042#32⟩,
   ⟨"XORB", 0xFFFFFFFF#32, 0x00002042#32⟩,
   ⟨"ADDB", 0xFFFFE0FF#32, 0x00000043#32⟩,
   ⟨"ADDB", 0xFFFFFFFF#32, 0x00002043#32⟩,
   ⟨"ADDN", 0xFFFFE0FF#32, 0x00000044#32⟩,
   ⟨"ADDN", 0xFFFFFFFF#32, 0x00002044#32⟩  ]

end Sys2Proof
end

