-- ==== Sys2Proof/Machine/Bits.lean ====
section
/-! DEFINITION. Bits of packed buffers and pure functions on bytes: the numbering and packing of spec/00_scope.md R9, and the
reflections and parity of spec/41_invert_reflect.md R121, R122 and spec/47_parity_sum.md R240. -/

namespace Sys2Proof.Machine

/-- `ceil8(n) = (n + 7) div 8` (R7). -/
def ceil8 (n : Nat) : Nat := (n + 7) / 8

/-- Bit `k mod 8` of a packed byte, MSB-first: bit index k of a buffer is bit `7 - (k mod 8)` of its byte (R9, R51). -/
def bitAt (b : Byte) (k : Nat) : Bool := b.getLsbD (7 - k % 8)

/-- `val(L)`: the number whose binary digits, most significant first, are L (R9). -/
def val (bits : List Bool) : Nat := bits.foldl (fun n b => 2 * n + b.toNat) 0

/-- The byte whose bits in buffer order (MSB-first) are `f 0, ..., f 7` (R9). -/
def byteOf (f : Nat → Bool) : Byte := BitVec.ofNat 8 (val [f 0, f 1, f 2, f 3, f 4, f 5, f 6, f 7])

/-- `pack(L)`: the byte sequence of length `ceil8(|L|)` whose bit i is L[i], every other bit 0 (R9). -/
def pack (bits : List Bool) : List Byte :=
  (List.range (ceil8 bits.length)).map fun i => byteOf fun j => bits.getD (8 * i + j) false

/-- `rev8` for bytes, `refl_W` for W-bit values: the order of the bits reversed (R121, R191). -/
def reflect {w : Nat} (x : BitVec w) : BitVec w := x.reverse

/-- `refl4`: the bit order reversed inside each nibble, the nibbles kept where they are (R122). -/
def reflectNibbles (b : Byte) : Byte := reflect (b.extractLsb' 4 4) ++ reflect (b.extractLsb' 0 4)

/-- `parity8`: 1 if the number of set bits is odd (R240). -/
def parity8 (b : Byte) : Bool :=
  b.getLsbD 7 ^^ b.getLsbD 6 ^^ b.getLsbD 5 ^^ b.getLsbD 4 ^^ b.getLsbD 3 ^^ b.getLsbD 2 ^^ b.getLsbD 1 ^^ b.getLsbD 0

/-- The bits of a byte, most significant first: the order i = 7, 6, ..., 0 of R191 and R220. -/
def msbFirst (b : Byte) : List Bool :=
  [b.getLsbD 7, b.getLsbD 6, b.getLsbD 5, b.getLsbD 4, b.getLsbD 3, b.getLsbD 2, b.getLsbD 1, b.getLsbD 0]

/-- The bits of a byte, least significant first: the order i = 0, 1, ..., 7 of R191 and R222. -/
def lsbFirst (b : Byte) : List Bool := (msbFirst b).reverse

/-- A truth value as the register value 0 or 1 (R102, R240). -/
def wordOfBool (b : Bool) : Word := (BitVec.ofBool b).setWidth 32

end Sys2Proof.Machine
end

