-- ==== Sys2Proof/Config.lean ====
section
/-! DEFINITION. The implementation parameters of spec/00_scope.md R6, at the values of that rule's table (log entry 1),
and the offsets of the host's address window that go with them (spec/20_memory.md R57). The model has no free value:
the spec gives every result of every operation. -/

namespace Sys2Proof.Config

/-- P_NUM_ROWS: the greatest number of rows the bit buffer holds (R6). DESIGN CHOICE, unsafe for a BDU built with another value. -/
abbrev numRows : Nat := 25

/-- P_ROW_BYTES: bytes of backing store per row (R6). DESIGN CHOICE, unsafe for a BDU built with another value. -/
abbrev rowBytes : Nat := 128

/-- P_ROW_BITS = 8 * P_ROW_BYTES: the greatest `bit_count` of a row (R6). -/
abbrev rowBits : Nat := 8 * rowBytes

/-- P_PAT_BYTES: bytes of the pattern buffer (R6). DESIGN CHOICE, unsafe for a BDU built with another value. -/
abbrev patBytes : Nat := 16

/-- P_OUT_BYTES: bytes of the output payload buffer (R6). DESIGN CHOICE, unsafe for a BDU built with another value. -/
abbrev outBytes : Nat := 256

/-- Window offset of CMD (R57). -/
abbrev cmdOffset : Nat := 0x0000

/-- Window offset of STATUS (R57). -/
abbrev statusOffset : Nat := 0x0004

/-- Window offset of A[0]; A[i] stands at 4 * i above it (R57). -/
abbrev opndOffset : Nat := 0x0008

/-- Window offset of R[0] (R57). -/
abbrev r0Offset : Nat := 0x0020

/-- Window offset of R[1] (R57). -/
abbrev r1Offset : Nat := 0x0024

/-- Window offset of NROWS (R57). -/
abbrev nrowsOffset : Nat := 0x0028

/-- Window offset of OUTBITS (R57). -/
abbrev outbitsOffset : Nat := 0x002C

/-- Window offset of PAT[0] (R57). -/
abbrev patBase : Nat := 0x0040

/-- Window offset of BITS[0]; BITS[r] stands at 4 * r above it (R57). -/
abbrev bitsOffset : Nat := 0x0080

/-- Window offset of OUT[0] (R57). -/
abbrev outBase : Nat := 0x0100

/-- Window offset of BB[0][0]; BB[r][i] stands at P_ROW_BYTES * r + i above it (R57). -/
abbrev rowBase : Nat := 0x1000

end Sys2Proof.Config
end

