-- ==== Sys2Proof/Machine/State.lean ====
section
/-! DEFINITION. The whole state of one BDU (spec/10_state.md R20), the host actions a step performs (spec/30_encoding.md R82),
the command errors (spec/60_exceptions.md R261), and the state after reset (R36, spec/70_reset_and_hazards.md R290). -/

namespace Sys2Proof.Machine

/-- The five command errors (R261). Codes 6..15 are never produced, so there is no constructor for them (U6). -/
inductive ErrCode where
  /-- ERR_ILLEGAL: the word written to CMD is not a legal command (R78). -/
  | illegal
  /-- ERR_CONFIG: NROWS or a BITS register in use is out of bounds (R27, R28). -/
  | config
  /-- ERR_ROW: the command names a row that is not valid. -/
  | row
  /-- ERR_RANGE: an offset, or an offset plus a length, passes the end of the valid data (R54). -/
  | range
  /-- ERR_OPERAND: a pattern or symbol length is outside its legal set (R100, R159). -/
  | operand
deriving DecidableEq, Repr

/-- One action from outside the BDU: a host access through the address window (R57, R82), or the platform's reset (R290).
`off` is the byte offset in the window. The half-word accesses exist only to be refused (R58, U9). -/
inductive HostAction where
  | readByte (off : Nat)
  | readHalf (off : Nat)
  | readWord (off : Nat)
  | writeByte (off : Nat) (value : Byte)
  | writeHalf (off : Nat) (value : BitVec 16)
  | writeWord (off : Nat) (value : Word)
  /-- The platform's one reset, applied between host actions, never inside a command (R290). -/
  | reset
deriving DecidableEq, Repr

/-- The buffer bytes BB, PAT and OUT (R30, R31, R32), keyed by their window offset (R57), as (offset, byte) pairs: offsets
strictly rising, no byte 0x00 listed. An unlisted byte reads 0x00, the reset contents of R36 (log entry 5). -/
abbrev Memory := List Host.Cell

/-- The state of one BDU (R20), "and nothing else", followed by two fields of the model's own. -/
structure State where
  /-- The operand registers A[0] .. A[4] (R21): read by commands, written by the host only. -/
  a : Vector Word 5
  /-- The result register R[0] (R22): written by completing commands only. -/
  r0 : Word
  /-- The result register R[1] (R22): written by completing commands only. -/
  r1 : Word
  /-- CMD (R25): the last word written to it, legal or not. -/
  cmd : Word
  /-- STATUS (R26): ERR in bits 3:0, STICKY in bit 8, all other bits reserved. -/
  status : Word
  /-- NROWS (R27): the number of valid rows, stored as written. -/
  nrows : Word
  /-- BITS[r] (R28): the `bit_count` of each row, stored as written. -/
  bits : Vector Word Config.numRows
  /-- The bytes of BB, PAT and OUT (R30, R31, R32). -/
  mem : Memory
  /-- OUTBITS (R29): the valid bit length of OUT. -/
  outbits : Word
  /-- The MODEL's own field: the host actions still to come, in order (R24, R82; log entry 2). -/
  pending : List HostAction
  /-- The MODEL's own field: what the host's last read returned (R57; log entry 4). The BDU never reads it. -/
  readData : Word
deriving DecidableEq, Repr

/-- The reasons the machine stops with a fault: none. "There is no double-fault condition and no state in which the BDU stops
accepting commands" (R268); every command error is a next state (R264). Safe: the spec names no event that could be one. -/
inductive Fault where
deriving DecidableEq, Repr

/-- The reasons a step is refused. -/
inductive Refusal where
  /-- Raised by `exec` for an instruction that has no meaning in the model. Safe: nothing is claimed of it. No arm raises it. -/
  | notModelled (mnemonic : String)
  /-- Raised by a host access of a width the spec does not give there: a half-word access, a byte access to a register, a word
  access to a buffer, a misaligned word. Safe: R58 puts these accesses outside the spec and U9 says `refuse`. -/
  | accessWidth (off : Nat)
deriving DecidableEq, Repr

/-- The machine after reset: "every piece of state of rule R20 is zero" (R36, R290). No host action is waiting and no read has
been made (the model's own fields, log entries 2 and 4). -/
def State.reset : State where
  a := Vector.replicate 5 0
  r0 := 0
  r1 := 0
  cmd := 0
  status := 0
  nrows := 0
  bits := Vector.replicate Config.numRows 0
  mem := []
  outbits := 0
  pending := []
  readData := 0

end Sys2Proof.Machine
end

