-- ==== Sys2Proof/Machine/Flags.lean ====
section
/-! DEFINITION. STATUS (spec/10_state.md R26): its fields, and the three ways it changes (spec/60_exceptions.md R264,
spec/20_memory.md R56). ERR is the only condition flag the BDU has; no result sets a flag (R26, R262). -/

namespace Sys2Proof.Machine

/-- The code that STATUS.ERR holds for an error (R261). -/
def ErrCode.code : ErrCode → BitVec 4
  | .illegal => 1
  | .config => 2
  | .row => 3
  | .range => 4
  | .operand => 5

/-- STATUS.ERR, bits 3:0 (R26). -/
def errOf (status : Word) : BitVec 4 := status.extractLsb' 0 4

/-- STATUS.STICKY, bit 8 (R26). -/
def stickyOf (status : Word) : Bool := status.getLsbD 8

/-- The mask of STATUS.STICKY (R26). -/
def stickyMask : Word := 0x00000100#32

/-- The bits of STATUS that are not reserved: ERR and STICKY (R26). -/
def statusMask : Word := 0x0000010F#32

/-- STATUS after a command that completes: ERR is 0, STICKY unchanged (R264). -/
def statusCompleted (status : Word) : Word := status &&& ~~~0x0000000F#32

/-- STATUS after a command that ends in error `c`: ERR is its code, STICKY is 1 (R264). -/
def statusError (c : ErrCode) (status : Word) : Word :=
  (status &&& ~~~0x0000000F#32) ||| c.code.setWidth 32 ||| stickyMask

/-- STATUS after a host write of `v`: bit 8 of `v` clears STICKY, every other written bit is ignored (R26, R56). -/
def statusWritten (v status : Word) : Word :=
  if stickyOf v then status &&& ~~~stickyMask else status

/-- What the host reads from STATUS: reserved bits read as 0 (R26, U5). -/
def statusRead (status : Word) : Word := status &&& statusMask

end Sys2Proof.Machine
end

