-- ==== Sys2Proof/Machine/Ops.lean ====
section
/-! DEFINITION. The operations all commands share: reading and writing buffer bytes (spec/20_memory.md R50, R55), completing a
command, and taking a command error (spec/60_exceptions.md R263 to R265). There is no return from an error, because
there is no handler to return from (R267). -/

namespace Sys2Proof.Machine

/-- The byte at a window offset; an unlisted byte is 0x00 (R36). -/
def Memory.read : Memory → Nat → Byte
  | [], _ => 0
  | (k, b) :: rest, off => if k = off then b else Memory.read rest off

/-- Put a byte at the front of a memory whose offsets are all greater, unless it is the byte an unlisted offset reads as. -/
def Memory.put (off : Nat) (v : Byte) (rest : Memory) : Memory :=
  if v = 0 then rest else (off, v) :: rest

/-- Store one byte, keeping the canonical form: offsets rising, no 0x00 listed. -/
def Memory.write : Memory → Nat → Byte → Memory
  | [], off, v => Memory.put off v []
  | (k, b) :: rest, off, v =>
    if off < k then Memory.put off v ((k, b) :: rest)
    else if off = k then Memory.put off v rest
    else (k, b) :: Memory.write rest off v

/-- Store a run of bytes at rising offsets. -/
def Memory.writeBytes (m : Memory) (off : Nat) : List Byte → Memory
  | [] => m
  | v :: vs => Memory.writeBytes (Memory.write m off v) (off + 1) vs

/-- Whether every listed offset of a memory is above `lo`, the offsets rise strictly and no byte is 0x00. -/
def Memory.risingFrom : Memory → Nat → Bool
  | [], _ => true
  | (k, b) :: rest, lo => decide (lo ≤ k) && b != 0 && Memory.risingFrom rest (k + 1)

/-- The canonical form of a memory: offsets strictly rising, no byte listed that an unlisted offset reads as. -/
def Memory.wf (m : Memory) : Bool := Memory.risingFrom m 0

/-- Where the bytes of a byte-addressed command lie: a row of the bit buffer (SRC = 0) or OUT (SRC = 1) (R54). -/
inductive Source where
  | row (r : Nat)
  | out
deriving DecidableEq, Repr

/-- The window offset of byte 0 of a source buffer (R57). -/
def Source.base : Source → Nat
  | .row r => Config.rowBase + Config.rowBytes * r
  | .out => Config.outBase

/-- The bytes a source buffer holds: P_ROW_BYTES or P_OUT_BYTES (R30, R31). -/
def Source.capacity : Source → Nat
  | .row _ => Config.rowBytes
  | .out => Config.outBytes

/-- Byte i of a source buffer: `BB[r][i]` or `OUT[i]`. Beyond the buffer's last byte there is none, and 0x00 stands for it; no
command reaches it while OUTBITS is in bounds (R29; log entry 6). -/
def State.bufByte (s : State) (src : Source) (i : Nat) : Byte :=
  if i < src.capacity then Memory.read s.mem (src.base + i) else 0

/-- `PAT[i]` (R32). -/
def State.patByte (s : State) (i : Nat) : Byte := Memory.read s.mem (Config.patBase + i)

/-- `S[off + j] <- bytes[j]`; a byte beyond the buffer's last one is dropped (log entry 6). -/
def State.storeRun (s : State) (src : Source) (off : Nat) (bytes : List Byte) : State :=
  { s with mem := Memory.writeBytes s.mem (src.base + off) (bytes.take (src.capacity - off)) }

/-- The payload write discipline R55: the whole of OUT is replaced by the payload and zeros after it, and OUTBITS takes the
payload's valid bit length. -/
def State.deliver (s : State) (payload : List Byte) (validBits : Nat) : State :=
  { s with
    mem := Memory.writeBytes s.mem Config.outBase
      ((payload ++ List.replicate Config.outBytes 0).take Config.outBytes)
    outbits := BitVec.ofNat 32 validBits }

/-- A payload of whole bytes (R150, R153, R156): OUTBITS is 8 times their count. -/
def State.deliverBytes (s : State) (bytes : List Byte) : State := s.deliver bytes (8 * bytes.length)

/-- A payload of bits, packed MSB-first (R101, R131, R135, R159): OUTBITS is their count. -/
def State.deliverBits (s : State) (bits : List Bool) : State := s.deliver (pack bits) bits.length

/-- Completing a command (R264): ERR is 0, STICKY is unchanged, and both result registers are written (R22). -/
def State.complete (s : State) (res0 res1 : Word) : State :=
  { s with r0 := res0, r1 := res1, status := statusCompleted s.status }

/-- Taking a command error, the BDU's one exception (R260, R264, R265): STATUS takes the code and STICKY, nothing else changes.
No context is saved and control goes nowhere (R265). -/
def State.takeError (s : State) (c : ErrCode) : State :=
  { s with status := statusError c s.status }

/-- One check of a command: the condition under which it fails, and the error it then raises (R11, R263). -/
structure Check where
  fails : Bool
  code : ErrCode
deriving DecidableEq, Repr

/-- "The first check that fails determines the error; later checks are not made" (R263). -/
def firstError : List Check → Option ErrCode
  | [] => none
  | c :: rest => if c.fails then some c.code else firstError rest

/-- A command's run (R263 to R265): all its checks in order, before anything is written; then its effect on the state. -/
def command (checks : List Check) (effect : State → State) (s : State) : Host.Outcome State Fault Refusal :=
  match firstError checks with
  | some c => .next (s.takeError c)
  | none => .next (effect s)

end Sys2Proof.Machine
end

