-- ==== Sys2Proof/Machine/Operands.lean ====
section
/-! DEFINITION. The operand forms of the commands (spec/10_state.md R23, spec/30_encoding.md R76) and the checks on them that
several commands share: the common checks of spec/60_exceptions.md R263 and the ranges of spec/20_memory.md R54. -/

namespace Sys2Proof.Machine

/-- The operand register A[i] (R21). -/
def State.opnd (s : State) (i : Fin 5) : Word := s.a[i]

/-- An offset, length or count: the full 32 bits of the operand register as a natural number (R76). -/
def State.opndNat (s : State) (i : Fin 5) : Nat := (s.opnd i).toNat

/-- A byte operand: bits 7:0 of A[0], bits 31:8 ignored (R76). -/
def State.opndByte (s : State) : Byte := (s.opnd 0).setWidth 8

/-- A polynomial, initial value, generator or key: the low W bits of the operand register, the rest ignored (R76). -/
def State.opndLow (s : State) (w : Nat) (i : Fin 5) : BitVec w := (s.opnd i).setWidth w

/-- `BITS[r]` as a natural number; there is no such register for `r >= P_NUM_ROWS` (R28), and 0 stands for it. -/
def State.rowLen (s : State) (r : Nat) : Nat := (s.bits.toList.getD r 0).toNat

/-- `bit(BB[r], k)`: bit k of row r (R30, R9). -/
def State.rowBit (s : State) (r k : Nat) : Bool := bitAt (s.bufByte (.row r) (k / 8)) k

/-- `bits(BB[r], start, n)`: n bits of row r from bit `start` on (R9). -/
def State.rowRun (s : State) (r start n : Nat) : List Bool :=
  (List.range n).map fun i => s.rowBit r (start + i)

/-- `bit(PAT, i)`: pattern bit i (R32). -/
def State.patBit (s : State) (i : Nat) : Bool := bitAt (s.patByte (i / 8)) i

/-- `[S[off], ..., S[off + n - 1]]`: the message of a byte-addressed command (R54, R192). -/
def State.message (s : State) (src : Source) (off n : Nat) : List Byte :=
  (List.range n).map fun i => s.bufByte src (off + i)

/-- The valid extent E in bytes (R54): `ceil8(BITS[ROW])` for a row, `ceil8(OUTBITS)` for OUT. -/
def State.extent (s : State) : Source → Nat
  | .row r => ceil8 (s.rowLen r)
  | .out => ceil8 s.outbits.toNat

/-- The length field of a symbol word, bits 4:0 (R158). -/
def symLen (w : Word) : Nat := (w.extractLsb' 0 5).toNat

/-- `symbit(w, i) = w[31 - i]`: pattern bit i of a symbol word (R158). -/
def symBit (w : Word) (i : Nat) : Bool := w.getLsbD (31 - i)

/-- The pattern of a symbol word, its first `len` bits in row order (R158). -/
def symBits (w : Word) : List Bool := (List.range (symLen w)).map (symBit w)

/-- Steps 2 to 4 of R263, for a command that uses row r of the bit buffer. -/
def rowChecks (s : State) (r : Nat) : List Check :=
  [⟨decide (Config.numRows < s.nrows.toNat), .config⟩,
   ⟨decide (s.nrows.toNat ≤ r), .row⟩,
   ⟨decide (Config.rowBits < s.rowLen r), .config⟩]

/-- Steps 2 to 4 of R263 for a byte-addressed command: made for a row, skipped for OUT. -/
def sourceChecks (s : State) : Source → List Check
  | .row r => rowChecks s r
  | .out => []

/-- A range check of step 6 (R54, R263): `bound < reach` raises ERR_RANGE. Natural numbers, no wrap-around. -/
def rangeCheck (reach bound : Nat) : Check := ⟨decide (bound < reach), .range⟩

/-- A bit-addressed command on row r: the common checks, the command's own checks, then its effect (R263). -/
def rowCommand (r : Nat) (checks : State → List Check) (effect : State → State) (s : State) :
    Host.Outcome State Fault Refusal :=
  command (rowChecks s r ++ checks s) effect s

/-- A byte-addressed command: the common checks when the source is a row, then `off + n > E` raises ERR_RANGE, then the effect,
given the message (R54, R192, R224, R245). -/
def byteCommand (src : Source) (effect : List Byte → State → State) (s : State) :
    Host.Outcome State Fault Refusal :=
  command (sourceChecks s src ++ [rangeCheck (s.opndNat 0 + s.opndNat 1) (s.extent src)])
    (fun t => effect (s.message src (s.opndNat 0) (s.opndNat 1)) t) s

/-- A command of the Checksum group: it computes a value from the message and changes no buffer; R[0] takes the value and R[1]
is 0 (R192, R224, R245). -/
def checksum (src : Source) (value : State → List Byte → Word) (s : State) : Host.Outcome State Fault Refusal :=
  byteCommand src (fun msg t => t.complete (value t msg) 0) s

/-- A scalar command: it raises no error but ERR_ILLEGAL, which is the decoder's (R121, R122, R240, R261). -/
def scalar (value : Byte → Word) (s : State) : Host.Outcome State Fault Refusal :=
  .next (s.complete (value s.opndByte) 0)

end Sys2Proof.Machine
end

