-- ==== Sys2Proof/Machine/Crc.lean ====
section
/-! DEFINITION. CRC generator: CRC4, CRC7, CRC8, CRC8LE, CRC16, CRC16LSB (spec/45_crc.md R190 to R198). -/

namespace Sys2Proof.Machine

/-- One data bit into the MSB-first register: the inner loop of `crc_msb` (R191). -/
def crcMsbBit {w : Nat} (poly reg : BitVec w) (d : Bool) : BitVec w :=
  if reg.msb ^^ d then (reg <<< 1) ^^^ poly else reg <<< 1

/-- One data bit into the LSB-first register: the inner loop of `crc_lsb` (R191). -/
def crcLsbBit {w : Nat} (poly reg : BitVec w) (d : Bool) : BitVec w :=
  if reg.getLsbD 0 ^^ d then (reg >>> 1) ^^^ poly else reg >>> 1

/-- `crc_msb(W, msg, poly, init)` (R191): bytes in increasing index, each most significant bit first. -/
def crcMsb {w : Nat} (msg : List Byte) (poly init : BitVec w) : BitVec w :=
  (msg.flatMap msbFirst).foldl (crcMsbBit poly) init

/-- `crc_lsb(W, msg, poly, init)` (R191): bytes in increasing index, each least significant bit first. -/
def crcLsb {w : Nat} (msg : List Byte) (poly init : BitVec w) : BitVec w :=
  (msg.flatMap lsbFirst).foldl (crcLsbBit poly) init

/-- The value of an MSB-first CRC of width w: polynomial A[2], initial value A[3], low w bits of each (R192). -/
def crcMsbValue (w : Nat) (s : State) (msg : List Byte) : Word :=
  (crcMsb msg (s.opndLow w 2) (s.opndLow w 3)).setWidth 32

/-- The value of CRC8LE (R196; 90_conflicts.md C1): the operation reflects polynomial and initial value itself. -/
def crc8leValue (s : State) (msg : List Byte) : Word :=
  (crcLsb msg (reflect (s.opndLow 8 2)) (reflect (s.opndLow 8 3))).setWidth 32

/-- The value of CRC16LSB (R198): polynomial and initial value are used as given, already reflected by the caller. -/
def crc16lsbValue (s : State) (msg : List Byte) : Word :=
  (crcLsb msg (s.opndLow 16 2) (s.opndLow 16 3)).setWidth 32

/-- CRC4 of a row (R193). -/
def execCrc4 (row : Nat) (s : State) : Host.Outcome State Fault Refusal := checksum (.row row) (crcMsbValue 4) s

/-- CRC4 of OUT (R193). -/
def execCrc4Out (s : State) : Host.Outcome State Fault Refusal := checksum .out (crcMsbValue 4) s

/-- CRC7 of a row (R194). -/
def execCrc7 (row : Nat) (s : State) : Host.Outcome State Fault Refusal := checksum (.row row) (crcMsbValue 7) s

/-- CRC7 of OUT (R194). -/
def execCrc7Out (s : State) : Host.Outcome State Fault Refusal := checksum .out (crcMsbValue 7) s

/-- CRC8 of a row (R195). -/
def execCrc8 (row : Nat) (s : State) : Host.Outcome State Fault Refusal := checksum (.row row) (crcMsbValue 8) s

/-- CRC8 of OUT (R195). -/
def execCrc8Out (s : State) : Host.Outcome State Fault Refusal := checksum .out (crcMsbValue 8) s

/-- CRC8LE of a row (R196). -/
def execCrc8le (row : Nat) (s : State) : Host.Outcome State Fault Refusal := checksum (.row row) crc8leValue s

/-- CRC8LE of OUT (R196). -/
def execCrc8leOut (s : State) : Host.Outcome State Fault Refusal := checksum .out crc8leValue s

/-- CRC16 of a row (R197). -/
def execCrc16 (row : Nat) (s : State) : Host.Outcome State Fault Refusal := checksum (.row row) (crcMsbValue 16) s

/-- CRC16 of OUT (R197). -/
def execCrc16Out (s : State) : Host.Outcome State Fault Refusal := checksum .out (crcMsbValue 16) s

/-- CRC16LSB of a row (R198). -/
def execCrc16lsb (row : Nat) (s : State) : Host.Outcome State Fault Refusal := checksum (.row row) crc16lsbValue s

/-- CRC16LSB of OUT (R198). -/
def execCrc16lsbOut (s : State) : Host.Outcome State Fault Refusal := checksum .out crc16lsbValue s

end Sys2Proof.Machine
end

