-- ==== Sys2Proof/Machine/Framing.lean ====
section
/-! DEFINITION. Framing decoders: UART8N1, UART8O1, NIB4B1S, SYMBOLS (spec/43_framing_decoders.md R150 to R161). A framing violation
stops the decoder with the items before it; it is a result, not an error (R161). -/

namespace Sys2Proof.Machine

/-- Decode at most `count` consecutive frames of `width` bits, up to the first bad one (R150, R153, R156, R161). -/
def unframe (width : Nat) (frame : List Bool → Option Byte) : Nat → List Bool → List Byte
  | 0, _ => []
  | count + 1, bits =>
    match frame (bits.take width) with
    | none => []
    | some b => b :: unframe width frame count (bits.drop width)

/-- The 8N1 frame (R151): start bit 0, eight data bits least significant first, stop bit 1. -/
def frame8n1 (f : List Bool) : Option Byte :=
  if f.getD 0 false = false ∧ f.getD 9 false = true then some (byteOf fun j => f.getD (8 - j) false) else none

/-- The 8O1 frame (R154): start bit 1, eight data bits most significant first, a parity bit that makes the ones of data and parity
odd, stop bit 0. -/
def frame8o1 (f : List Bool) : Option Byte :=
  let d := byteOf fun j => f.getD (1 + j) false
  if f.getD 0 false = true ∧ f.getD 10 false = false ∧ (parity8 d ^^ f.getD 9 false) = true then some d else none

/-- The 4b1s group (R157): four nibble bits most significant first, then the separator 1; the nibble in the low half of a byte. -/
def frame4b1s (f : List Bool) : Option Byte :=
  if f.getD 4 false = true then some (BitVec.ofNat 8 (val (f.take 4))) else none

/-- A decoder of fixed-size frames (R150, R153, R156): the whole requested range must lie in the row; `A[1] div width` frames
are asked for; the items go to OUT, one byte each, and their count to R[0]. -/
def framed (row width : Nat) (frame : List Bool → Option Byte) (s : State) : Host.Outcome State Fault Refusal :=
  rowCommand row
    (fun s => [rangeCheck (s.opndNat 0 + s.opndNat 1) (s.rowLen row)])
    (fun s =>
      let items := unframe width frame (s.opndNat 1 / width) (s.rowRun row (s.opndNat 0) (s.opndNat 1))
      (s.deliverBytes items).complete (BitVec.ofNat 32 items.length) 0) s

/-- UART8N1 (R150): 10-bit frames. -/
def execUart8n1 (row : Nat) (s : State) : Host.Outcome State Fault Refusal := framed row 10 frame8n1 s

/-- UART8O1 (R153): 11-bit frames; a parity mismatch stops decoding like a framing error. -/
def execUart8o1 (row : Nat) (s : State) : Host.Outcome State Fault Refusal := framed row 11 frame8o1 s

/-- NIB4B1S (R156): 5-bit groups, one nibble to a byte of OUT. -/
def execNib4b1s (row : Nat) (s : State) : Host.Outcome State Fault Refusal := framed row 5 frame4b1s s

/-- Whether a symbol stands at the front of the remaining bits: `match` of R159. A symbol of length 0 never does (R158). -/
def stands (w : Word) (rest : List Bool) : Bool := symLen w != 0 && (symBits w).isPrefixOf rest

/-- The decoded bits of SYMBOLS (R159): zero is tried before one before sync; a sync before any data bit is skipped, a sync after
one ends decoding, as does a position where nothing stands. Every turn consumes a bit, so `turns` is the length of the range. -/
def symbolData (zero one sync : Word) : Nat → Bool → List Bool → List Bool
  | 0, _, _ => []
  | turns + 1, started, rest =>
    if stands zero rest then false :: symbolData zero one sync turns true (rest.drop (symLen zero))
    else if stands one rest then true :: symbolData zero one sync turns true (rest.drop (symLen one))
    else if stands sync rest then
      if started then [] else symbolData zero one sync turns false (rest.drop (symLen sync))
    else []

/-- The check of a symbol word (R158, R159): a length field above 27 raises ERR_OPERAND. -/
def symbolCheck (w : Word) : Check := ⟨decide (27 < symLen w), .operand⟩

/-- SYMBOLS (R159): symbol words in A[2] (zero), A[3] (one), A[4] (sync). -/
def execSymbols (row : Nat) (s : State) : Host.Outcome State Fault Refusal :=
  rowCommand row
    (fun s => [symbolCheck (s.opnd 2), symbolCheck (s.opnd 3), symbolCheck (s.opnd 4),
      rangeCheck (s.opndNat 0 + s.opndNat 1) (s.rowLen row)])
    (fun s =>
      let data := symbolData (s.opnd 2) (s.opnd 3) (s.opnd 4) (s.opndNat 1) false
        (s.rowRun row (s.opndNat 0) (s.opndNat 1))
      (s.deliverBits data).complete (BitVec.ofNat 32 data.length) 0) s

end Sys2Proof.Machine
end

