-- ==== Sys2Proof/Machine/InvertReflect.lean ====
section
/-! DEFINITION. Inversion and bit reflection: INVERT, REV8, REFL4 (spec/41_invert_reflect.md R120 to R122). -/

namespace Sys2Proof.Machine

/-- The valid bits of byte i of a row of `len` bits: the bits `8 * i + j < len`, in buffer order (R35). -/
def validBits (len i : Nat) : Byte := byteOf fun j => decide (8 * i + j < len)

/-- The bytes of row r that hold a valid bit, every valid bit complemented, every pad bit kept (R120). -/
def State.invertedRow (s : State) (r : Nat) : List Byte :=
  (List.range (ceil8 (s.rowLen r))).map fun i => s.bufByte (.row r) i ^^^ validBits (s.rowLen r) i

/-- The rows `0 .. n-1` inverted, in order (R120). -/
def State.invertRows (s : State) (n : Nat) : State :=
  (List.range n).foldl (fun t r => t.storeRun (.row r) 0 (t.invertedRow r)) s

/-- INVERT (R120): every valid bit of every valid row complemented in place. Its checks are steps 2 and 4 of R263 in its own form:
NROWS, then BITS of every valid row, all before any row is changed. -/
def execInvert (s : State) : Host.Outcome State Fault Refusal :=
  command
    [⟨decide (Config.numRows < s.nrows.toNat), .config⟩,
     ⟨(List.range Config.numRows).any fun r =>
        decide (r < s.nrows.toNat) && decide (Config.rowBits < s.rowLen r), .config⟩]
    (fun s => (s.invertRows s.nrows.toNat).complete 0 0) s

/-- REV8 (R121): `R[0] <- zext_32(rev8(A[0][7:0]))`. -/
def execRev8 (s : State) : Host.Outcome State Fault Refusal :=
  scalar (fun b => (reflect b).setWidth 32) s

/-- REFL4 (R122): `R[0] <- zext_32(refl4(A[0][7:0]))`. -/
def execRefl4 (s : State) : Host.Outcome State Fault Refusal :=
  scalar (fun b => (reflectNibbles b).setWidth 32) s

end Sys2Proof.Machine
end

