-- ==== Sys2Proof/Machine/LfsrDigest.lean ====
section
/-! DEFINITION. LFSR Toeplitz-hash digests: LFSR8, LFSR8REV, LFSR8RFL, LFSR16 (spec/46_lfsr_digest.md R220 to R226). -/

namespace Sys2Proof.Machine

/-- `roll_right(W, key, gen)` (R226): a 1 that falls off bit 0 brings the generator in. -/
def rollRight {w : Nat} (gen key : BitVec w) : BitVec w :=
  if key.getLsbD 0 then (key >>> 1) ^^^ gen else key >>> 1

/-- `roll_left(W, key, gen)` (R226): a 1 that falls off the top bit brings the generator in. -/
def rollLeft {w : Nat} (gen key : BitVec w) : BitVec w :=
  if key.msb then (key <<< 1) ^^^ gen else key <<< 1

/-- The digest of a bit string (R225): a 1 bit XORs the current key into the accumulator, which starts at 0; the key is rolled
after each bit, whether the bit was 0 or 1. -/
def digestBits {w : Nat} (roll : BitVec w → BitVec w) : BitVec w → BitVec w → List Bool → BitVec w
  | sum, _, [] => sum
  | sum, key, b :: rest => digestBits roll (if b then sum ^^^ key else sum) (roll key) rest

/-- LFSR8 (R220): bytes first to last, bits most significant first, key rolling right. -/
def lfsr8 (msg : List Byte) (gen key : BitVec 8) : BitVec 8 :=
  digestBits (rollRight gen) 0 key (msg.flatMap msbFirst)

/-- LFSR8REV (R221): bytes last to first, bits most significant first, key rolling right. -/
def lfsr8rev (msg : List Byte) (gen key : BitVec 8) : BitVec 8 :=
  digestBits (rollRight gen) 0 key (msg.reverse.flatMap msbFirst)

/-- LFSR8RFL (R222): bytes last to first, bits least significant first, key rolling left. -/
def lfsr8rfl (msg : List Byte) (gen key : BitVec 8) : BitVec 8 :=
  digestBits (rollLeft gen) 0 key (msg.reverse.flatMap lsbFirst)

/-- LFSR16 (R223): as LFSR8 with a 16-bit key and accumulator. -/
def lfsr16 (msg : List Byte) (gen key : BitVec 16) : BitVec 16 :=
  digestBits (rollRight gen) 0 key (msg.flatMap msbFirst)

/-- The value of an 8-bit digest: generator A[2], key A[3], low 8 bits of each (R224). -/
def digest8Value (digest : List Byte → BitVec 8 → BitVec 8 → BitVec 8) (s : State) (msg : List Byte) : Word :=
  (digest msg (s.opndLow 8 2) (s.opndLow 8 3)).setWidth 32

/-- The value of LFSR16: generator A[2], key A[3], low 16 bits of each (R224). -/
def lfsr16Value (s : State) (msg : List Byte) : Word :=
  (lfsr16 msg (s.opndLow 16 2) (s.opndLow 16 3)).setWidth 32

/-- LFSR8 of a row (R220). -/
def execLfsr8 (row : Nat) (s : State) : Host.Outcome State Fault Refusal := checksum (.row row) (digest8Value lfsr8) s

/-- LFSR8 of OUT (R220). -/
def execLfsr8Out (s : State) : Host.Outcome State Fault Refusal := checksum .out (digest8Value lfsr8) s

/-- LFSR8REV of a row (R221). -/
def execLfsr8rev (row : Nat) (s : State) : Host.Outcome State Fault Refusal := checksum (.row row) (digest8Value lfsr8rev) s

/-- LFSR8REV of OUT (R221). -/
def execLfsr8revOut (s : State) : Host.Outcome State Fault Refusal := checksum .out (digest8Value lfsr8rev) s

/-- LFSR8RFL of a row (R222). -/
def execLfsr8rfl (row : Nat) (s : State) : Host.Outcome State Fault Refusal := checksum (.row row) (digest8Value lfsr8rfl) s

/-- LFSR8RFL of OUT (R222). -/
def execLfsr8rflOut (s : State) : Host.Outcome State Fault Refusal := checksum .out (digest8Value lfsr8rfl) s

/-- LFSR16 of a row (R223). -/
def execLfsr16 (row : Nat) (s : State) : Host.Outcome State Fault Refusal := checksum (.row row) lfsr16Value s

/-- LFSR16 of OUT (R223). -/
def execLfsr16Out (s : State) : Host.Outcome State Fault Refusal := checksum .out lfsr16Value s

end Sys2Proof.Machine
end

