-- ==== Sys2Proof/Machine/Manchester.lean ====
section
/-! DEFINITION. Manchester and differential-Manchester decoders: MANCH, DMANCH (spec/42_manchester.md R130 to R136). A cell is
two consecutive source bits; the decoders read the row from the start offset to its end, cell by cell. -/

namespace Sys2Proof.Machine

/-- The decoded bits of MANCH (R131): at most `max` cells; an invalid pair (`00`, `11`) or the end of the row stops, not
consumed. CONV = 0: `01` is 1 and `10` is 0; CONV = 1 the inverse (R74). -/
def manchCells (conv : Bool) : Nat → List Bool → List Bool
  | max + 1, a :: b :: rest => if a = b then [] else (b ^^ conv) :: manchCells conv max rest
  | _, _ => []

/-- The decoded bits of DMANCH (R135, R136): halves equal is 1, halves different is 0. From the second cell on, a cell that starts
at the level the previous cell ended on (`prev`) lacks its clock edge and stops the decoder, not consumed. -/
def dmanchCells : Nat → Option Bool → List Bool → List Bool
  | max + 1, prev, a :: b :: rest => if prev = some a then [] else (a == b) :: dmanchCells max (some b) rest
  | _, _, _ => []

/-- The source bits of a decoder that runs to the end of the row: those from bit `start` on. -/
def State.rowTail (s : State) (r start : Nat) : List Bool := s.rowRun r start (s.rowLen r - start)

/-- What both decoders leave (R131, R135): the decoded row in OUT, the source bits consumed in R[0], the decoded bits in R[1].
The bits of `lead` (the zero that ZB reinstates, R133) are counted in OUTBITS only. -/
def State.deliverDecoded (s : State) (lead decoded : List Bool) : State :=
  (s.deliverBits (lead ++ decoded)).complete (BitVec.ofNat 32 (2 * decoded.length)) (BitVec.ofNat 32 decoded.length)

/-- MANCH (R131, R133): `conv` is CONV, `zb` is ZB. -/
def execManch (row : Nat) (conv zb : Bool) (s : State) : Host.Outcome State Fault Refusal :=
  rowCommand row
    (fun s => [rangeCheck (s.opndNat 0) (s.rowLen row)])
    (fun s => s.deliverDecoded (if zb then [false] else [])
      (manchCells conv (s.opndNat 1) (s.rowTail row (s.opndNat 0)))) s

/-- DMANCH (R135): the first cell is taken as found, with no look at the bit before the start. -/
def execDmanch (row : Nat) (s : State) : Host.Outcome State Fault Refusal :=
  rowCommand row
    (fun s => [rangeCheck (s.opndNat 0) (s.rowLen row)])
    (fun s => s.deliverDecoded [] (dmanchCells (s.opndNat 1) none (s.rowTail row (s.opndNat 0)))) s

end Sys2Proof.Machine
end

