-- ==== Sys2Proof/Machine/ParitySum.lean ====
section
/-! DEFINITION. Parity, XOR fold and additive sums: PARITY8, PARITYB, XORB, ADDB, ADDN (spec/47_parity_sum.md R240 to R245). -/

namespace Sys2Proof.Machine

/-- PARITYB (R241): the XOR of the bytes' parities. -/
def parityBytes (msg : List Byte) : Bool := msg.foldl (fun acc b => acc ^^ parity8 b) false

/-- XORB (R242): the bytes folded by XOR from 0x00. -/
def xorBytes (msg : List Byte) : Byte := msg.foldl (· ^^^ ·) 0

/-- ADDB (R243): the sum of the bytes as unsigned numbers, not reduced. -/
def addBytes (msg : List Byte) : Nat := msg.foldl (fun sum b => sum + b.toNat) 0

/-- ADDN (R244): the sum of both nibbles of every byte, not reduced. -/
def addNibbles (msg : List Byte) : Nat :=
  msg.foldl (fun sum b => sum + (b.extractLsb' 4 4).toNat + (b.extractLsb' 0 4).toNat) 0

/-- PARITY8 (R240): `R[0] <- parity8(A[0][7:0])`. -/
def execParity8 (s : State) : Host.Outcome State Fault Refusal := scalar (fun b => wordOfBool (parity8 b)) s

/-- PARITYB of a row (R241). -/
def execParityb (row : Nat) (s : State) : Host.Outcome State Fault Refusal :=
  checksum (.row row) (fun _ msg => wordOfBool (parityBytes msg)) s

/-- PARITYB of OUT (R241). -/
def execParitybOut (s : State) : Host.Outcome State Fault Refusal :=
  checksum .out (fun _ msg => wordOfBool (parityBytes msg)) s

/-- XORB of a row (R242). -/
def execXorb (row : Nat) (s : State) : Host.Outcome State Fault Refusal :=
  checksum (.row row) (fun _ msg => (xorBytes msg).setWidth 32) s

/-- XORB of OUT (R242). -/
def execXorbOut (s : State) : Host.Outcome State Fault Refusal :=
  checksum .out (fun _ msg => (xorBytes msg).setWidth 32) s

/-- ADDB of a row (R243). The sum fits 32 bits while the extent is in bounds (R243; log entry 6). -/
def execAddb (row : Nat) (s : State) : Host.Outcome State Fault Refusal :=
  checksum (.row row) (fun _ msg => BitVec.ofNat 32 (addBytes msg)) s

/-- ADDB of OUT (R243). -/
def execAddbOut (s : State) : Host.Outcome State Fault Refusal :=
  checksum .out (fun _ msg => BitVec.ofNat 32 (addBytes msg)) s

/-- ADDN of a row (R244). -/
def execAddn (row : Nat) (s : State) : Host.Outcome State Fault Refusal :=
  checksum (.row row) (fun _ msg => BitVec.ofNat 32 (addNibbles msg)) s

/-- ADDN of OUT (R244). -/
def execAddnOut (s : State) : Host.Outcome State Fault Refusal :=
  checksum .out (fun _ msg => BitVec.ofNat 32 (addNibbles msg)) s

end Sys2Proof.Machine
end

