-- ==== Sys2Proof/Machine/SearchExtract.lean ====
section
/-! DEFINITION. BitSearch and BitExtract: SEARCH, EXTRACT, GETBIT, GETBYTE (spec/40_bitsearch_extract.md R100 to R103). -/

namespace Sys2Proof.Machine

/-- Whether the L pattern bits stand in row r from bit p on (R100). -/
def State.patternAt (s : State) (r len p : Nat) : Bool :=
  (List.range len).all fun i => s.rowBit r (p + i) == s.patBit i

/-- The result of SEARCH (R100): the start for an empty pattern; else the lowest `p` with `start <= p`, `p + L <= n` and the
pattern at p; else the sentinel n. -/
def State.searchResult (s : State) (r start len : Nat) : Nat :=
  let n := s.rowLen r
  if len = 0 then start
  else (((List.range (n + 1 - len - start)).map (start + ·)).find? (s.patternAt r len)).getD n

/-- SEARCH (R100): pattern length against the pattern buffer, then the start against the row; not finding is no error. -/
def execSearch (row : Nat) (s : State) : Host.Outcome State Fault Refusal :=
  rowCommand row
    (fun s => [⟨decide (8 * Config.patBytes < s.opndNat 1), .operand⟩, rangeCheck (s.opndNat 0) (s.rowLen row)])
    (fun s => s.complete (BitVec.ofNat 32 (s.searchResult row (s.opndNat 0) (s.opndNat 1))) 0) s

/-- EXTRACT (R101): bits `A[0] .. A[0] + A[1] - 1` of the row into OUT, left-aligned; R[0] is the payload's length in bytes. -/
def execExtract (row : Nat) (s : State) : Host.Outcome State Fault Refusal :=
  rowCommand row
    (fun s => [rangeCheck (s.opndNat 0 + s.opndNat 1) (s.rowLen row)])
    (fun s => (s.deliverBits (s.rowRun row (s.opndNat 0) (s.opndNat 1))).complete
      (BitVec.ofNat 32 (ceil8 (s.opndNat 1))) 0) s

/-- GETBIT (R102): bit A[0] of the row. -/
def execGetbit (row : Nat) (s : State) : Host.Outcome State Fault Refusal :=
  rowCommand row
    (fun s => [rangeCheck (s.opndNat 0 + 1) (s.rowLen row)])
    (fun s => s.complete (wordOfBool (s.rowBit row (s.opndNat 0))) 0) s

/-- GETBYTE (R103): the eight bits from bit A[0] on, the first of them in bit 7 of the result. -/
def execGetbyte (row : Nat) (s : State) : Host.Outcome State Fault Refusal :=
  rowCommand row
    (fun s => [rangeCheck (s.opndNat 0 + 8) (s.rowLen row)])
    (fun s => s.complete (BitVec.ofNat 32 (val (s.rowRun row (s.opndNat 0) 8))) 0) s

end Sys2Proof.Machine
end

