-- ==== Sys2Proof/Machine/Whitening.lean ====
section
/-! DEFINITION. CCITT/IBM data whitening: WHITEN (spec/44_whitening.md R180, R181, R183). -/

namespace Sys2Proof.Machine

/-- One step of the 9-bit LFSR of `x^9 + x^5 + 1`: shift right, `st[0] ^ st[5]` enters at bit 8 (R181). -/
def lfsrStep (st : BitVec 9) : BitVec 9 := (st >>> 1) ||| (BitVec.ofBool (st.getLsbD 0 ^^ st.getLsbD 5)).setWidth 9 <<< 8

/-- `step8`: eight steps, one byte's worth (R181). -/
def lfsrStep8 (st : BitVec 9) : BitVec 9 :=
  lfsrStep (lfsrStep (lfsrStep (lfsrStep (lfsrStep (lfsrStep (lfsrStep (lfsrStep st)))))))

/-- `maskbyte`: the low eight bits of the state, bit-reflected when REFL = 1 (R181, R75). -/
def maskByte (st : BitVec 9) (refl : Bool) : Byte :=
  if refl then reflect (st.setWidth 8) else st.setWidth 8

/-- The first `n` mask bytes from a given state on (R180, R181). -/
def maskFrom (refl : Bool) : Nat → BitVec 9 → List Byte
  | 0, _ => []
  | n + 1, st => maskByte st refl :: maskFrom refl n (lfsrStep8 st)

/-- The mask of one WHITEN command: the generator is "started afresh" from 0x1FF on every command (R180, R183). -/
def whitenMask (refl : Bool) (n : Nat) : List Byte := maskFrom refl n 0x1FF

/-- WHITEN on a source buffer (R180): the message bytes XORed with the mask, in place. -/
def whitened (src : Source) (refl : Bool) (s : State) : Host.Outcome State Fault Refusal :=
  byteCommand src
    (fun msg t => (t.storeRun src (t.opndNat 0) (List.zipWith (· ^^^ ·) msg (whitenMask refl msg.length))).complete 0 0) s

/-- WHITEN with SRC = 0 (R180): a row of the bit buffer; BITS is unchanged. -/
def execWhiten (row : Nat) (refl : Bool) (s : State) : Host.Outcome State Fault Refusal := whitened (.row row) refl s

/-- WHITEN with SRC = 1 (R180): OUT; OUTBITS is unchanged. -/
def execWhitenOut (refl : Bool) (s : State) : Host.Outcome State Fault Refusal := whitened .out refl s

end Sys2Proof.Machine
end

