-- ==== Sys2Proof/Machine/Dispatch.lean ====
section
/-! DEFINITION. The meaning of every command (spec/30_encoding.md R73): one arm per constructor. The state it runs on already
holds the command word in CMD (spec/10_state.md R25). -/

namespace Sys2Proof.Machine

open Sys2Proof

def exec (i : Instr) (s : State) : Host.Outcome State Fault Refusal :=
  match i with
  | .search row => Sys2Proof.Machine.execSearch row s
  | .extract row => Sys2Proof.Machine.execExtract row s
  | .getbit row => Sys2Proof.Machine.execGetbit row s
  | .getbyte row => Sys2Proof.Machine.execGetbyte row s
  | .invert => Sys2Proof.Machine.execInvert s
  | .rev8 => Sys2Proof.Machine.execRev8 s
  | .refl4 => Sys2Proof.Machine.execRefl4 s
  | .manch row conv zb => Sys2Proof.Machine.execManch row conv zb s
  | .dmanch row => Sys2Proof.Machine.execDmanch row s
  | .uart8n1 row => Sys2Proof.Machine.execUart8n1 row s
  | .uart8o1 row => Sys2Proof.Machine.execUart8o1 row s
  | .nib4b1s row => Sys2Proof.Machine.execNib4b1s row s
  | .symbols row => Sys2Proof.Machine.execSymbols row s
  | .whiten row refl => Sys2Proof.Machine.execWhiten row refl s
  | .whitenOut refl => Sys2Proof.Machine.execWhitenOut refl s
  | .crc4 row => Sys2Proof.Machine.execCrc4 row s
  | .crc4Out => Sys2Proof.Machine.execCrc4Out s
  | .crc7 row => Sys2Proof.Machine.execCrc7 row s
  | .crc7Out => Sys2Proof.Machine.execCrc7Out s
  | .crc8 row => Sys2Proof.Machine.execCrc8 row s
  | .crc8Out => Sys2Proof.Machine.execCrc8Out s
  | .crc8le row => Sys2Proof.Machine.execCrc8le row s
  | .crc8leOut => Sys2Proof.Machine.execCrc8leOut s
  | .crc16 row => Sys2Proof.Machine.execCrc16 row s
  | .crc16Out => Sys2Proof.Machine.execCrc16Out s
  | .crc16lsb row => Sys2Proof.Machine.execCrc16lsb row s
  | .crc16lsbOut => Sys2Proof.Machine.execCrc16lsbOut s
  | .lfsr8 row => Sys2Proof.Machine.execLfsr8 row s
  | .lfsr8Out => Sys2Proof.Machine.execLfsr8Out s
  | .lfsr8rev row => Sys2Proof.Machine.execLfsr8rev row s
  | .lfsr8revOut => Sys2Proof.Machine.execLfsr8revOut s
  | .lfsr8rfl row => Sys2Proof.Machine.execLfsr8rfl row s
  | .lfsr8rflOut => Sys2Proof.Machine.execLfsr8rflOut s
  | .lfsr16 row => Sys2Proof.Machine.execLfsr16 row s
  | .lfsr16Out => Sys2Proof.Machine.execLfsr16Out s
  | .parity8 => Sys2Proof.Machine.execParity8 s
  | .parityb row => Sys2Proof.Machine.execParityb row s
  | .paritybOut => Sys2Proof.Machine.execParitybOut s
  | .xorb row => Sys2Proof.Machine.execXorb row s
  | .xorbOut => Sys2Proof.Machine.execXorbOut s
  | .addb row => Sys2Proof.Machine.execAddb row s
  | .addbOut => Sys2Proof.Machine.execAddbOut s
  | .addn row => Sys2Proof.Machine.execAddn row s
  | .addnOut => Sys2Proof.Machine.execAddnOut s

end Sys2Proof.Machine
end

