-- ==== Sys2Proof/Machine/Window.lean ====
section
/-! DEFINITION. The host's view of the BDU: the address window (spec/20_memory.md R57), the registers in it and the host's
rights (R56). Accesses themselves are in HostAccess.lean. -/

namespace Sys2Proof.Machine

/-- The registers the host can name (R82). -/
inductive Reg where
  | cmd
  | status
  | opnd (i : Fin 5)
  | r0
  | r1
  | nrows
  | outbits
  | bits (r : Fin Config.numRows)
deriving DecidableEq, Repr

/-- What a byte offset of the window belongs to (R57). -/
inductive Place where
  | register (r : Reg)
  | pat
  | out
  | rows
  | reserved
deriving DecidableEq, Repr

/-- The offset of a register's least significant byte (R57). -/
def Reg.offset : Reg → Nat
  | .cmd => Config.cmdOffset
  | .status => Config.statusOffset
  | .opnd i => Config.opndOffset + 4 * i.val
  | .r0 => Config.r0Offset
  | .r1 => Config.r1Offset
  | .nrows => Config.nrowsOffset
  | .outbits => Config.outbitsOffset
  | .bits r => Config.bitsOffset + 4 * r.val

/-- Whether an offset lies in a run of `size` offsets from `base` on. -/
def inRun (base size off : Nat) : Bool := decide (base ≤ off) && decide (off < base + size)

/-- The address window of R57: "Offsets not in the table are reserved". -/
def placeAt (off : Nat) : Place :=
  if inRun Config.cmdOffset 4 off then .register .cmd
  else if inRun Config.statusOffset 4 off then .register .status
  else if inRun Config.opndOffset (4 * 5) off then .register (.opnd (Fin.ofNat 5 ((off - Config.opndOffset) / 4)))
  else if inRun Config.r0Offset 4 off then .register .r0
  else if inRun Config.r1Offset 4 off then .register .r1
  else if inRun Config.nrowsOffset 4 off then .register .nrows
  else if inRun Config.outbitsOffset 4 off then .register .outbits
  else if inRun Config.patBase Config.patBytes off then .pat
  else if inRun Config.bitsOffset (4 * Config.numRows) off then
    .register (.bits ⟨(off - Config.bitsOffset) / 4 % Config.numRows, Nat.mod_lt _ (by decide)⟩)
  else if inRun Config.outBase Config.outBytes off then .out
  else if inRun Config.rowBase (Config.rowBytes * Config.numRows) off then .rows
  else .reserved

/-- Whether an offset holds a byte of BB, PAT or OUT (R50, R57). -/
def isBuffer (off : Nat) : Bool :=
  match placeAt off with
  | .pat => true
  | .out => true
  | .rows => true
  | _ => false

/-- What the host reads from a register (R56): its value; the reserved bits of STATUS read as 0 (R26). -/
def State.readReg (s : State) : Reg → Word
  | .cmd => s.cmd
  | .status => statusRead s.status
  | .opnd i => s.a[i]
  | .r0 => s.r0
  | .r1 => s.r1
  | .nrows => s.nrows
  | .outbits => s.outbits
  | .bits r => s.bits[r]

/-- What a host write to a register other than CMD does (R56): A, NROWS and BITS store all 32 bits (R21, R27, R28), STATUS lets bit 8
clear STICKY (R26), R and OUTBITS ignore the write (R22, R29). For CMD it is the storing half of the write (R25). -/
def State.writeReg (s : State) : Reg → Word → State
  | .cmd, v => { s with cmd := v }
  | .status, v => { s with status := statusWritten v s.status }
  | .opnd i, v => { s with a := s.a.set i v }
  | .r0, _ => s
  | .r1, _ => s
  | .nrows, v => { s with nrows := v }
  | .outbits, _ => s
  | .bits r, v => { s with bits := s.bits.set r v }

/-- A host byte write to a buffer that the host may write, PAT or BB (R56). -/
def State.writeMem (s : State) (off : Nat) (v : Byte) : State :=
  { s with mem := Memory.write s.mem off v }

/-- A host read returns its value to the host (R57) and changes nothing of the BDU: "Reads have no side effects" (R58). -/
def State.returning (s : State) (v : Word) : State :=
  { s with readData := v }

/-- The platform's reset, applied between host actions (R290): every piece of the BDU's state is zero (R36). The host's own
side, the actions to come and the value it last read, is not the BDU's and stays. -/
def State.platformReset (s : State) : State :=
  { State.reset with pending := s.pending, readData := s.readData }

end Sys2Proof.Machine
end

