-- ==== Sys2Proof/Machine/HostAccess.lean ====
section
/-! DEFINITION. The host's accesses through the window (spec/20_memory.md R57, R58, R60), among them the write to CMD that runs a
command (spec/10_state.md R25), and the carrying out of one host action (spec/30_encoding.md R82). -/

namespace Sys2Proof.Machine

/-- A host write of a word to CMD (R25, R60): the word is stored, legal or not, and its command runs to completion before the write
completes. An illegal word raises ERR_ILLEGAL and does nothing else (R78). -/
def writeCommand (w : Word) (s : State) : Host.Outcome State Fault Refusal :=
  match decodeWord w with
  | .ok i => exec i (s.writeReg .cmd w)
  | .error _ => .next ((s.writeReg .cmd w).takeError .illegal)

/-- A 32-bit host write (R57, R58): registers only, aligned only; a reserved offset ignores it; a buffer or a misaligned word is
refused (U9). -/
def hostWriteWord (off : Nat) (v : Word) (s : State) : Host.Outcome State Fault Refusal :=
  if off % 4 = 0 then
    match placeAt off with
    | .register .cmd => writeCommand v s
    | .register r => .next (s.writeReg r v)
    | .reserved => .next s
    | _ => .refused (.accessWidth off)
  else .refused (.accessWidth off)

/-- An 8-bit host write (R57, R58): PAT and BB take it, OUT and a reserved offset ignore it (R56); a register refuses it (U9). -/
def hostWriteByte (off : Nat) (v : Byte) (s : State) : Host.Outcome State Fault Refusal :=
  match placeAt off with
  | .pat => .next (s.writeMem off v)
  | .rows => .next (s.writeMem off v)
  | .out => .next s
  | .reserved => .next s
  | .register _ => .refused (.accessWidth off)

/-- A 32-bit host read (R57, R58): registers only, aligned only; a reserved offset reads 0; a buffer or a misaligned word is
refused (U9). -/
def hostReadWord (off : Nat) (s : State) : Host.Outcome State Fault Refusal :=
  if off % 4 = 0 then
    match placeAt off with
    | .register r => .next (s.returning (s.readReg r))
    | .reserved => .next (s.returning 0)
    | _ => .refused (.accessWidth off)
  else .refused (.accessWidth off)

/-- An 8-bit host read (R57, R58): any buffer byte; a reserved offset reads 0; a register refuses it (U9). -/
def hostReadByte (off : Nat) (s : State) : Host.Outcome State Fault Refusal :=
  match placeAt off with
  | .reserved => .next (s.returning 0)
  | .register _ => .refused (.accessWidth off)
  | _ => .next (s.returning ((Memory.read s.mem off).setWidth 32))

/-- Carry out one action from outside (R57, R82, R290). A half-word access is outside the spec everywhere (R58, U9). -/
def perform : HostAction → State → Host.Outcome State Fault Refusal
  | .readByte off, s => hostReadByte off s
  | .readHalf off, _ => .refused (.accessWidth off)
  | .readWord off, s => hostReadWord off s
  | .writeByte off v, s => hostWriteByte off v s
  | .writeHalf off _, _ => .refused (.accessWidth off)
  | .writeWord off v, s => hostWriteWord off v s
  | .reset, s => .next s.platformReset

/-- The state with its first waiting host action taken off the list. -/
def State.advance (s : State) : State := { s with pending := s.pending.tail }

/-- One step of the machine: the next host action is carried out; with none waiting the BDU "waits for host accesses and does
nothing of itself" (R290). -/
def stepHost (s : State) : Host.Outcome State Fault Refusal :=
  match s.pending.head? with
  | some act => perform act s.advance
  | none => .next s

/-- The state with a write of the command word in the low `nbits` bits of `w` (bits above are 0) put before the host actions
that wait. -/
def State.withCommandWord (s : State) (nbits w : Nat) : State :=
  { s with pending := .writeWord Config.cmdOffset (BitVec.ofNat 32 (w % 2 ^ nbits)) :: s.pending }

end Sys2Proof.Machine
end

