-- ==== Sys2Proof/Machine/Step.lean ====
section
/-! DEFINITION. The machine's step, and where the next command comes from (log entries 2 and 3). -/

namespace Sys2Proof.Machine

/-- One step: the next waiting host action, or nothing when none waits (`stepHost`). -/
def step (s : State) : Host.Outcome State Fault Refusal := stepHost s

/-- s with a host write of the given command word to CMD as the next host action, so that the next step runs that command. The BDU
fetches nothing (spec/10_state.md R24): its next command is the next word the host writes to CMD. -/
def State.withFetchWord (s : State) (nbits w : Nat) : State := s.withCommandWord nbits w

end Sys2Proof.Machine
end

