-- ==== Sys2Proof/Machine/Program.lean ====
section
/-! DEFINITION. The program notation of spec/30_encoding.md: host actions by register and buffer name (R82), commands as writes of
their word to CMD (R81, R82), and the pseudo-actions with their expansions (R83). What the notation
means outside the values R81 to R83 give it (an index past a buffer's end, a row of too few bytes) is the model's choice (log entry
13). -/

namespace Sys2Proof.Machine

/-- `wr <register>, <value>` (R82). -/
def wr (r : Reg) (v : Word) : HostAction := .writeWord r.offset v

/-- `rd <register>` (R82). -/
def rd (r : Reg) : HostAction := .readWord r.offset

/-- `wrb PAT[<i>], <byte>` (R82). DESIGN CHOICE for i >= P_PAT_BYTES, which the spec leaves open: the offset runs on past PAT in the
window (log entry 13). -/
def wrbPat (i : Nat) (v : Byte) : HostAction := .writeByte (Config.patBase + i) v

/-- `wrb BB[<r>][<i>], <byte>` (R82, R57). DESIGN CHOICE for i >= P_ROW_BYTES, which the spec leaves open: the offset runs on into the
next row, and after the last row into reserved offsets (log entry 13). -/
def wrbRow (r i : Nat) (v : Byte) : HostAction := .writeByte ((Source.row r).base + i) v

/-- `rdb PAT[<i>]` (R82). DESIGN CHOICE for i >= P_PAT_BYTES, as for `wrbPat` (log entry 13). -/
def rdbPat (i : Nat) : HostAction := .readByte (Config.patBase + i)

/-- `rdb OUT[<i>]` (R82). DESIGN CHOICE for i >= P_OUT_BYTES, which the spec leaves open: the offset runs on past OUT in the window
(log entry 13). -/
def rdbOut (i : Nat) : HostAction := .readByte (Config.outBase + i)

/-- `rdb BB[<r>][<i>]` (R82). DESIGN CHOICE for i >= P_ROW_BYTES, as for `wrbRow` (log entry 13). -/
def rdbRow (r i : Nat) : HostAction := .readByte ((Source.row r).base + i)

/-- `<command>`: shorthand for `wr CMD, <word of the command>` (R82). DESIGN CHOICE for a row number above 31: see `encode` (log entry
13). -/
def issue (i : Instr) : HostAction := wr .cmd (encode i)

/-- `args v0, v1, ...` (R83): the operand registers not named are left as they are. R83 writes at most five values; DESIGN CHOICE:
any after the fifth are dropped (log entry 13). -/
def argsProg (vs : List Word) : List HostAction :=
  ((List.finRange 5).zip vs).map fun p => wr (.opnd p.1) p.2

/-- `row r, nbits, b0 b1 ...` (R83): bytes of the row beyond those given are left as they are. DESIGN CHOICE
for more than P_ROW_BYTES bytes: those beyond go where `wrbRow` puts them (log entry 13). DESIGN CHOICE for fewer than `ceil8(nbits)`
bytes, which R83 does not provide for: the row is expanded all the same, BITS[r] takes nbits, and the valid bytes not given keep
their earlier values (log entry 13). -/
def rowProg (r : Fin Config.numRows) (nbits : Word) (bytes : List Byte) : List HostAction :=
  wr (.bits r) nbits :: bytes.zipIdx.map fun p => wrbRow r.val p.2 p.1

/-- `nrows n` (R83). -/
def nrowsProg (n : Word) : List HostAction := [wr .nrows n]

/-- `pat b0 b1 ...` (R83). DESIGN CHOICE for more than P_PAT_BYTES bytes: those beyond go where `wrbPat` puts them (log entry 13). -/
def patProg (bytes : List Byte) : List HostAction := bytes.zipIdx.map fun p => wrbPat p.2 p.1

/-- `clrsticky` (R83). -/
def clrstickyProg : List HostAction := [wr .status 0x00000100#32]

/-- `copyout r` (R83), as a host carries it out from state s: each byte of the payload is read from OUT and written to the row, then
OUTBITS is read and written to BITS[r]. "This is host work: the BDU has no copy command." DESIGN CHOICE for a payload of
more than P_ROW_BYTES bytes, which NIB4B1S can make: the bytes beyond go where `wrbRow` puts them (log entry 13). -/
def copyoutProg (r : Fin Config.numRows) (s : State) : List HostAction :=
  ((List.range (s.extent .out)).flatMap fun i => [rdbOut i, wrbRow r.val i (s.bufByte .out i)]) ++
    [rd .outbits, wr (.bits r) s.outbits]

end Sys2Proof.Machine
end

