-- ==== Sys2Proof/Safety.lean ====
section
/-! DEFINITION. The terms the statements use: when a command's checks pass, the classes of commands, the invariant every step keeps,
the bits of OUT, and the symbol grammar of SYMBOLS without a turn counter. -/

namespace Sys2Proof

/-- The source buffer of a byte-addressed command (spec/30_encoding.md R72); `none` for the other classes. -/
def Instr.byteSource : Instr → Option Machine.Source
  | .search _ => none
  | .extract _ => none
  | .getbit _ => none
  | .getbyte _ => none
  | .invert => none
  | .rev8 => none
  | .refl4 => none
  | .manch _ _ _ => none
  | .dmanch _ => none
  | .uart8n1 _ => none
  | .uart8o1 _ => none
  | .nib4b1s _ => none
  | .symbols _ => none
  | .whiten row _ => some (.row row)
  | .whitenOut _ => some .out
  | .crc4 row => some (.row row)
  | .crc4Out => some .out
  | .crc7 row => some (.row row)
  | .crc7Out => some .out
  | .crc8 row => some (.row row)
  | .crc8Out => some .out
  | .crc8le row => some (.row row)
  | .crc8leOut => some .out
  | .crc16 row => some (.row row)
  | .crc16Out => some .out
  | .crc16lsb row => some (.row row)
  | .crc16lsbOut => some .out
  | .lfsr8 row => some (.row row)
  | .lfsr8Out => some .out
  | .lfsr8rev row => some (.row row)
  | .lfsr8revOut => some .out
  | .lfsr8rfl row => some (.row row)
  | .lfsr8rflOut => some .out
  | .lfsr16 row => some (.row row)
  | .lfsr16Out => some .out
  | .parity8 => none
  | .parityb row => some (.row row)
  | .paritybOut => some .out
  | .xorb row => some (.row row)
  | .xorbOut => some .out
  | .addb row => some (.row row)
  | .addbOut => some .out
  | .addn row => some (.row row)
  | .addnOut => some .out

/-- Whether a command replaces the payload in OUT (spec/20_memory.md R55). -/
def Instr.writesPayload : Instr → Bool
  | .search _ => false
  | .extract _ => true
  | .getbit _ => false
  | .getbyte _ => false
  | .invert => false
  | .rev8 => false
  | .refl4 => false
  | .manch _ _ _ => true
  | .dmanch _ => true
  | .uart8n1 _ => true
  | .uart8o1 _ => true
  | .nib4b1s _ => true
  | .symbols _ => true
  | .whiten _ _ => false
  | .whitenOut _ => false
  | .crc4 _ => false
  | .crc4Out => false
  | .crc7 _ => false
  | .crc7Out => false
  | .crc8 _ => false
  | .crc8Out => false
  | .crc8le _ => false
  | .crc8leOut => false
  | .crc16 _ => false
  | .crc16Out => false
  | .crc16lsb _ => false
  | .crc16lsbOut => false
  | .lfsr8 _ => false
  | .lfsr8Out => false
  | .lfsr8rev _ => false
  | .lfsr8revOut => false
  | .lfsr8rfl _ => false
  | .lfsr8rflOut => false
  | .lfsr16 _ => false
  | .lfsr16Out => false
  | .parity8 => false
  | .parityb _ => false
  | .paritybOut => false
  | .xorb _ => false
  | .xorbOut => false
  | .addb _ => false
  | .addbOut => false
  | .addn _ => false
  | .addnOut => false

/-- Whether a command changes buffer bytes in place: INVERT and WHITEN (spec/70_reset_and_hazards.md R297). -/
def Instr.mutatesInPlace : Instr → Bool
  | .search _ => false
  | .extract _ => false
  | .getbit _ => false
  | .getbyte _ => false
  | .invert => true
  | .rev8 => false
  | .refl4 => false
  | .manch _ _ _ => false
  | .dmanch _ => false
  | .uart8n1 _ => false
  | .uart8o1 _ => false
  | .nib4b1s _ => false
  | .symbols _ => false
  | .whiten _ _ => true
  | .whitenOut _ => true
  | .crc4 _ => false
  | .crc4Out => false
  | .crc7 _ => false
  | .crc7Out => false
  | .crc8 _ => false
  | .crc8Out => false
  | .crc8le _ => false
  | .crc8leOut => false
  | .crc16 _ => false
  | .crc16Out => false
  | .crc16lsb _ => false
  | .crc16lsbOut => false
  | .lfsr8 _ => false
  | .lfsr8Out => false
  | .lfsr8rev _ => false
  | .lfsr8revOut => false
  | .lfsr8rfl _ => false
  | .lfsr8rflOut => false
  | .lfsr16 _ => false
  | .lfsr16Out => false
  | .parity8 => false
  | .parityb _ => false
  | .paritybOut => false
  | .xorb _ => false
  | .xorbOut => false
  | .addb _ => false
  | .addbOut => false
  | .addn _ => false
  | .addnOut => false

/-- The errors a command can raise once its word is decoded: the table of spec/60_exceptions.md R275 without its column ILLEGAL,
which is the decoder's. -/
def Instr.tabledErrors (i : Instr) : List Machine.ErrCode :=
  (if i.namedRow.isSome || i == .invert then [.config] else []) ++
  (if i.namedRow.isSome then [.row] else []) ++
  (if i.namedRow.isSome || i.byteSource.isSome then [.range] else []) ++
  (if i.mnemonic == "SEARCH" || i.mnemonic == "SYMBOLS" then [.operand] else [])

namespace Machine

/-- Steps 2 to 4 of spec/60_exceptions.md R263 pass for row r. -/
def State.rowReady (s : State) (r : Nat) : Bool :=
  decide (s.nrows.toNat ≤ Config.numRows) && decide (r < s.nrows.toNat) && decide (s.rowLen r ≤ Config.rowBits)

/-- The common checks of R263 pass for a source buffer: those of its row, none for OUT. -/
def State.sourceReady (s : State) : Source → Bool
  | .row r => s.rowReady r
  | .out => true

/-- The run `A[0] .. A[0] + A[1] - 1` lies inside the valid extent (spec/20_memory.md R54). -/
def State.runFits (s : State) (src : Source) : Bool := decide (s.opndNat 0 + s.opndNat 1 ≤ s.extent src)

/-- The checks of INVERT pass (spec/41_invert_reflect.md R120): NROWS, and BITS of every valid row, are in bounds. -/
def State.allRowsReady (s : State) : Bool :=
  decide (s.nrows.toNat ≤ Config.numRows) &&
    (List.range Config.numRows).all fun r => decide (s.nrows.toNat ≤ r) || decide (s.rowLen r ≤ Config.rowBits)

/-- STATUS holds what spec/10_state.md R26 allows: reserved bits 0, and ERR one of the codes 0..5. -/
def statusLegal (status : Word) : Bool := status &&& ~~~statusMask == 0 && decide ((errOf status).toNat ≤ 5)

/-- The invariant of the BDU: the memory is in canonical form and lists buffer bytes only (spec/20_memory.md R50), OUTBITS is at
most 8 * P_OUT_BYTES (spec/10_state.md R29), STATUS is legal (R26). -/
def State.inv (s : State) : Bool :=
  Memory.wf s.mem && s.mem.all (fun cell => isBuffer cell.1) &&
    decide (s.outbits.toNat ≤ 8 * Config.outBytes) && statusLegal s.status

/-- `bit(OUT, k)` (spec/00_scope.md R9). -/
def State.outBit (s : State) (k : Nat) : Bool := bitAt (s.bufByte .out (k / 8)) k

/-- Every byte outside OUT reads in t as it reads in s. -/
def sameOutsideOut (s t : State) : Prop :=
  ∀ off, inRun Config.outBase Config.outBytes off = false → Memory.read t.mem off = Memory.read s.mem off

/-- One reading of a bit run by spec/43_framing_decoders.md R159, as a relation and so without a bound on turns: `started` says
whether a data bit has been decoded, `rest` is what remains of the range, `data` what it decodes to. -/
inductive SymbolReading (zero one sync : Word) : Bool → List Bool → List Bool → Prop where
  /-- "if match(Z, pos, rem)": a data bit 0. -/
  | zero {started rest data} : stands zero rest = true →
      SymbolReading zero one sync true (rest.drop (symLen zero)) data →
      SymbolReading zero one sync started rest (false :: data)
  /-- "else if match(O, pos, rem)": a data bit 1. -/
  | one {started rest data} : stands zero rest = false → stands one rest = true →
      SymbolReading zero one sync true (rest.drop (symLen one)) data →
      SymbolReading zero one sync started rest (true :: data)
  /-- "sync before any data ('at the very start'): skipped". -/
  | skip {rest data} : stands zero rest = false → stands one rest = false → stands sync rest = true →
      SymbolReading zero one sync false (rest.drop (symLen sync)) data →
      SymbolReading zero one sync false rest data
  /-- "sync after data: end of frame, success". -/
  | finish {rest} : stands zero rest = false → stands one rest = false → stands sync rest = true →
      SymbolReading zero one sync true rest []
  /-- "else: break -- no symbol stands here: stop"; also the end of the range, where none can stand. -/
  | stop {started rest} : stands zero rest = false → stands one rest = false → stands sync rest = false →
      SymbolReading zero one sync started rest []

end Machine

end Sys2Proof
end

