-- ==== Sys2Proof/Certificates/Slice0/Obligations.lean ====
section
/-! DEFINITION. The statements for the provers, in the order of OBLIGATIONS.json. Each docstring names the rule of spec/ the
statement formalises. -/

open Sys2Proof Sys2Proof.Machine

/-! ### Encoding (spec/30_encoding.md) -/

/-- R71 to R73, R81: the encoder and the decoder agree on every well-formed instruction, as a word and as the bytes of CMD in the
window (R57), whatever bytes follow. -/
def Obligations.DecodeOfEncodeIsIdentity : Prop :=
  ∀ (i : Instr) (rest : List Byte), i.wellFormed = true →
    decodeWord (encode i) = .ok i ∧ decode (wordBytes (encode i) ++ rest) = .ok (i, rest)

/-- R77: every 32-bit word is either exactly one command, the one whose encoding it is and whose table row alone it fits, or
illegal, and then it fits no row. -/
def Obligations.EveryWordIsOneCommandOrIllegal : Prop :=
  ∀ w : Word,
    (∀ i, decodeWord w = .ok i →
      i.wellFormed = true ∧ encode i = w ∧
      ∃ t ∈ commandTable, t.fits w = true ∧ t.mnemonic = i.mnemonic ∧
        ∀ u ∈ commandTable, u.fits w = true → u = t) ∧
    (∀ e, decodeWord w = .error e → ∀ t ∈ commandTable, t.fits w = false)

/-- R78 with R72 and R73: the illegal words are those with a non-zero reserved bit, an unassigned OPC, or a non-zero field
that the operation does not use; and the all-zero word is one of them. -/
def Obligations.IllegalWordsAreTheListedOnes : Prop :=
  decodeWord 0 = .error .unassignedOpcode ∧
  ∀ w : Word,
    (∃ e, decodeWord w = .error e) ↔
      (w &&& 0xFFFCC000#32 ≠ 0) ∨
      opcOf w ∉ [0x10, 0x11, 0x12, 0x13, 0x20, 0x21, 0x22, 0x23, 0x24, 0x25, 0x26, 0x27, 0x28, 0x29, 0x30, 0x31, 0x32, 0x33,
        0x34, 0x35, 0x38, 0x39, 0x3A, 0x3B, 0x40, 0x41, 0x42, 0x43, 0x44] ∨
      (opcOf w ∈ [0x10, 0x11, 0x12, 0x13, 0x24, 0x25, 0x26, 0x27, 0x28] ∧ w &&& 0x00032000#32 ≠ 0) ∨
      (opcOf w = 0x23 ∧ w &&& 0x00002000#32 ≠ 0) ∨
      (opcOf w ∈ [0x30, 0x31, 0x32, 0x33, 0x34, 0x35, 0x38, 0x39, 0x3A, 0x3B, 0x41, 0x42, 0x43, 0x44] ∧
        (w &&& 0x00030000#32 ≠ 0 ∨ (w &&& 0x00002000#32 ≠ 0 ∧ w &&& 0x00001F00#32 ≠ 0))) ∨
      (opcOf w = 0x29 ∧ (w &&& 0x00020000#32 ≠ 0 ∨ (w &&& 0x00002000#32 ≠ 0 ∧ w &&& 0x00001F00#32 ≠ 0))) ∨
      (opcOf w ∈ [0x20, 0x21, 0x22, 0x40] ∧ w &&& 0x0003FF00#32 ≠ 0)

/-- R81: the example words of the command syntax decode to the commands they stand for. -/
def Obligations.ExampleWordsOfTheSyntaxDecode : Prop :=
  decodeWord 0x00000010#32 = .ok (.search 0) ∧ decodeWord 0x00000311#32 = .ok (.extract 3) ∧
  decodeWord 0x00030223#32 = .ok (.manch 2 true true) ∧ decodeWord 0x00002032#32 = .ok .crc8Out ∧
  decodeWord 0x00000132#32 = .ok (.crc8 1) ∧ decodeWord 0x00012029#32 = .ok (.whitenOut true) ∧
  decodeWord 0x00000020#32 = .ok .invert

/-! ### Steps, host accesses, reset (spec/10_state.md, spec/20_memory.md, spec/70_reset_and_hazards.md)

That the host's actions stand in a list `pending`, whose first a step performs, and that a host read leaves its value in `readData`,
is the model's choice of form (log entries 2, 3 and 4); so is each statement about `step` in that respect. -/

/-- R25, R60: when the next host action writes a command word to CMD (offset 0), the step stores the word, takes the action off the
list and is the meaning of the decoded command. -/
def Obligations.WriteToCmdRunsTheDecodedCommand : Prop :=
  ∀ (s : State) (w : Word) (rest : List HostAction) (i : Instr),
    s.pending = .writeWord 0 w :: rest → decodeWord w = .ok i →
    step s = exec i { s with pending := rest, cmd := w }

/-- R78, R25, R261: an illegal word is stored in CMD, raises ERR_ILLEGAL (code 1, STICKY set) and does nothing else. -/
def Obligations.IllegalWordIsStoredAndRaisesErrIllegal : Prop :=
  ∀ (s : State) (w : Word) (rest : List HostAction) (e : Illegal),
    s.pending = .writeWord 0 w :: rest → decodeWord w = .error e →
    ∃ st, step s = .next { s with pending := rest, cmd := w, status := st } ∧
      errOf st = 1 ∧ stickyOf st = true ∧ st &&& ~~~statusMask = s.status &&& ~~~statusMask

/-- R290, R273: with no host action waiting the BDU does nothing of itself. That a step then answers the same state is the model's
choice (log entry 2). -/
def Obligations.IdleBduHoldsItsState : Prop :=
  ∀ s : State, s.pending = [] → step s = .next s

/-- R36: after reset every register is zero and every buffer byte reads 0x00. -/
def Obligations.ResetMakesEveryPieceOfStateZero : Prop :=
  (∀ i : Fin 5, State.reset.a[i] = 0) ∧ State.reset.r0 = 0 ∧ State.reset.r1 = 0 ∧ State.reset.cmd = 0 ∧
    State.reset.status = 0 ∧ State.reset.nrows = 0 ∧ (∀ r : Fin Config.numRows, State.reset.bits[r] = 0) ∧
    State.reset.outbits = 0 ∧ ∀ off, Memory.read State.reset.mem off = 0

/-- R290: the platform's reset, applied between host actions, gives the state after reset. That it leaves the host's own side, the
actions to come and the last value read, is the model's choice (log entries 2, 4 and 11). -/
def Obligations.PlatformResetGivesTheResetState : Prop :=
  ∀ (s : State) (rest : List HostAction), s.pending = .reset :: rest →
    step s = .next { State.reset with pending := rest, readData := s.readData }

/-- R57, R58: what a host read returns at each offset of the window, and that it changes nothing of the BDU. STATUS reads as its ERR
and STICKY fields with every reserved bit 0 (R26). -/
def Obligations.HostReadsReturnTheStateAndChangeNothing : Prop :=
  ∀ (s : State) (rest : List HostAction),
    let reads := fun (act : HostAction) (v : Word) =>
      step { s with pending := act :: rest } = .next { s with pending := rest, readData := v }
    reads (.readWord 0x00) s.cmd ∧
    (∃ v, reads (.readWord 0x04) v ∧ errOf v = errOf s.status ∧ stickyOf v = stickyOf s.status ∧
      v &&& 0xFFFFFEF0#32 = 0) ∧
    (∀ i : Fin 5, reads (.readWord (0x08 + 4 * i.val)) s.a[i]) ∧
    reads (.readWord 0x20) s.r0 ∧ reads (.readWord 0x24) s.r1 ∧
    reads (.readWord 0x28) s.nrows ∧ reads (.readWord 0x2C) s.outbits ∧
    (∀ r : Fin 25, reads (.readWord (0x80 + 4 * r.val)) s.bits[r]) ∧
    (∀ i, i < 16 → reads (.readByte (0x40 + i)) ((Memory.read s.mem (0x40 + i)).setWidth 32)) ∧
    (∀ i, i < 256 → reads (.readByte (0x100 + i)) ((Memory.read s.mem (0x100 + i)).setWidth 32)) ∧
    (∀ r i, r < 25 → i < 128 →
      reads (.readByte (0x1000 + 128 * r + i)) ((Memory.read s.mem (0x1000 + 128 * r + i)).setWidth 32))

/-- R56, R57, R26: the host's write rights. A, NROWS and BITS store all 32 bits; a STATUS write clears STICKY by bit 8 and does
nothing else; writes to R, OUTBITS and OUT are ignored; a byte written to PAT or BB reads back, every other byte as before. -/
def Obligations.HostWritesFollowTheRightsTable : Prop :=
  ∀ (s : State) (rest : List HostAction) (v : Word) (b : Byte),
    let writes := fun (act : HostAction) (t : State) =>
      step { s with pending := act :: rest } = .next { t with pending := rest }
    let stores := fun (off : Nat) =>
      ∃ m, writes (.writeByte off b) { s with mem := m } ∧
        (Memory.wf s.mem = true → Memory.wf m = true ∧ Memory.read m off = b) ∧
        ∀ k, k ≠ off → Memory.read m k = Memory.read s.mem k
    (∀ i : Fin 5, writes (.writeWord (0x08 + 4 * i.val) v) { s with a := s.a.set i v }) ∧
    writes (.writeWord 0x28 v) { s with nrows := v } ∧
    (∀ r : Fin 25, writes (.writeWord (0x80 + 4 * r.val) v) { s with bits := s.bits.set r v }) ∧
    (∃ st, writes (.writeWord 0x04 v) { s with status := st } ∧ stickyOf st = (stickyOf s.status && !stickyOf v) ∧
      ∀ k, k ≠ 8 → st.getLsbD k = s.status.getLsbD k) ∧
    writes (.writeWord 0x20 v) s ∧ writes (.writeWord 0x24 v) s ∧ writes (.writeWord 0x2C v) s ∧
    (∀ i, i < 256 → writes (.writeByte (0x100 + i) b) s) ∧
    (∀ i, i < 16 → stores (0x40 + i)) ∧
    (∀ r i, r < 25 → i < 128 → stores (0x1000 + 128 * r + i))

/-- R57, U7: offsets outside the table of the window read 0 and ignore writes. -/
def Obligations.ReservedOffsetsReadZeroAndIgnoreWrites : Prop :=
  ∀ (s : State) (rest : List HostAction) (off : Nat) (v : Word) (b : Byte),
    (0x1C ≤ off ∧ off < 0x20) ∨ (0x30 ≤ off ∧ off < 0x40) ∨ (0x50 ≤ off ∧ off < 0x80) ∨ (0xE4 ≤ off ∧ off < 0x100) ∨
      (0x200 ≤ off ∧ off < 0x1000) ∨ 0x1C80 ≤ off →
    step { s with pending := .readByte off :: rest } = .next { s with pending := rest, readData := 0 } ∧
    step { s with pending := .writeByte off b :: rest } = .next { s with pending := rest } ∧
    (off % 4 = 0 →
      step { s with pending := .readWord off :: rest } = .next { s with pending := rest, readData := 0 } ∧
      step { s with pending := .writeWord off v :: rest } = .next { s with pending := rest })

/-- R58, U9: a misaligned word access, a byte access to a register, a word access to a buffer and any half-word access are
refused. -/
def Obligations.OtherAccessWidthsAreRefused : Prop :=
  ∀ (s : State) (rest : List HostAction) (off : Nat) (v : Word) (h : BitVec 16) (b : Byte),
    let refuses := fun (act : HostAction) => step { s with pending := act :: rest } = .refused (.accessWidth off)
    refuses (.readHalf off) ∧ refuses (.writeHalf off h) ∧
    (off % 4 ≠ 0 → refuses (.readWord off) ∧ refuses (.writeWord off v)) ∧
    (off < 0x1C ∨ (0x20 ≤ off ∧ off < 0x30) ∨ (0x80 ≤ off ∧ off < 0xE4) →
      refuses (.readByte off) ∧ refuses (.writeByte off b)) ∧
    ((0x40 ≤ off ∧ off < 0x50) ∨ (0x100 ≤ off ∧ off < 0x200) ∨ (0x1000 ≤ off ∧ off < 0x1C80) →
      refuses (.readWord off) ∧ refuses (.writeWord off v))

/-! ### Errors (spec/60_exceptions.md) -/

/-- R265 with R264: every write to CMD ends in one of two ways. Completed: ERR is 0 and STICKY unchanged. Error: CMD and STATUS
change, ERR being one of the codes 1..5 and STICKY 1, and nothing else does. -/
def Obligations.FailingCommandChangesOnlyCmdAndStatus : Prop :=
  ∀ (s : State) (w : Word) (rest : List HostAction), s.pending = .writeWord 0 w :: rest →
    ∃ t, step s = .next t ∧ t.cmd = w ∧
      ((errOf t.status = 0 ∧ stickyOf t.status = stickyOf s.status) ∨
       (errOf t.status ∈ [1, 2, 3, 4, 5] ∧ stickyOf t.status = true ∧
        t = { s with pending := rest, cmd := w, status := t.status }))

/-- R263 steps 2 to 4, R266: the common checks, the first that fails in the listed order deciding, whatever the operands hold;
with the rule's example, a command on row 30 with NROWS = 40 or 3. -/
def Obligations.CommonChecksReportTheFirstFailure : Prop :=
  (∀ (i : Instr) (row : Nat) (s : State), i.namedRow = some row →
    (25 < s.nrows.toNat → exec i s = .next (s.takeError .config)) ∧
    (s.nrows.toNat ≤ 25 → s.nrows.toNat ≤ row → exec i s = .next (s.takeError .row)) ∧
    (s.nrows.toNat ≤ 25 → row < s.nrows.toNat → 1024 < s.rowLen row → exec i s = .next (s.takeError .config))) ∧
  (∀ s : State, s.nrows = 40 → exec (.extract 30) s = .next (s.takeError .config)) ∧
  (∀ s : State, s.nrows = 3 → exec (.extract 30) s = .next (s.takeError .row))

/-- R263 steps 5 and 6, the Checks parts of R100 to R103, R120, R131, R135, R150, R153, R156, R159: with the common checks passed,
which operands end in which error. -/
def Obligations.OperandAndRangeErrorsAreTheListed : Prop :=
  (∀ (row : Nat) (s : State), s.rowReady row = true →
    let fails := fun (i : Instr) (c : ErrCode) => exec i s = .next (s.takeError c)
    (128 < s.opndNat 1 → fails (.search row) .operand) ∧
    (s.opndNat 1 ≤ 128 → s.rowLen row < s.opndNat 0 → fails (.search row) .range) ∧
    (s.rowLen row < s.opndNat 0 + s.opndNat 1 →
      fails (.extract row) .range ∧ fails (.uart8n1 row) .range ∧ fails (.uart8o1 row) .range ∧ fails (.nib4b1s row) .range) ∧
    (s.rowLen row ≤ s.opndNat 0 → fails (.getbit row) .range) ∧
    (s.rowLen row < s.opndNat 0 + 8 → fails (.getbyte row) .range) ∧
    (s.rowLen row < s.opndNat 0 → (∀ conv zb, fails (.manch row conv zb) .range) ∧ fails (.dmanch row) .range) ∧
    (27 < symLen (s.opnd 2) ∨ 27 < symLen (s.opnd 3) ∨ 27 < symLen (s.opnd 4) → fails (.symbols row) .operand) ∧
    (symLen (s.opnd 2) ≤ 27 → symLen (s.opnd 3) ≤ 27 → symLen (s.opnd 4) ≤ 27 →
      s.rowLen row < s.opndNat 0 + s.opndNat 1 → fails (.symbols row) .range)) ∧
  (∀ s : State, 25 < s.nrows.toNat → exec .invert s = .next (s.takeError .config)) ∧
  (∀ (s : State) (r : Nat), s.nrows.toNat ≤ 25 → r < s.nrows.toNat → 1024 < s.rowLen r →
    exec .invert s = .next (s.takeError .config))

/-- R54, R180, R192, R224, R245: a byte run that passes the valid extent ends every byte-addressed command with ERR_RANGE. -/
def Obligations.ByteRunBeyondTheExtentIsErrRange : Prop :=
  ∀ (i : Instr) (src : Source) (s : State), i.byteSource = some src → s.sourceReady src = true →
    s.extent src < s.opndNat 0 + s.opndNat 1 → exec i s = .next (s.takeError .range)

/-- R275: a decoded command either completes with ERR 0 or takes an error that the table marks for it. -/
def Obligations.CommandsRaiseOnlyTheirTabledErrors : Prop :=
  ∀ (i : Instr) (s : State),
    (∃ t, exec i s = .next t ∧ errOf t.status = 0) ∨ (∃ c ∈ i.tabledErrors, exec i s = .next (s.takeError c))

/-- R261, R264: what taking an error leaves: its code in ERR, 1 in STICKY, every other bit of STATUS and every other piece of state
as before. -/
def Obligations.TakingAnErrorWritesCodeAndSticky : Prop :=
  ∀ s : State,
    ([ErrCode.illegal, .config, .row, .range, .operand].map fun c => errOf (s.takeError c).status) = [1, 2, 3, 4, 5] ∧
    ∀ c, stickyOf (s.takeError c).status = true ∧
      s.takeError c = { s with status := (s.takeError c).status } ∧
      ∀ k, 4 ≤ k → k ≠ 8 → (s.takeError c).status.getLsbD k = s.status.getLsbD k

/-- R263: scalar commands and byte-addressed commands on OUT make no check of the bit buffer's description, and nothing they do
depends on NROWS or BITS. -/
def Obligations.BufferlessCommandsIgnoreTheRowRegisters : Prop :=
  ∀ (i : Instr) (s t : State) (n : Word) (bs : Vector Word Config.numRows),
    i.namedRow = none → i ≠ .invert → exec i s = .next t →
    exec i { s with nrows := n, bits := bs } = .next { t with nrows := n, bits := bs }

/-- R291: what each command does as the first after reset. Rows are not valid; INVERT completes and changes nothing; byte-addressed
commands on OUT complete over an empty message; the scalar commands work at once. -/
def Obligations.FirstCommandAfterReset : Prop :=
  (∀ (i : Instr) (row : Nat), i.namedRow = some row → exec i State.reset = .next (State.reset.takeError .row)) ∧
  (∀ i : Instr, i.namedRow = none → exec i State.reset = .next State.reset) ∧
  (∀ x : Word,
    let s := { State.reset with a := #v[x, 0, 0, 0, 0] }
    exec .rev8 s = .next { s with r0 := (reflect (x.setWidth 8)).setWidth 32 } ∧
    exec .refl4 s = .next { s with r0 := (reflectNibbles (x.setWidth 8)).setWidth 32 } ∧
    exec .parity8 s = .next { s with r0 := wordOfBool (Sys2Proof.Machine.parity8 (x.setWidth 8)) })

/-! ### What commands leave alone -/

/-- R21, R22, R27, R28, R32: no command, completing or not, writes an operand register, CMD, NROWS, a BITS register or PAT; nor the
host's side. -/
def Obligations.NoCommandWritesTheHostsState : Prop :=
  ∀ (i : Instr) (s t : State), exec i s = .next t →
    t.a = s.a ∧ t.cmd = s.cmd ∧ t.nrows = s.nrows ∧ t.bits = s.bits ∧ t.pending = s.pending ∧ t.readData = s.readData ∧
    ∀ j, j < 16 → Memory.read t.mem (0x40 + j) = Memory.read s.mem (0x40 + j)

/-- R30, R31, R297: a command that neither produces a payload nor works in place changes R[0], R[1] and STATUS only: no buffer byte,
no other register. These are SEARCH, GETBIT, GETBYTE, REV8, REFL4, PARITY8 and the Checksum group. -/
def Obligations.ReadOnlyCommandsChangeNoBuffer : Prop :=
  ∀ (i : Instr) (s t : State), i.writesPayload = false → i.mutatesInPlace = false → exec i s = .next t →
    t = { s with r0 := t.r0, r1 := t.r1, status := t.status }

/-- R55, R35, R31: a payload-producing command that completes replaces the whole of OUT, so that every bit at or beyond OUTBITS is 0
and OUTBITS is in bounds; it changes no byte outside OUT and no register but R[0], R[1], STATUS and OUTBITS. -/
def Obligations.PayloadCommandsReplaceTheWholeOfOut : Prop :=
  ∀ (i : Instr) (s t : State), i.writesPayload = true → s.inv = true → exec i s = .next t → errOf t.status = 0 →
    t.outbits.toNat ≤ 8 * Config.outBytes ∧
    (∀ k, t.outbits.toNat ≤ k → k < 8 * Config.outBytes → t.outBit k = false) ∧
    sameOutsideOut s t ∧
    t = { s with mem := t.mem, outbits := t.outbits, r0 := t.r0, r1 := t.r1, status := t.status }

/-- R20, R26, R29, R50: the invariant survives every step, whatever the next host action is: the memory keeps its canonical form and
lists buffer bytes only, OUTBITS stays within OUT, STATUS keeps its reserved bits 0 and a legal ERR. -/
def Obligations.EveryStepKeepsTheInvariant : Prop :=
  ∀ s t : State, s.inv = true → step s = .next t → t.inv = true

/-- R36: the invariant holds after reset. -/
def Obligations.ResetStateMeetsTheInvariant : Prop := State.reset.inv = true

/-! ### BitSearch and BitExtract (spec/40_bitsearch_extract.md) -/

/-- R100, R105: SEARCH completes and returns the start for an empty pattern, else the lowest matching offset at or after the start,
else the row's `bit_count`; in particular k for a pattern that first stands at k. Nothing but R[0], R[1] and STATUS changes. -/
def Obligations.SearchReturnsTheFirstMatchOrTheSentinel : Prop :=
  ∀ (row : Nat) (s : State), s.rowReady row = true → s.opndNat 1 ≤ 128 → s.opndNat 0 ≤ s.rowLen row →
    let n := s.rowLen row
    let start := s.opndNat 0
    let len := s.opndNat 1
    let matchesAt := fun p => start ≤ p ∧ p + len ≤ n ∧ ∀ i, i < len → s.rowBit row (p + i) = s.patBit i
    ∃ p, p ≤ n ∧
      exec (.search row) s = .next { s with r0 := BitVec.ofNat 32 p, r1 := 0, status := statusCompleted s.status } ∧
      (len = 0 → p = start) ∧
      (len ≠ 0 → (∀ q, ¬ matchesAt q) → p = n) ∧
      (∀ k, matchesAt k → (∀ q, q < k → ¬ matchesAt q) → p = k)

/-- R101: EXTRACT completes and copies the bits A[0] .. A[0] + A[1] - 1 of the row to the front of OUT, every later bit of OUT 0;
OUTBITS is A[1] and R[0] the payload's length in bytes; no other byte or register changes. -/
def Obligations.ExtractCopiesTheBitRun : Prop :=
  ∀ (row : Nat) (s : State), s.inv = true → s.rowReady row = true → s.opndNat 0 + s.opndNat 1 ≤ s.rowLen row →
    ∃ m, let t := { s with mem := m, outbits := s.opnd 1, r0 := BitVec.ofNat 32 ((s.opndNat 1 + 7) / 8), r1 := 0,
                           status := statusCompleted s.status }
      exec (.extract row) s = .next t ∧ sameOutsideOut s t ∧
      ∀ k, k < 8 * Config.outBytes → t.outBit k = (decide (k < s.opndNat 1) && s.rowBit row (s.opndNat 0 + k))

/-- R101 corner case (d): EXTRACT of the first 8 * N bits of a row gives back the row's first N bytes. -/
def Obligations.ExtractFromTheStartGivesTheRowsBytes : Prop :=
  ∀ (row count : Nat) (s : State), s.inv = true → s.rowReady row = true → s.opndNat 0 = 0 → s.opndNat 1 = 8 * count →
    8 * count ≤ s.rowLen row →
    ∃ t, exec (.extract row) s = .next t ∧ t.outbits.toNat = 8 * count ∧ t.r0.toNat = count ∧
      ∀ i, i < count → t.bufByte .out i = s.bufByte (.row row) i

/-- R102, R103: GETBIT returns the bit as 0 or 1; GETBYTE the eight bits from A[0] on, the first in bit 7 of the result, which is the
byte that EXTRACT of those eight bits puts in OUT[0]. Nothing but R[0], R[1] and STATUS changes. -/
def Obligations.GetbitAndGetbyteReadTheRow : Prop :=
  ∀ (row : Nat) (s : State), s.rowReady row = true →
    (s.opndNat 0 < s.rowLen row →
      exec (.getbit row) s =
        .next { s with r0 := if s.rowBit row (s.opndNat 0) then 1 else 0, r1 := 0, status := statusCompleted s.status }) ∧
    (s.opndNat 0 + 8 ≤ s.rowLen row →
      ∃ v : Word,
        exec (.getbyte row) s = .next { s with r0 := v, r1 := 0, status := statusCompleted s.status } ∧
        (∀ i, i < 8 → v.getLsbD i = s.rowBit row (s.opndNat 0 + (7 - i))) ∧ v.toNat < 256 ∧
        (s.inv = true → s.opnd 1 = 8 →
          ∃ t, exec (.extract row) s = .next t ∧ (t.bufByte .out 0).setWidth 32 = v))

/-! ### Inversion and reflection (spec/41_invert_reflect.md) -/

/-- R120: INVERT completes and changes exactly the bits `k < BITS[r]` of the rows `r < NROWS`: pad bits, later bytes, other rows,
PAT, OUT and the other registers keep their values. -/
def Obligations.InvertFlipsExactlyTheValidBits : Prop :=
  ∀ s : State, s.inv = true → s.allRowsReady = true →
    ∃ m, let t := { s with mem := m, r0 := 0, r1 := 0, status := statusCompleted s.status }
      exec .invert s = .next t ∧
      (∀ r k, r < Config.numRows → k < Config.rowBits →
        t.rowBit r k = (s.rowBit r k ^^ (decide (r < s.nrows.toNat) && decide (k < s.rowLen r)))) ∧
      ∀ off, inRun Config.rowBase (Config.rowBytes * Config.numRows) off = false →
        Memory.read m off = Memory.read s.mem off

/-- R120 corner case (c): two INVERT commands restore every stored byte. -/
def Obligations.InvertTwiceRestoresTheBuffer : Prop :=
  ∀ s t : State, s.inv = true → s.allRowsReady = true → exec .invert s = .next t →
    ∃ u, exec .invert t = .next u ∧ u.mem = s.mem

/-- R121, R122, R240: the scalar commands complete in every state. REV8 sends bit i of A[0][7:0] to bit 7 - i, REFL4 to bit 3 - i of
the same nibble, PARITY8 counts the set bits; bits 31:8 of A[0] are ignored and bits 31:8 of R[0] are 0. -/
def Obligations.ScalarCommandsReturnTheirByteFunctions : Prop :=
  ∀ s : State, ∃ v4 v8 : Word,
    exec .rev8 s = .next { s with r0 := v8, r1 := 0, status := statusCompleted s.status } ∧
    exec .refl4 s = .next { s with r0 := v4, r1 := 0, status := statusCompleted s.status } ∧
    exec .parity8 s = .next { s with
      r0 := if ((List.range 8).countP fun i => (s.opnd 0).getLsbD i) % 2 = 1 then 1 else 0
      r1 := 0, status := statusCompleted s.status } ∧
    (∀ i, i < 32 → v8.getLsbD i = (decide (i < 8) && (s.opnd 0).getLsbD (7 - i))) ∧
    ∀ i, i < 32 → v4.getLsbD i =
      (decide (i < 8) && if i < 4 then (s.opnd 0).getLsbD (3 - i) else (s.opnd 0).getLsbD (11 - i))

/-- R121, R122: both reflections undo themselves, REV8 is REFL4 with the two nibbles exchanged, and neither changes
the parity: R240 says so of REV8, and for REFL4 it follows from R122. -/
def Obligations.ReflectionsAreInvolutions : Prop :=
  ∀ b : Byte, reflect (reflect b) = b ∧ reflectNibbles (reflectNibbles b) = b ∧
    reflect b = (reflectNibbles b).rotateLeft 4 ∧ parity8 (reflect b) = parity8 b ∧ parity8 (reflectNibbles b) = parity8 b

/-! ### Manchester decoders (spec/42_manchester.md) -/

/-- R131, R133: MANCH completes; it decodes the longest run of valid cells from the start that max_bits and the row's end allow;
the bits go to OUT after the zero that ZB reinstates, R[0] and R[1] count the cells' bits and the cells. -/
def Obligations.ManchDecodesTheLongestRunOfValidCells : Prop :=
  ∀ (row : Nat) (conv zb : Bool) (s : State), s.inv = true → s.rowReady row = true → s.opndNat 0 ≤ s.rowLen row →
    let lo := s.opndNat 0
    let lead := zb.toNat
    ∃ d m, let t := { s with mem := m, outbits := BitVec.ofNat 32 (lead + d), r0 := BitVec.ofNat 32 (2 * d),
                             r1 := BitVec.ofNat 32 d, status := statusCompleted s.status }
      exec (.manch row conv zb) s = .next t ∧ sameOutsideOut s t ∧
      d ≤ s.opndNat 1 ∧ lo + 2 * d ≤ s.rowLen row ∧
      (∀ j, j < d → s.rowBit row (lo + 2 * j) ≠ s.rowBit row (lo + 2 * j + 1)) ∧
      (d = s.opndNat 1 ∨ s.rowLen row < lo + 2 * d + 2 ∨ s.rowBit row (lo + 2 * d) = s.rowBit row (lo + 2 * d + 1)) ∧
      (∀ j, j < d → t.outBit (lead + j) = (s.rowBit row (lo + 2 * j + 1) ^^ conv)) ∧
      ∀ k, k < 8 * Config.outBytes → (k < lead ∨ lead + d ≤ k) → t.outBit k = false

/-- R134: encoding a known bit sequence into Manchester pairs and decoding it reproduces the sequence, packed in OUT with zeros after
it, with twice as many source bits consumed. -/
def Obligations.ManchesterRoundTrip : Prop :=
  ∀ (row : Nat) (conv : Bool) (s : State) (sent : List Bool), s.inv = true → s.rowReady row = true →
    s.opndNat 1 = sent.length → s.opndNat 0 + 2 * sent.length ≤ s.rowLen row →
    (∀ j, j < sent.length →
      s.rowBit row (s.opndNat 0 + 2 * j) = !(sent.getD j false ^^ conv) ∧
      s.rowBit row (s.opndNat 0 + 2 * j + 1) = (sent.getD j false ^^ conv)) →
    ∃ t, exec (.manch row conv false) s = .next t ∧ t.outbits.toNat = sent.length ∧
      t.r0.toNat = 2 * sent.length ∧ t.r1.toNat = sent.length ∧
      ∀ j, j < 8 * Config.outBytes → t.outBit j = sent.getD j false

/-- R131 corner case (e), R133: the two conventions decode the same cells to complementary bits; with ZB the payload is the payload
without it, one bit later behind a 0, and R[0], R[1] are the same. -/
def Obligations.ManchModifiersShiftAndComplement : Prop :=
  ∀ (row : Nat) (conv : Bool) (s t : State), s.inv = true → exec (.manch row conv false) s = .next t →
    errOf t.status = 0 →
    ∃ u v, exec (.manch row (!conv) false) s = .next u ∧ exec (.manch row conv true) s = .next v ∧
      u.r0 = t.r0 ∧ u.r1 = t.r1 ∧ u.outbits = t.outbits ∧
      (∀ k, k < t.outbits.toNat → u.outBit k = !t.outBit k) ∧
      v.r0 = t.r0 ∧ v.r1 = t.r1 ∧ v.outbits.toNat = t.outbits.toNat + 1 ∧ v.outBit 0 = false ∧
      ∀ k, k < t.outbits.toNat → v.outBit (k + 1) = t.outBit k

/-- R135, R136: DMANCH completes; it takes the first cell as found and goes on while each next cell starts with a level change, up to
max_bits and the row's end; a mid-bit transition decodes to 0, none to 1. -/
def Obligations.DmanchDecodesUntilAClockEdgeIsMissing : Prop :=
  ∀ (row : Nat) (s : State), s.inv = true → s.rowReady row = true → s.opndNat 0 ≤ s.rowLen row →
    let lo := s.opndNat 0
    ∃ d m, let t := { s with mem := m, outbits := BitVec.ofNat 32 d, r0 := BitVec.ofNat 32 (2 * d), r1 := BitVec.ofNat 32 d,
                             status := statusCompleted s.status }
      exec (.dmanch row) s = .next t ∧ sameOutsideOut s t ∧
      d ≤ s.opndNat 1 ∧ lo + 2 * d ≤ s.rowLen row ∧
      (∀ j, j + 1 < d → s.rowBit row (lo + 2 * j + 1) ≠ s.rowBit row (lo + 2 * j + 2)) ∧
      (d = s.opndNat 1 ∨ s.rowLen row < lo + 2 * d + 2 ∨
        (d ≠ 0 ∧ s.rowBit row (lo + 2 * d - 1) = s.rowBit row (lo + 2 * d))) ∧
      (∀ j, j < d → t.outBit j = (s.rowBit row (lo + 2 * j) == s.rowBit row (lo + 2 * j + 1))) ∧
      ∀ k, k < 8 * Config.outBytes → d ≤ k → t.outBit k = false

/-- R131 corner case (f), R135 corner case (d): INVERT before a decode complements every bit that MANCH decodes and changes nothing
that DMANCH decodes; the counts are the same. -/
def Obligations.InversionBeforeAManchesterDecode : Prop :=
  ∀ (row : Nat) (conv : Bool) (s s' t t' : State), s.inv = true → s.allRowsReady = true → exec .invert s = .next s' →
    (exec (.dmanch row) s = .next t → exec (.dmanch row) s' = .next t' → errOf t.status = 0 →
      t'.r0 = t.r0 ∧ t'.r1 = t.r1 ∧ t'.outbits = t.outbits ∧ ∀ i, i < Config.outBytes → t'.bufByte .out i = t.bufByte .out i) ∧
    (exec (.manch row conv false) s = .next t → exec (.manch row conv false) s' = .next t' → errOf t.status = 0 →
      t'.r0 = t.r0 ∧ t'.r1 = t.r1 ∧ t'.outbits = t.outbits ∧
      ∀ k, k < t.outbits.toNat → t'.outBit k = !t.outBit k)

/-! ### Framing decoders (spec/43_framing_decoders.md) -/

/-- R150, R151: UART8N1 completes with the longest run of good 10-bit frames (start bit 0, stop bit 1), at most `A[1] div 10`; byte
j of OUT has the data bits of frame j, least significant first. -/
def Obligations.Uart8n1DecodesTheLeadingGoodFrames : Prop :=
  ∀ (row : Nat) (s : State), s.inv = true → s.rowReady row = true → s.opndNat 0 + s.opndNat 1 ≤ s.rowLen row →
    let f := fun j k => s.rowBit row (s.opndNat 0 + 10 * j + k)
    let good := fun j => f j 0 = false ∧ f j 9 = true
    ∃ c m, let t := { s with mem := m, outbits := BitVec.ofNat 32 (8 * c), r0 := BitVec.ofNat 32 c, r1 := 0,
                             status := statusCompleted s.status }
      exec (.uart8n1 row) s = .next t ∧ sameOutsideOut s t ∧ c ≤ s.opndNat 1 / 10 ∧
      (∀ j, j < c → good j) ∧ (c = s.opndNat 1 / 10 ∨ ¬ good c) ∧
      (∀ j i, j < c → i < 8 → (t.bufByte .out j).getLsbD i = f j (1 + i)) ∧
      ∀ j, c ≤ j → j < Config.outBytes → t.bufByte .out j = 0

/-- R153, R154: UART8O1 completes with the longest run of good 11-bit frames (start bit 1, stop bit 0, an odd number of ones in data
and parity), at most `A[1] div 11`; byte j of OUT has the data bits of frame j, most significant first. -/
def Obligations.Uart8o1DecodesTheLeadingGoodFrames : Prop :=
  ∀ (row : Nat) (s : State), s.inv = true → s.rowReady row = true → s.opndNat 0 + s.opndNat 1 ≤ s.rowLen row →
    let f := fun j k => s.rowBit row (s.opndNat 0 + 11 * j + k)
    let good := fun j => f j 0 = true ∧ f j 10 = false ∧ ((List.range 9).countP fun i => f j (1 + i)) % 2 = 1
    ∃ c m, let t := { s with mem := m, outbits := BitVec.ofNat 32 (8 * c), r0 := BitVec.ofNat 32 c, r1 := 0,
                             status := statusCompleted s.status }
      exec (.uart8o1 row) s = .next t ∧ sameOutsideOut s t ∧ c ≤ s.opndNat 1 / 11 ∧
      (∀ j, j < c → good j) ∧ (c = s.opndNat 1 / 11 ∨ ¬ good c) ∧
      (∀ j i, j < c → i < 8 → (t.bufByte .out j).getLsbD (7 - i) = f j (1 + i)) ∧
      ∀ j, c ≤ j → j < Config.outBytes → t.bufByte .out j = 0

/-- R156, R157: NIB4B1S completes with the longest run of groups whose separator is 1, at most `A[1] div 5`; byte j of OUT is the
nibble of group j, most significant bit first, with the high half 0. -/
def Obligations.Nib4b1sUnstuffsTheLeadingGoodGroups : Prop :=
  ∀ (row : Nat) (s : State), s.inv = true → s.rowReady row = true → s.opndNat 0 + s.opndNat 1 ≤ s.rowLen row →
    let f := fun j k => s.rowBit row (s.opndNat 0 + 5 * j + k)
    ∃ c m, let t := { s with mem := m, outbits := BitVec.ofNat 32 (8 * c), r0 := BitVec.ofNat 32 c, r1 := 0,
                             status := statusCompleted s.status }
      exec (.nib4b1s row) s = .next t ∧ sameOutsideOut s t ∧ c ≤ s.opndNat 1 / 5 ∧
      (∀ j, j < c → f j 4 = true) ∧ (c = s.opndNat 1 / 5 ∨ f c 4 = false) ∧
      (∀ j i, j < c → i < 8 → (t.bufByte .out j).getLsbD i = (decide (i < 4) && f j (3 - i))) ∧
      ∀ j, c ≤ j → j < Config.outBytes → t.bufByte .out j = 0

/-- R152: three good frames with the bytes 12, 34, 56 and a fourth with its stop bit inverted decode to count 3 and those bytes,
without an error, in every state whose row begins with the scenario's 40 bits. -/
def Obligations.UartPartialDecodeScenario : Prop :=
  ∀ (row : Nat) (s : State), s.inv = true → s.rowReady row = true → 40 ≤ s.rowLen row →
    s.message (.row row) 0 5 = [0x24, 0x45, 0x93, 0x54, 0x3C] → s.opndNat 0 = 0 → s.opndNat 1 = 40 →
    ∃ t, exec (.uart8n1 row) s = .next t ∧ t.r0 = 3 ∧ t.outbits = 24 ∧ errOf t.status = 0 ∧
      t.message .out 0 4 = [0x12, 0x34, 0x56, 0x00]

/-- R159: SYMBOLS completes with the one reading of the bit run that the rule's loop gives (zero before one before sync, leading
syncs skipped, a sync after data or an unmatched position ending it), at most one data bit per source bit. -/
def Obligations.SymbolsReadsTheRunAsTheRuleSays : Prop :=
  ∀ (row : Nat) (s : State), s.inv = true → s.rowReady row = true → symLen (s.opnd 2) ≤ 27 → symLen (s.opnd 3) ≤ 27 →
    symLen (s.opnd 4) ≤ 27 → s.opndNat 0 + s.opndNat 1 ≤ s.rowLen row →
    ∃ data m, let t := { s with mem := m, outbits := BitVec.ofNat 32 data.length, r0 := BitVec.ofNat 32 data.length, r1 := 0,
                                status := statusCompleted s.status }
      exec (.symbols row) s = .next t ∧ sameOutsideOut s t ∧ data.length ≤ s.opndNat 1 ∧
      SymbolReading (s.opnd 2) (s.opnd 3) (s.opnd 4) false (s.rowRun row (s.opndNat 0) (s.opndNat 1)) data ∧
      (∀ other, SymbolReading (s.opnd 2) (s.opnd 3) (s.opnd 4) false (s.rowRun row (s.opndNat 0) (s.opndNat 1)) other →
        other = data) ∧
      ∀ k, k < 8 * Config.outBytes → t.outBit k = data.getD k false

/-- R159 corner cases (a), (b): with distinct symbols, none a prefix of another, a run of leading syncs, then the symbols of some
data, then a sync and anything after it, decodes to exactly the data, packed in OUT with zeros after it. -/
def Obligations.SymbolsRoundTrip : Prop :=
  ∀ (row : Nat) (s : State) (syncs : Nat) (data tail : List Bool), s.inv = true → s.rowReady row = true →
    s.opndNat 0 + s.opndNat 1 ≤ s.rowLen row →
    (∀ x ∈ [s.opnd 2, s.opnd 3, s.opnd 4], 1 ≤ symLen x ∧ symLen x ≤ 27) →
    ([symBits (s.opnd 2), symBits (s.opnd 3), symBits (s.opnd 4)].Pairwise fun x y => ¬ x <+: y ∧ ¬ y <+: x) →
    data ≠ [] →
    s.rowRun row (s.opndNat 0) (s.opndNat 1) =
      (List.replicate syncs (symBits (s.opnd 4))).flatten ++
        data.flatMap (fun b => if b then symBits (s.opnd 3) else symBits (s.opnd 2)) ++ symBits (s.opnd 4) ++ tail →
    ∃ t, exec (.symbols row) s = .next t ∧ t.r0.toNat = data.length ∧ t.outbits.toNat = data.length ∧
      ∀ k, k < 8 * Config.outBytes → t.outBit k = data.getD k false

/-! ### Whitening (spec/44_whitening.md) -/

/-- R180, R181: WHITEN completes and XORs byte j of the run with mask byte j, whose bits are those of the sequence of
`x^9 + x^5 + 1` from a seed of all ones: `a_(8j+i)` at bit i, or at bit 7 - i when REFL = 1. No other byte changes. -/
def Obligations.WhitenXorsTheLfsrSequence : Prop :=
  ∀ (a : Nat → Bool), (∀ k, k < 9 → a k = true) → (∀ k, a (k + 9) = (a k ^^ a (k + 5))) →
  ∀ (src : Source) (refl : Bool) (s : State), s.inv = true → s.sourceReady src = true → s.runFits src = true →
    let i := match src with
      | .row r => Instr.whiten r refl
      | .out => Instr.whitenOut refl
    ∃ m, let t := { s with mem := m, r0 := 0, r1 := 0, status := statusCompleted s.status }
      exec i s = .next t ∧
      (∀ j i, j < s.opndNat 1 → i < 8 →
        (t.bufByte src (s.opndNat 0 + j)).getLsbD i =
          ((s.bufByte src (s.opndNat 0 + j)).getLsbD i ^^ a (8 * j + if refl then 7 - i else i))) ∧
      ∀ off, inRun (src.base + s.opndNat 0) (s.opndNat 1) off = false → Memory.read m off = Memory.read s.mem off

/-- R180 corner case (b): the same WHITEN command a second time restores every stored byte. -/
def Obligations.WhitenTwiceRestoresTheBytes : Prop :=
  ∀ (src : Source) (refl : Bool) (s t : State), s.inv = true → s.sourceReady src = true → s.runFits src = true →
    let i := match src with
      | .row r => Instr.whiten r refl
      | .out => Instr.whitenOut refl
    exec i s = .next t → ∃ u, exec i t = .next u ∧ u.mem = s.mem

/-- R181, R180 corner case (e): the first 20 mask bytes are the listed ones, and the mask repeats with period 511 bytes. -/
def Obligations.WhiteningMaskTableAndPeriod : Prop :=
  whitenMask false 20 = [0xFF, 0xE1, 0x1D, 0x9A, 0xED, 0x85, 0x33, 0x24, 0xEA, 0x7A, 0xD2, 0x39, 0x70, 0x97, 0x57, 0x0A,
    0x54, 0x7D, 0x2D, 0xD8] ∧
  whitenMask true 20 = [0xFF, 0x87, 0xB8, 0x59, 0xB7, 0xA1, 0xCC, 0x24, 0x57, 0x5E, 0x4B, 0x9C, 0x0E, 0xE9, 0xEA, 0x50,
    0x2A, 0xBE, 0xB4, 0x1B] ∧
  ∀ (refl : Bool) (n j : Nat), j + 511 < n → (whitenMask refl n)[j + 511]? = (whitenMask refl n)[j]?

/-! ### CRC generator (spec/45_crc.md) -/

/-- R192 to R195, R197, R198: the CRC commands with parameters as given complete and return the register of R191 over the message,
from a row and from OUT; nothing but R[0], R[1] and STATUS changes. -/
def Obligations.CrcCommandsReturnTheRegister : Prop :=
  ∀ (s : State) (src : Source), s.sourceReady src = true → s.runFits src = true →
    let msg := s.message src (s.opndNat 0) (s.opndNat 1)
    let gives := fun (onRow : Nat → Instr) (onOut : Instr) (v : Word) =>
      exec (match src with | .row r => onRow r | .out => onOut) s =
        .next { s with r0 := v, r1 := 0, status := statusCompleted s.status }
    gives .crc4 .crc4Out ((crcMsb msg ((s.opnd 2).setWidth 4) ((s.opnd 3).setWidth 4)).setWidth 32) ∧
    gives .crc7 .crc7Out ((crcMsb msg ((s.opnd 2).setWidth 7) ((s.opnd 3).setWidth 7)).setWidth 32) ∧
    gives .crc8 .crc8Out ((crcMsb msg ((s.opnd 2).setWidth 8) ((s.opnd 3).setWidth 8)).setWidth 32) ∧
    gives .crc16 .crc16Out ((crcMsb msg ((s.opnd 2).setWidth 16) ((s.opnd 3).setWidth 16)).setWidth 32) ∧
    gives .crc16lsb .crc16lsbOut ((crcLsb msg ((s.opnd 2).setWidth 16) ((s.opnd 3).setWidth 16)).setWidth 32)

/-- R200, R196: CRC8LE completes and returns the reflection of what CRC8 gives for the byte-reflected message with the same,
unreflected polynomial and initial value; CRC16LSB is CRC16 with message, parameters and result reflected. -/
def Obligations.Crc8leAndCrc16lsbAreReflectedCrcs : Prop :=
  (∀ (s : State) (src : Source), s.sourceReady src = true → s.runFits src = true →
    exec (match src with | .row r => Instr.crc8le r | .out => Instr.crc8leOut) s =
      .next { s with
        r0 := (reflect (crcMsb ((s.message src (s.opndNat 0) (s.opndNat 1)).map reflect)
          ((s.opnd 2).setWidth 8) ((s.opnd 3).setWidth 8))).setWidth 32
        r1 := 0, status := statusCompleted s.status }) ∧
  ∀ (msg : List Byte) (poly init : BitVec 16),
    crcLsb msg poly init = reflect (crcMsb (msg.map reflect) (reflect poly) (reflect init))

/-- R191: for every width the LSB-first register is the MSB-first one with every quantity bit-reflected, and an empty message
returns the initial value in both. -/
def Obligations.LsbFirstRegisterIsTheReflectedMsbFirst : Prop :=
  ∀ (w : Nat) (msg : List Byte) (poly init : BitVec w),
    crcLsb msg poly init = reflect (crcMsb (msg.map reflect) (reflect poly) (reflect init)) ∧
    crcMsb [] poly init = init ∧ crcLsb [] poly init = init

/-- R190 and the glossary of spec/00_scope.md: the MSB-first CRC is polynomial division. Over GF(2), the register is the remainder
of (message, then W zeros, with the initial value XORed into the front) by `x^W` plus the truncated polynomial. -/
def Obligations.MsbFirstCrcIsThePolynomialRemainder : Prop :=
  ∀ (w : Nat) (msg : List Byte) (poly init : BitVec w), 0 < w →
    let asPoly := fun (bits : List Bool) =>
      bits.foldl (fun (p : Polynomial (ZMod 2)) b => p * Polynomial.X + (if b then 1 else 0)) 0
    let ofReg := fun (v : BitVec w) => asPoly ((List.range w).map fun i => v.getLsbD (w - 1 - i))
    ofReg (crcMsb msg poly init) =
      (asPoly (msg.flatMap msbFirst) * Polynomial.X ^ w + ofReg init * Polynomial.X ^ (8 * msg.length)) %ₘ
        (Polynomial.X ^ w + ofReg poly)

/-- R195: appending the CRC8 of a message to it and running again gives 0; with initial value 0, leading zero bytes do not change
the result. -/
def Obligations.Crc8ResidueIsZero : Prop :=
  ∀ (msg : List Byte) (poly init : BitVec 8) (zeros : Nat),
    crcMsb (msg ++ [crcMsb msg poly init]) poly init = 0 ∧
    crcMsb (List.replicate zeros 0 ++ msg) poly 0 = crcMsb msg poly 0

/-! ### LFSR digests (spec/46_lfsr_digest.md) -/

/-- R220 to R224, R226: each digest command completes and returns the XOR of the keys that meet a 1 bit of the message, bit k of
the variant's bit order meeting the key after k rolls; nothing but R[0], R[1] and STATUS changes. -/
def Obligations.LfsrDigestsXorTheRolledKeys : Prop :=
  ∀ (s : State) (src : Source), s.sourceReady src = true → s.runFits src = true →
    let n := s.opndNat 1
    let byte := fun k => s.bufByte src (s.opndNat 0 + k)
    let gives := fun (onRow : Nat → Instr) (onOut : Instr) (v : Word) =>
      exec (match src with | .row r => onRow r | .out => onOut) s =
        .next { s with r0 := v, r1 := 0, status := statusCompleted s.status }
    let digest := fun (w : Nat) (roll : BitVec w → BitVec w) (bit : Nat → Bool) =>
      ((List.range (8 * n)).foldl (fun sum k => if bit k then sum ^^^ roll^[k] ((s.opnd 3).setWidth w) else sum) 0).setWidth 32
    gives .lfsr8 .lfsr8Out
      (digest 8 (rollRight ((s.opnd 2).setWidth 8)) fun k => (byte (k / 8)).getLsbD (7 - k % 8)) ∧
    gives .lfsr8rev .lfsr8revOut
      (digest 8 (rollRight ((s.opnd 2).setWidth 8)) fun k => (byte (n - 1 - k / 8)).getLsbD (7 - k % 8)) ∧
    gives .lfsr8rfl .lfsr8rflOut
      (digest 8 (rollLeft ((s.opnd 2).setWidth 8)) fun k => (byte (n - 1 - k / 8)).getLsbD (k % 8)) ∧
    gives .lfsr16 .lfsr16Out
      (digest 16 (rollRight ((s.opnd 2).setWidth 16)) fun k => (byte (k / 8)).getLsbD (7 - k % 8))

/-- R226: the two key rolls, as shifts that bring the generator in when a 1 falls off; with its wrap-around bit in the generator, as
rotations with the remaining generator bits as taps; lossy exactly without that bit; and linear in the key. -/
def Obligations.KeyRollsAreRotationsWithTaps : Prop :=
  ∀ (w : Nat) (gen key key' : BitVec w), 0 < w →
    rollRight gen key = (if key.getLsbD 0 then (key >>> 1) ^^^ gen else key >>> 1) ∧
    rollLeft gen key = (if key.getLsbD (w - 1) then (key <<< 1) ^^^ gen else key <<< 1) ∧
    (gen.getLsbD (w - 1) = true →
      rollRight gen key = key.rotateRight 1 ^^^ (if key.getLsbD 0 then gen &&& ~~~BitVec.twoPow w (w - 1) else 0)) ∧
    (gen.getLsbD 0 = true →
      rollLeft gen key = key.rotateLeft 1 ^^^ (if key.getLsbD (w - 1) then gen &&& ~~~1#w else 0)) ∧
    (Function.Injective (rollRight gen) ↔ gen.getLsbD (w - 1) = true) ∧
    (Function.Injective (rollLeft gen) ↔ gen.getLsbD 0 = true) ∧
    rollRight gen (key ^^^ key') = rollRight gen key ^^^ rollRight gen key' ∧
    rollLeft gen (key ^^^ key') = rollLeft gen key ^^^ rollLeft gen key'

/-- R221, R222: LFSR8REV is LFSR8 of the message's bytes in reverse; LFSR8RFL is the mirror image of LFSR8 on the message read
backwards bit by bit, with generator, key and result reflected. -/
def Obligations.DigestVariantsMirrorTheBase : Prop :=
  ∀ (msg : List Byte) (gen key : BitVec 8),
    lfsr8rev msg gen key = lfsr8 msg.reverse gen key ∧
    lfsr8rfl msg gen key = reflect (lfsr8 (msg.reverse.map reflect) (reflect gen) (reflect key))

/-! ### Parity and sums (spec/47_parity_sum.md) -/

/-- R241 to R245: PARITYB, XORB, ADDB and ADDN complete and return the parity of all set bits, the bitwise parity of the bytes, the
exact sum of the bytes and the exact sum of the nibbles, none of which overflows; nothing but R[0], R[1] and STATUS changes. -/
def Obligations.ParityXorAndSumsOfTheMessage : Prop :=
  ∀ (s : State) (src : Source), s.inv = true → s.sourceReady src = true → s.runFits src = true →
    let msg := s.message src (s.opndNat 0) (s.opndNat 1)
    let on := fun (onRow : Nat → Instr) (onOut : Instr) => match src with | .row r => onRow r | .out => onOut
    let done := fun (i : Instr) (v : Word) =>
      exec i s = .next { s with r0 := v, r1 := 0, status := statusCompleted s.status }
    (∃ v, done (on .parityb .paritybOut) v ∧
      v.toNat = (msg.map fun b => (List.range 8).countP fun i => b.getLsbD i).sum % 2) ∧
    (∃ v, done (on .xorb .xorbOut) v ∧ v.toNat < 256 ∧
      ∀ i, i < 8 → v.getLsbD i = decide ((msg.countP fun b => b.getLsbD i) % 2 = 1)) ∧
    (∃ v, done (on .addb .addbOut) v ∧ v.toNat = (msg.map fun b => b.toNat).sum ∧ v.toNat ≤ 65280) ∧
    ∃ v, done (on .addn .addnOut) v ∧ v.toNat = (msg.map fun b => b.toNat / 16 + b.toNat % 16).sum ∧
      v.toNat ≤ 30 * s.opndNat 1

/-- R241, R242, R246: PARITYB is the parity of XORB's byte; a message with its own XOR checksum appended folds to 0; a byte sum
is odd exactly when bit 0 of the XOR fold is 1. -/
def Obligations.ParityXorAndSumRelations : Prop :=
  ∀ msg : List Byte,
    parityBytes msg = parity8 (xorBytes msg) ∧ xorBytes (msg ++ [xorBytes msg]) = 0 ∧
    (addBytes msg % 2 = 1 ↔ (xorBytes msg).getLsbD 0 = true)
end

