-- ==== Sys2Proof/Laws/Bits.lean ====
section
/-! SUPPORT. The laws of packed bits (spec/00_scope.md R9) and of the pure functions on bytes. -/

namespace Sys2Proof.Machine

theorem byte_of_bits_table : ∀ b0 b1 b2 b3 b4 b5 b6 b7 : Bool,
    (List.range 8).map (fun j => (BitVec.ofNat 8 (val [b0, b1, b2, b3, b4, b5, b6, b7])).getLsbD (7 - j)) =
      [b0, b1, b2, b3, b4, b5, b6, b7] := by
  decide +kernel

/-- Bit j of a packed byte, in buffer order. -/
theorem bitAt_byteOf (f : Nat → Bool) {j : Nat} (h : j < 8) : bitAt (byteOf f) j = f j := by
  have key := byte_of_bits_table (f 0) (f 1) (f 2) (f 3) (f 4) (f 5) (f 6) (f 7)
  have hj := congrArg (fun l => l[j]?) key
  simp only [List.getElem?_map, List.getElem?_range h] at hj
  rw [bitAt, Nat.mod_eq_of_lt h, byteOf]
  interval_cases j <;> simpa using hj

/-- Only `k mod 8` matters to `bitAt`. -/
theorem bitAt_mod (b : Byte) (k : Nat) : bitAt b (k % 8) = bitAt b k := by simp [bitAt]

theorem bitAt_add (b : Byte) (i : Nat) {j : Nat} (h : j < 8) : bitAt b (8 * i + j) = b.getLsbD (7 - j) := by
  rw [bitAt, show (8 * i + j) % 8 = j by omega]

theorem bitAt_lt (b : Byte) {j : Nat} (h : j < 8) : bitAt b j = b.getLsbD (7 - j) := by
  rw [bitAt, Nat.mod_eq_of_lt h]

/-- Bit i of a packed byte, by weight. -/
theorem getLsbD_byteOf (f : Nat → Bool) {i : Nat} (h : i < 8) : (byteOf f).getLsbD i = f (7 - i) := by
  rw [← bitAt_byteOf f (show 7 - i < 8 by omega), bitAt_lt _ (by omega), show 7 - (7 - i) = i by omega]

/-- Two bytes with the same bits in buffer order are equal. -/
theorem byte_ext {b c : Byte} (h : ∀ j, j < 8 → bitAt b j = bitAt c j) : b = c := by
  apply BitVec.eq_of_getLsbD_eq
  intro i hi
  have := h (7 - i) (by omega)
  rwa [bitAt_lt _ (by omega), bitAt_lt _ (by omega), show 7 - (7 - i) = i by omega] at this

@[simp] theorem bitAt_zero (k : Nat) : bitAt 0#8 k = false := by simp [bitAt]

theorem bitAt_xor (b c : Byte) (k : Nat) : bitAt (b ^^^ c) k = (bitAt b k ^^ bitAt c k) := by simp [bitAt]

theorem byteOf_bitAt (b : Byte) : byteOf (bitAt b) = b :=
  byte_ext fun _ hj => bitAt_byteOf _ hj

theorem byteOf_congr {f g : Nat → Bool} (h : ∀ j, j < 8 → f j = g j) : byteOf f = byteOf g :=
  byte_ext fun j hj => by rw [bitAt_byteOf _ hj, bitAt_byteOf _ hj, h j hj]

/-! ### `pack` -/

@[simp] theorem length_pack (bits : List Bool) : (pack bits).length = ceil8 bits.length := by simp [pack]

theorem pack_getD (bits : List Bool) {i : Nat} (h : i < ceil8 bits.length) :
    (pack bits).getD i 0 = byteOf fun j => bits.getD (8 * i + j) false := by
  simp [pack, h]

/-- Bit k of a packed list is its k-th entry, and 0 beyond its end (R9). -/
theorem bitAt_pack (bits : List Bool) (k : Nat) : bitAt ((pack bits).getD (k / 8) 0) k = bits.getD k false := by
  by_cases h : k / 8 < ceil8 bits.length
  · rw [pack_getD bits h, ← bitAt_mod, bitAt_byteOf _ (Nat.mod_lt _ (by decide)), Nat.div_add_mod]
  · rw [List.getD_eq_default _ _ (by simpa using h), List.getD_eq_default]
    · simp
    · simp only [ceil8] at h; omega

/-! ### Reflection and parity -/

theorem getLsbD_reflect {w : Nat} (x : BitVec w) (i : Nat) :
    (reflect x).getLsbD i = (decide (i < w) && x.getLsbD (w - 1 - i)) := by
  simp [reflect, BitVec.getLsbD_reverse, BitVec.getMsbD]

@[simp] theorem reflect_reflect {w : Nat} (x : BitVec w) : reflect (reflect x) = x := by
  apply BitVec.eq_of_getLsbD_eq
  intro i hi
  rw [getLsbD_reflect, getLsbD_reflect]
  simp [hi, show w - 1 - i < w by omega, show w - 1 - (w - 1 - i) = i by omega]

@[simp] theorem reflect_zero {w : Nat} : reflect (0 : BitVec w) = 0 := by
  apply BitVec.eq_of_getLsbD_eq
  intro i hi
  simp [getLsbD_reflect]

theorem reflect_xor {w : Nat} (x y : BitVec w) : reflect (x ^^^ y) = reflect x ^^^ reflect y := by
  apply BitVec.eq_of_getLsbD_eq
  intro i hi
  rw [BitVec.getLsbD_xor, getLsbD_reflect, getLsbD_reflect, getLsbD_reflect, BitVec.getLsbD_xor]
  simp [hi]

theorem reflect_shiftLeft_one {w : Nat} (x : BitVec w) : reflect (x <<< 1) = reflect x >>> 1 := by
  apply BitVec.eq_of_getLsbD_eq
  intro i hi
  simp only [getLsbD_reflect, BitVec.getLsbD_shiftLeft, BitVec.getLsbD_ushiftRight, hi, decide_true, Bool.true_and]
  by_cases h : 1 + i < w
  · simp [h, show w - 1 - i < w by omega, show ¬ w - 1 - i < 1 by omega, show w - 1 - i - 1 = w - 1 - (1 + i) by omega]
  · simp [h, show w - 1 - i < 1 by omega]

theorem reflect_shiftRight_one {w : Nat} (x : BitVec w) : reflect (x >>> 1) = reflect x <<< 1 := by
  rw [← reflect_reflect (reflect x <<< 1), reflect_shiftLeft_one, reflect_reflect]

theorem msb_reflect {w : Nat} (x : BitVec w) : (reflect x).msb = x.getLsbD 0 := BitVec.msb_reverse

theorem getLsbD_zero_reflect {w : Nat} (x : BitVec w) : (reflect x).getLsbD 0 = x.msb := by
  rw [← msb_reflect, reflect_reflect]

theorem msbFirst_reflect (b : Byte) : msbFirst (reflect b) = lsbFirst b := by
  simp only [msbFirst, lsbFirst, getLsbD_reflect]
  rfl

theorem lsbFirst_reflect (b : Byte) : lsbFirst (reflect b) = msbFirst b := by
  simp only [msbFirst, lsbFirst, getLsbD_reflect]
  rfl

@[simp] theorem length_msbFirst (b : Byte) : (msbFirst b).length = 8 := rfl

@[simp] theorem length_lsbFirst (b : Byte) : (lsbFirst b).length = 8 := rfl

theorem getD_msbFirst (b : Byte) {i : Nat} (h : i < 8) : (msbFirst b).getD i false = b.getLsbD (7 - i) := by
  interval_cases i <;> rfl

theorem getD_lsbFirst (b : Byte) {i : Nat} (h : i < 8) : (lsbFirst b).getD i false = b.getLsbD i := by
  interval_cases i <;> rfl

theorem msbFirst_xor (b c : Byte) : msbFirst (b ^^^ c) = List.zipWith (· ^^ ·) (msbFirst b) (msbFirst c) := by
  simp [msbFirst]

theorem xor_xor_xor_swap : ∀ p q x y : Bool, ((p ^^ x) ^^ (q ^^ y)) = ((p ^^ q) ^^ (x ^^ y)) := by decide

theorem parity8_xor (b c : Byte) : parity8 (b ^^^ c) = (parity8 b ^^ parity8 c) := by
  simp only [parity8, BitVec.getLsbD_xor]
  rw [xor_xor_xor_swap _ _ (b.getLsbD 0), xor_xor_xor_swap _ _ (b.getLsbD 1), xor_xor_xor_swap _ _ (b.getLsbD 2),
    xor_xor_xor_swap _ _ (b.getLsbD 3), xor_xor_xor_swap _ _ (b.getLsbD 4), xor_xor_xor_swap _ _ (b.getLsbD 5),
    xor_xor_xor_swap _ _ (b.getLsbD 6)]

/-! ### `val` -/

theorem val_append_singleton (bits : List Bool) (b : Bool) : val (bits ++ [b]) = 2 * val bits + b.toNat := by
  simp [val]

theorem val_lt (bits : List Bool) : val bits < 2 ^ bits.length := by
  induction bits using List.reverseRecOn with
  | nil => simp [val]
  | append_singleton l b ih =>
    rw [val_append_singleton, List.length_append, List.length_singleton, Nat.pow_succ]
    have := b.toNat_lt
    omega

/-- The eight bits of `val`, most significant first. -/
theorem byteOf_eq_ofNat_val (f : Nat → Bool) : byteOf f = BitVec.ofNat 8 (val ((List.range 8).map f)) := rfl

end Sys2Proof.Machine
end

