-- ==== Sys2Proof/Laws/Memory.lean ====
section
/-! SUPPORT. The laws of the memory: a read after a write, the frame of a write, the canonical form kept by every operation, and
equality of canonical memories that read the same. -/

namespace Sys2Proof.Machine

@[simp] theorem Memory.read_nil (off : Nat) : Memory.read [] off = 0 := rfl

theorem Memory.risingFrom_cons {k : Nat} {b : Byte} {rest : Memory} {lo : Nat} :
    Memory.risingFrom ((k, b) :: rest) lo = true ↔ lo ≤ k ∧ b ≠ 0 ∧ Memory.risingFrom rest (k + 1) = true := by
  simp [Memory.risingFrom, and_assoc]

theorem Memory.risingFrom_mono {m : Memory} {lo lo' : Nat} (h : Memory.risingFrom m lo = true) (hle : lo' ≤ lo) :
    Memory.risingFrom m lo' = true := by
  cases m with
  | nil => rfl
  | cons c rest =>
    obtain ⟨h1, h2, h3⟩ := Memory.risingFrom_cons.1 h
    exact Memory.risingFrom_cons.2 ⟨by omega, h2, h3⟩

/-- An offset below every listed one reads as an unlisted offset. -/
theorem Memory.read_eq_zero {m : Memory} {lo off : Nat} (h : Memory.risingFrom m lo = true) (hlt : off < lo) :
    Memory.read m off = 0 := by
  induction m generalizing lo with
  | nil => rfl
  | cons c rest ih =>
    obtain ⟨h1, -, h3⟩ := Memory.risingFrom_cons.1 h
    have hne : c.1 ≠ off := by omega
    simpa [Memory.read, hne] using ih h3 (by omega)

/-- The frame of `put`, whatever the memory. -/
theorem Memory.read_put_of_ne {m : Memory} {off k : Nat} (v : Byte) (h : k ≠ off) :
    Memory.read (Memory.put off v m) k = Memory.read m k := by
  unfold Memory.put
  split
  · rfl
  · simp [Memory.read, Ne.symm h]

/-- The frame of a write, whatever the memory: every other byte reads as before. -/
theorem Memory.read_write_of_ne (m : Memory) {off k : Nat} (v : Byte) (h : k ≠ off) :
    Memory.read (Memory.write m off v) k = Memory.read m k := by
  induction m with
  | nil => exact Memory.read_put_of_ne v h
  | cons c rest ih =>
    simp only [Memory.write]
    split
    · exact Memory.read_put_of_ne v h
    · split
      · next h1 h2 => rw [Memory.read_put_of_ne v h]; simp [Memory.read, ← h2, Ne.symm h]
      · simp [Memory.read, ih]

theorem Memory.risingFrom_put {m : Memory} {off lo : Nat} {v : Byte} (h : Memory.risingFrom m (off + 1) = true)
    (hlo : lo ≤ off) : Memory.risingFrom (Memory.put off v m) lo = true := by
  unfold Memory.put
  split
  · exact Memory.risingFrom_mono h (by omega)
  · next hv => exact Memory.risingFrom_cons.2 ⟨hlo, hv, h⟩

theorem Memory.risingFrom_write {m : Memory} {off lo : Nat} {v : Byte} (h : Memory.risingFrom m lo = true)
    (hlo : lo ≤ off) : Memory.risingFrom (Memory.write m off v) lo = true := by
  induction m generalizing lo with
  | nil => exact Memory.risingFrom_put rfl hlo
  | cons c rest ih =>
    obtain ⟨h1, h2, h3⟩ := Memory.risingFrom_cons.1 h
    simp only [Memory.write]
    split
    · exact Memory.risingFrom_put (Memory.risingFrom_cons.2 ⟨by omega, h2, h3⟩) hlo
    · split
      · next h4 h5 => exact Memory.risingFrom_put (h5 ▸ h3) hlo
      · exact Memory.risingFrom_cons.2 ⟨h1, h2, ih h3 (by omega)⟩

/-- A write keeps the canonical form. -/
theorem Memory.wf_write {m : Memory} (h : Memory.wf m = true) (off : Nat) (v : Byte) :
    Memory.wf (Memory.write m off v) = true :=
  Memory.risingFrom_write h (Nat.zero_le _)

theorem Memory.read_put_self {m : Memory} {off : Nat} (v : Byte) (h : Memory.risingFrom m (off + 1) = true) :
    Memory.read (Memory.put off v m) off = v := by
  unfold Memory.put
  split
  · next hv => rw [hv]; exact Memory.read_eq_zero h (by omega)
  · simp [Memory.read]

/-- A read after a write to the same offset gives the value written. -/
theorem Memory.read_write_self {m : Memory} {lo off : Nat} (v : Byte) (h : Memory.risingFrom m lo = true) :
    Memory.read (Memory.write m off v) off = v := by
  induction m generalizing lo with
  | nil => exact Memory.read_put_self v rfl
  | cons c rest ih =>
    obtain ⟨-, h2, h3⟩ := Memory.risingFrom_cons.1 h
    simp only [Memory.write]
    split
    · exact Memory.read_put_self v (Memory.risingFrom_cons.2 ⟨by omega, h2, h3⟩)
    · split
      · next h4 h5 => exact Memory.read_put_self v (h5 ▸ h3)
      · next h4 h5 => simp [Memory.read, Ne.symm h5, ih h3]

/-- What a write does to every byte of a canonical memory. -/
theorem Memory.read_write {m : Memory} (h : Memory.wf m = true) (off k : Nat) (v : Byte) :
    Memory.read (Memory.write m off v) k = if k = off then v else Memory.read m k := by
  split
  · next hk => rw [hk]; exact Memory.read_write_self v h
  · next hk => exact Memory.read_write_of_ne m v hk

/-- A run of writes keeps the canonical form. -/
theorem Memory.wf_writeBytes {m : Memory} (h : Memory.wf m = true) (off : Nat) (vs : List Byte) :
    Memory.wf (Memory.writeBytes m off vs) = true := by
  induction vs generalizing m off with
  | nil => exact h
  | cons v vs ih => exact ih (Memory.wf_write h off v) (off + 1)

/-- The frame of a run of writes, whatever the memory. -/
theorem Memory.read_writeBytes_of_not_mem (m : Memory) {off k : Nat} (vs : List Byte)
    (h : k < off ∨ off + vs.length ≤ k) : Memory.read (Memory.writeBytes m off vs) k = Memory.read m k := by
  induction vs generalizing m off with
  | nil => rfl
  | cons v vs ih =>
    simp only [List.length_cons] at h
    rw [Memory.writeBytes, ih _ (by omega), Memory.read_write_of_ne m v (by omega)]

/-- What a run of writes does to every byte of a canonical memory. -/
theorem Memory.read_writeBytes {m : Memory} (h : Memory.wf m = true) (off k : Nat) (vs : List Byte) :
    Memory.read (Memory.writeBytes m off vs) k =
      if off ≤ k ∧ k < off + vs.length then vs.getD (k - off) 0 else Memory.read m k := by
  induction vs generalizing m off with
  | nil => simp [Memory.writeBytes]
  | cons v vs ih =>
    rw [Memory.writeBytes, ih (Memory.wf_write h off v), Memory.read_write h]
    by_cases hk : k = off
    · subst hk
      simp
    · rcases Nat.lt_or_ge k off with hlt | hge
      · simp [hk, show ¬ off ≤ k by omega, show ¬ off + 1 ≤ k by omega]
      · obtain ⟨d, rfl⟩ : ∃ d, k = off + 1 + d := ⟨k - off - 1, by omega⟩
        have e1 : off + 1 + d - off = d + 1 := by omega
        have e2 : off + 1 + d - (off + 1) = d := by omega
        simp only [hk, if_false, List.length_cons, e1, e2, List.getD_cons_succ]
        congr 1
        simp only [eq_iff_iff]
        omega

/-- The cells of a written memory: those of before, or one at the offset written. -/
theorem Memory.mem_write {m : Memory} {off : Nat} {v : Byte} {c : Host.Cell} (h : c ∈ Memory.write m off v) :
    c ∈ m ∨ c.1 = off := by
  have put : ∀ rest : Memory, c ∈ Memory.put off v rest → c ∈ rest ∨ c.1 = off := by
    intro rest h
    unfold Memory.put at h
    split at h
    · exact .inl h
    · rcases List.mem_cons.1 h with h | h
      · exact .inr (by rw [h])
      · exact .inl h
  induction m with
  | nil => exact put _ h
  | cons d rest ih =>
    simp only [Memory.write] at h
    split at h
    · exact put _ h
    · split at h
      · rcases put _ h with h | h
        · exact .inl (List.mem_cons_of_mem _ h)
        · exact .inr h
      · rcases List.mem_cons.1 h with h | h
        · exact .inl (h ▸ List.mem_cons_self)
        · rcases ih h with h | h
          · exact .inl (List.mem_cons_of_mem _ h)
          · exact .inr h

/-- The cells after a run of writes: those of before, or cells inside the run. -/
theorem Memory.mem_writeBytes {m : Memory} {off : Nat} {vs : List Byte} {c : Host.Cell}
    (h : c ∈ Memory.writeBytes m off vs) : c ∈ m ∨ (off ≤ c.1 ∧ c.1 < off + vs.length) := by
  induction vs generalizing m off with
  | nil => exact .inl h
  | cons v vs ih =>
    rcases ih h with h | ⟨h1, h2⟩
    · rcases Memory.mem_write h with h | h
      · exact .inl h
      · exact .inr ⟨by omega, by simp; omega⟩
    · exact .inr ⟨by omega, by simp; omega⟩

/-- Canonical memories that read the same everywhere are equal data. -/
theorem Memory.eq_of_read_eq {m m' : Memory} {lo : Nat} (h : Memory.risingFrom m lo = true)
    (h' : Memory.risingFrom m' lo = true) (hr : ∀ off, Memory.read m off = Memory.read m' off) : m = m' := by
  induction m generalizing m' lo with
  | nil =>
    cases m' with
    | nil => rfl
    | cons c rest =>
      obtain ⟨-, h2, -⟩ := Memory.risingFrom_cons.1 h'
      exact absurd (by simpa [Memory.read] using (hr c.1).symm) h2
  | cons c rest ih =>
    obtain ⟨h1, h2, h3⟩ := Memory.risingFrom_cons.1 h
    cases m' with
    | nil => exact absurd (by simpa [Memory.read] using hr c.1) h2
    | cons c' rest' =>
      obtain ⟨h1', h2', h3'⟩ := Memory.risingFrom_cons.1 h'
      have hk : c.1 = c'.1 := by
        rcases Nat.lt_trichotomy c.1 c'.1 with hlt | heq | hgt
        · have := hr c.1
          rw [Memory.read_eq_zero (m := c' :: rest') (lo := c'.1)
            (Memory.risingFrom_cons.2 ⟨Nat.le_refl _, h2', h3'⟩) hlt] at this
          exact absurd (by simpa [Memory.read] using this) h2
        · exact heq
        · have := hr c'.1
          rw [Memory.read_eq_zero (m := c :: rest) (lo := c.1)
            (Memory.risingFrom_cons.2 ⟨Nat.le_refl _, h2, h3⟩) hgt] at this
          exact absurd (by simpa [Memory.read] using this.symm) h2'
      have hb : c.2 = c'.2 := by simpa [Memory.read, hk] using hr c.1
      have hrest : rest = rest' := by
        refine ih h3 (hk ▸ h3') fun off => ?_
        by_cases ho : c.1 = off
        · rw [Memory.read_eq_zero h3 (by omega), Memory.read_eq_zero h3' (by omega)]
        · have := hr off
          simpa [Memory.read, ho, ← hk] using this
      rw [hrest, Prod.ext hk hb]

end Sys2Proof.Machine
end

