-- ==== Sys2Proof/Laws/State.lean ====
section
/-! SUPPORT. One lemma per field of the state and per shared update, each true by rfl, so that no later proof unfolds a record
update; and the operand forms under those updates. -/

namespace Sys2Proof.Machine

/-! ### `State.complete` -/

@[simp] theorem State.complete_a (s : State) (res0 res1 : Word) :
    (s.complete res0 res1).a = s.a := rfl
@[simp] theorem State.complete_r0 (s : State) (res0 res1 : Word) :
    (s.complete res0 res1).r0 = res0 := rfl
@[simp] theorem State.complete_r1 (s : State) (res0 res1 : Word) :
    (s.complete res0 res1).r1 = res1 := rfl
@[simp] theorem State.complete_cmd (s : State) (res0 res1 : Word) :
    (s.complete res0 res1).cmd = s.cmd := rfl
@[simp] theorem State.complete_status (s : State) (res0 res1 : Word) :
    (s.complete res0 res1).status = statusCompleted s.status := rfl
@[simp] theorem State.complete_nrows (s : State) (res0 res1 : Word) :
    (s.complete res0 res1).nrows = s.nrows := rfl
@[simp] theorem State.complete_bits (s : State) (res0 res1 : Word) :
    (s.complete res0 res1).bits = s.bits := rfl
@[simp] theorem State.complete_mem (s : State) (res0 res1 : Word) :
    (s.complete res0 res1).mem = s.mem := rfl
@[simp] theorem State.complete_outbits (s : State) (res0 res1 : Word) :
    (s.complete res0 res1).outbits = s.outbits := rfl
@[simp] theorem State.complete_pending (s : State) (res0 res1 : Word) :
    (s.complete res0 res1).pending = s.pending := rfl
@[simp] theorem State.complete_readData (s : State) (res0 res1 : Word) :
    (s.complete res0 res1).readData = s.readData := rfl

/-! ### `State.takeError` -/

@[simp] theorem State.takeError_a (s : State) (c : ErrCode) :
    (s.takeError c).a = s.a := rfl
@[simp] theorem State.takeError_r0 (s : State) (c : ErrCode) :
    (s.takeError c).r0 = s.r0 := rfl
@[simp] theorem State.takeError_r1 (s : State) (c : ErrCode) :
    (s.takeError c).r1 = s.r1 := rfl
@[simp] theorem State.takeError_cmd (s : State) (c : ErrCode) :
    (s.takeError c).cmd = s.cmd := rfl
@[simp] theorem State.takeError_status (s : State) (c : ErrCode) :
    (s.takeError c).status = statusError c s.status := rfl
@[simp] theorem State.takeError_nrows (s : State) (c : ErrCode) :
    (s.takeError c).nrows = s.nrows := rfl
@[simp] theorem State.takeError_bits (s : State) (c : ErrCode) :
    (s.takeError c).bits = s.bits := rfl
@[simp] theorem State.takeError_mem (s : State) (c : ErrCode) :
    (s.takeError c).mem = s.mem := rfl
@[simp] theorem State.takeError_outbits (s : State) (c : ErrCode) :
    (s.takeError c).outbits = s.outbits := rfl
@[simp] theorem State.takeError_pending (s : State) (c : ErrCode) :
    (s.takeError c).pending = s.pending := rfl
@[simp] theorem State.takeError_readData (s : State) (c : ErrCode) :
    (s.takeError c).readData = s.readData := rfl

/-! ### `State.deliver` -/

@[simp] theorem State.deliver_a (s : State) (p : List Byte) (n : Nat) :
    (s.deliver p n).a = s.a := rfl
@[simp] theorem State.deliver_r0 (s : State) (p : List Byte) (n : Nat) :
    (s.deliver p n).r0 = s.r0 := rfl
@[simp] theorem State.deliver_r1 (s : State) (p : List Byte) (n : Nat) :
    (s.deliver p n).r1 = s.r1 := rfl
@[simp] theorem State.deliver_cmd (s : State) (p : List Byte) (n : Nat) :
    (s.deliver p n).cmd = s.cmd := rfl
@[simp] theorem State.deliver_status (s : State) (p : List Byte) (n : Nat) :
    (s.deliver p n).status = s.status := rfl
@[simp] theorem State.deliver_nrows (s : State) (p : List Byte) (n : Nat) :
    (s.deliver p n).nrows = s.nrows := rfl
@[simp] theorem State.deliver_bits (s : State) (p : List Byte) (n : Nat) :
    (s.deliver p n).bits = s.bits := rfl
@[simp] theorem State.deliver_mem (s : State) (p : List Byte) (n : Nat) :
    (s.deliver p n).mem = Memory.writeBytes s.mem Config.outBase
      ((p ++ List.replicate Config.outBytes 0).take Config.outBytes) := rfl
@[simp] theorem State.deliver_outbits (s : State) (p : List Byte) (n : Nat) :
    (s.deliver p n).outbits = BitVec.ofNat 32 n := rfl
@[simp] theorem State.deliver_pending (s : State) (p : List Byte) (n : Nat) :
    (s.deliver p n).pending = s.pending := rfl
@[simp] theorem State.deliver_readData (s : State) (p : List Byte) (n : Nat) :
    (s.deliver p n).readData = s.readData := rfl

/-! ### `State.storeRun` -/

@[simp] theorem State.storeRun_a (s : State) (src : Source) (off : Nat) (bs : List Byte) :
    (s.storeRun src off bs).a = s.a := rfl
@[simp] theorem State.storeRun_r0 (s : State) (src : Source) (off : Nat) (bs : List Byte) :
    (s.storeRun src off bs).r0 = s.r0 := rfl
@[simp] theorem State.storeRun_r1 (s : State) (src : Source) (off : Nat) (bs : List Byte) :
    (s.storeRun src off bs).r1 = s.r1 := rfl
@[simp] theorem State.storeRun_cmd (s : State) (src : Source) (off : Nat) (bs : List Byte) :
    (s.storeRun src off bs).cmd = s.cmd := rfl
@[simp] theorem State.storeRun_status (s : State) (src : Source) (off : Nat) (bs : List Byte) :
    (s.storeRun src off bs).status = s.status := rfl
@[simp] theorem State.storeRun_nrows (s : State) (src : Source) (off : Nat) (bs : List Byte) :
    (s.storeRun src off bs).nrows = s.nrows := rfl
@[simp] theorem State.storeRun_bits (s : State) (src : Source) (off : Nat) (bs : List Byte) :
    (s.storeRun src off bs).bits = s.bits := rfl
@[simp] theorem State.storeRun_mem (s : State) (src : Source) (off : Nat) (bs : List Byte) :
    (s.storeRun src off bs).mem = Memory.writeBytes s.mem (src.base + off) (bs.take (src.capacity - off)) := rfl
@[simp] theorem State.storeRun_outbits (s : State) (src : Source) (off : Nat) (bs : List Byte) :
    (s.storeRun src off bs).outbits = s.outbits := rfl
@[simp] theorem State.storeRun_pending (s : State) (src : Source) (off : Nat) (bs : List Byte) :
    (s.storeRun src off bs).pending = s.pending := rfl
@[simp] theorem State.storeRun_readData (s : State) (src : Source) (off : Nat) (bs : List Byte) :
    (s.storeRun src off bs).readData = s.readData := rfl

/-! ### `State.writeMem` -/

@[simp] theorem State.writeMem_a (s : State) (off : Nat) (v : Byte) :
    (s.writeMem off v).a = s.a := rfl
@[simp] theorem State.writeMem_r0 (s : State) (off : Nat) (v : Byte) :
    (s.writeMem off v).r0 = s.r0 := rfl
@[simp] theorem State.writeMem_r1 (s : State) (off : Nat) (v : Byte) :
    (s.writeMem off v).r1 = s.r1 := rfl
@[simp] theorem State.writeMem_cmd (s : State) (off : Nat) (v : Byte) :
    (s.writeMem off v).cmd = s.cmd := rfl
@[simp] theorem State.writeMem_status (s : State) (off : Nat) (v : Byte) :
    (s.writeMem off v).status = s.status := rfl
@[simp] theorem State.writeMem_nrows (s : State) (off : Nat) (v : Byte) :
    (s.writeMem off v).nrows = s.nrows := rfl
@[simp] theorem State.writeMem_bits (s : State) (off : Nat) (v : Byte) :
    (s.writeMem off v).bits = s.bits := rfl
@[simp] theorem State.writeMem_mem (s : State) (off : Nat) (v : Byte) :
    (s.writeMem off v).mem = Memory.write s.mem off v := rfl
@[simp] theorem State.writeMem_outbits (s : State) (off : Nat) (v : Byte) :
    (s.writeMem off v).outbits = s.outbits := rfl
@[simp] theorem State.writeMem_pending (s : State) (off : Nat) (v : Byte) :
    (s.writeMem off v).pending = s.pending := rfl
@[simp] theorem State.writeMem_readData (s : State) (off : Nat) (v : Byte) :
    (s.writeMem off v).readData = s.readData := rfl

/-! ### `State.returning` -/

@[simp] theorem State.returning_a (s : State) (v : Word) :
    (s.returning v).a = s.a := rfl
@[simp] theorem State.returning_r0 (s : State) (v : Word) :
    (s.returning v).r0 = s.r0 := rfl
@[simp] theorem State.returning_r1 (s : State) (v : Word) :
    (s.returning v).r1 = s.r1 := rfl
@[simp] theorem State.returning_cmd (s : State) (v : Word) :
    (s.returning v).cmd = s.cmd := rfl
@[simp] theorem State.returning_status (s : State) (v : Word) :
    (s.returning v).status = s.status := rfl
@[simp] theorem State.returning_nrows (s : State) (v : Word) :
    (s.returning v).nrows = s.nrows := rfl
@[simp] theorem State.returning_bits (s : State) (v : Word) :
    (s.returning v).bits = s.bits := rfl
@[simp] theorem State.returning_mem (s : State) (v : Word) :
    (s.returning v).mem = s.mem := rfl
@[simp] theorem State.returning_outbits (s : State) (v : Word) :
    (s.returning v).outbits = s.outbits := rfl
@[simp] theorem State.returning_pending (s : State) (v : Word) :
    (s.returning v).pending = s.pending := rfl
@[simp] theorem State.returning_readData (s : State) (v : Word) :
    (s.returning v).readData = v := rfl

/-! ### `State.advance` -/

@[simp] theorem State.advance_a (s : State) :
    s.advance.a = s.a := rfl
@[simp] theorem State.advance_r0 (s : State) :
    s.advance.r0 = s.r0 := rfl
@[simp] theorem State.advance_r1 (s : State) :
    s.advance.r1 = s.r1 := rfl
@[simp] theorem State.advance_cmd (s : State) :
    s.advance.cmd = s.cmd := rfl
@[simp] theorem State.advance_status (s : State) :
    s.advance.status = s.status := rfl
@[simp] theorem State.advance_nrows (s : State) :
    s.advance.nrows = s.nrows := rfl
@[simp] theorem State.advance_bits (s : State) :
    s.advance.bits = s.bits := rfl
@[simp] theorem State.advance_mem (s : State) :
    s.advance.mem = s.mem := rfl
@[simp] theorem State.advance_outbits (s : State) :
    s.advance.outbits = s.outbits := rfl
@[simp] theorem State.advance_pending (s : State) :
    s.advance.pending = s.pending.tail := rfl
@[simp] theorem State.advance_readData (s : State) :
    s.advance.readData = s.readData := rfl

/-! ### `State.writeReg`, register by register -/

@[simp] theorem State.writeReg_cmd (s : State) (v : Word) : s.writeReg .cmd v = { s with cmd := v } := rfl
@[simp] theorem State.writeReg_status (s : State) (v : Word) : s.writeReg .status v = { s with status := statusWritten v s.status } := rfl
@[simp] theorem State.writeReg_r0 (s : State) (v : Word) : s.writeReg .r0 v = s := rfl
@[simp] theorem State.writeReg_r1 (s : State) (v : Word) : s.writeReg .r1 v = s := rfl
@[simp] theorem State.writeReg_nrows (s : State) (v : Word) : s.writeReg .nrows v = { s with nrows := v } := rfl
@[simp] theorem State.writeReg_outbits (s : State) (v : Word) : s.writeReg .outbits v = s := rfl
@[simp] theorem State.writeReg_opnd (s : State) (i : Fin 5) (v : Word) :
    s.writeReg (.opnd i) v = { s with a := s.a.set i v } := rfl
@[simp] theorem State.writeReg_bits (s : State) (r : Fin Config.numRows) (v : Word) :
    s.writeReg (.bits r) v = { s with bits := s.bits.set r v } := rfl

/-! ### Operand forms under the updates of a command: they read A and BITS, which no command writes (R21, R28) -/

@[simp] theorem State.opnd_complete (s : State) (res0 res1 : Word) (i : Fin 5) :
    (s.complete res0 res1).opnd i = s.opnd i := rfl
@[simp] theorem State.opndNat_complete (s : State) (res0 res1 : Word) (i : Fin 5) :
    (s.complete res0 res1).opndNat i = s.opndNat i := rfl
@[simp] theorem State.opndByte_complete (s : State) (res0 res1 : Word) :
    (s.complete res0 res1).opndByte = s.opndByte := rfl
@[simp] theorem State.opndLow_complete (s : State) (res0 res1 : Word) (w : Nat) (i : Fin 5) :
    (s.complete res0 res1).opndLow w i = s.opndLow w i := rfl
@[simp] theorem State.rowLen_complete (s : State) (res0 res1 : Word) (r : Nat) :
    (s.complete res0 res1).rowLen r = s.rowLen r := rfl
@[simp] theorem State.opnd_takeError (s : State) (c : ErrCode) (i : Fin 5) :
    (s.takeError c).opnd i = s.opnd i := rfl
@[simp] theorem State.opndNat_takeError (s : State) (c : ErrCode) (i : Fin 5) :
    (s.takeError c).opndNat i = s.opndNat i := rfl
@[simp] theorem State.opndByte_takeError (s : State) (c : ErrCode) :
    (s.takeError c).opndByte = s.opndByte := rfl
@[simp] theorem State.opndLow_takeError (s : State) (c : ErrCode) (w : Nat) (i : Fin 5) :
    (s.takeError c).opndLow w i = s.opndLow w i := rfl
@[simp] theorem State.rowLen_takeError (s : State) (c : ErrCode) (r : Nat) :
    (s.takeError c).rowLen r = s.rowLen r := rfl
@[simp] theorem State.opnd_deliver (s : State) (p : List Byte) (n : Nat) (i : Fin 5) :
    (s.deliver p n).opnd i = s.opnd i := rfl
@[simp] theorem State.opndNat_deliver (s : State) (p : List Byte) (n : Nat) (i : Fin 5) :
    (s.deliver p n).opndNat i = s.opndNat i := rfl
@[simp] theorem State.opndByte_deliver (s : State) (p : List Byte) (n : Nat) :
    (s.deliver p n).opndByte = s.opndByte := rfl
@[simp] theorem State.opndLow_deliver (s : State) (p : List Byte) (n : Nat) (w : Nat) (i : Fin 5) :
    (s.deliver p n).opndLow w i = s.opndLow w i := rfl
@[simp] theorem State.rowLen_deliver (s : State) (p : List Byte) (n : Nat) (r : Nat) :
    (s.deliver p n).rowLen r = s.rowLen r := rfl
@[simp] theorem State.opnd_storeRun (s : State) (src : Source) (off : Nat) (bs : List Byte) (i : Fin 5) :
    (s.storeRun src off bs).opnd i = s.opnd i := rfl
@[simp] theorem State.opndNat_storeRun (s : State) (src : Source) (off : Nat) (bs : List Byte) (i : Fin 5) :
    (s.storeRun src off bs).opndNat i = s.opndNat i := rfl
@[simp] theorem State.opndByte_storeRun (s : State) (src : Source) (off : Nat) (bs : List Byte) :
    (s.storeRun src off bs).opndByte = s.opndByte := rfl
@[simp] theorem State.opndLow_storeRun (s : State) (src : Source) (off : Nat) (bs : List Byte) (w : Nat) (i : Fin 5) :
    (s.storeRun src off bs).opndLow w i = s.opndLow w i := rfl
@[simp] theorem State.rowLen_storeRun (s : State) (src : Source) (off : Nat) (bs : List Byte) (r : Nat) :
    (s.storeRun src off bs).rowLen r = s.rowLen r := rfl

end Sys2Proof.Machine
end

