-- ==== Sys2Proof/Laws/Buffers.lean ====
section
/-! SUPPORT. Buffer bytes and bits after each shared operation (spec/20_memory.md R50, R55), and the runs of bits and bytes that
commands read. -/

namespace Sys2Proof.Machine

/-! ### Completing and failing touch no buffer -/

@[simp] theorem State.bufByte_complete (s : State) (x y : Word) (src : Source) (i : Nat) :
    (s.complete x y).bufByte src i = s.bufByte src i := rfl
@[simp] theorem State.bufByte_takeError (s : State) (c : ErrCode) (src : Source) (i : Nat) :
    (s.takeError c).bufByte src i = s.bufByte src i := rfl
@[simp] theorem State.rowBit_complete (s : State) (x y : Word) (r k : Nat) :
    (s.complete x y).rowBit r k = s.rowBit r k := rfl
@[simp] theorem State.outBit_complete (s : State) (x y : Word) (k : Nat) :
    (s.complete x y).outBit k = s.outBit k := rfl
@[simp] theorem State.message_complete (s : State) (x y : Word) (src : Source) (off n : Nat) :
    (s.complete x y).message src off n = s.message src off n := rfl
@[simp] theorem State.rowRun_complete (s : State) (x y : Word) (r start n : Nat) :
    (s.complete x y).rowRun r start n = s.rowRun r start n := rfl

/-! ### Runs of bits and bytes -/

theorem inRun_eq_true {base size off : Nat} : inRun base size off = true ↔ base ≤ off ∧ off < base + size := by
  simp [inRun]

theorem inRun_eq_false {base size off : Nat} : inRun base size off = false ↔ off < base ∨ base + size ≤ off := by
  simp [inRun]
  omega

@[simp] theorem State.length_rowRun (s : State) (r start n : Nat) : (s.rowRun r start n).length = n := by
  simp [State.rowRun]

theorem State.getD_rowRun (s : State) (r start : Nat) {n i : Nat} (h : i < n) :
    (s.rowRun r start n).getD i false = s.rowBit r (start + i) := by
  simp [State.rowRun, h]

@[simp] theorem State.length_message (s : State) (src : Source) (off n : Nat) : (s.message src off n).length = n := by
  simp [State.message]

theorem State.getD_message (s : State) (src : Source) (off : Nat) {n i : Nat} (h : i < n) :
    (s.message src off n).getD i 0 = s.bufByte src (off + i) := by
  simp [State.message, h]

theorem State.rowRun_congr {s t : State} {r start n : Nat}
    (h : ∀ i, i < n → s.rowBit r (start + i) = t.rowBit r (start + i)) : s.rowRun r start n = t.rowRun r start n :=
  List.map_congr_left fun i hi => h i (List.mem_range.1 hi)

theorem State.message_congr {s t : State} {src : Source} {off n : Nat}
    (h : ∀ i, i < n → s.bufByte src (off + i) = t.bufByte src (off + i)) :
    s.message src off n = t.message src off n :=
  List.map_congr_left fun i hi => h i (List.mem_range.1 hi)

/-- A run split at bit a. -/
theorem State.rowRun_add (s : State) (r start a b : Nat) :
    s.rowRun r start (a + b) = s.rowRun r start a ++ s.rowRun r (start + a) b := by
  simp [State.rowRun, List.range_add, Function.comp_def, Nat.add_assoc]

theorem State.rowRun_succ (s : State) (r start n : Nat) :
    s.rowRun r start (n + 1) = s.rowBit r start :: s.rowRun r (start + 1) n := by
  rw [Nat.add_comm, State.rowRun_add]
  simp [State.rowRun]

theorem State.drop_rowRun (s : State) (r start n d : Nat) :
    (s.rowRun r start n).drop d = s.rowRun r (start + d) (n - d) := by
  by_cases h : d ≤ n
  · obtain ⟨e, rfl⟩ := Nat.exists_eq_add_of_le h
    rw [State.rowRun_add, List.drop_left' (by simp), Nat.add_sub_cancel_left]
  · rw [List.drop_of_length_le (by simp; omega), show n - d = 0 by omega]
    rfl

theorem State.take_rowRun (s : State) (r start : Nat) {n d : Nat} (h : d ≤ n) :
    (s.rowRun r start n).take d = s.rowRun r start d := by
  obtain ⟨e, rfl⟩ := Nat.exists_eq_add_of_le h
  rw [State.rowRun_add, List.take_left' (by simp)]

/-! ### The payload write (R55) -/

theorem length_padded (p : List Byte) :
    ((p ++ List.replicate Config.outBytes 0).take Config.outBytes).length = Config.outBytes := by
  simp

theorem getD_padded (p : List Byte) {i : Nat} (h : i < Config.outBytes) :
    ((p ++ List.replicate Config.outBytes 0).take Config.outBytes).getD i 0 = p.getD i 0 := by
  rw [List.getD_eq_getElem?_getD, List.getElem?_take, if_pos h, List.getElem?_append]
  split
  · simp
  · next hp =>
    rw [List.getD_eq_default _ _ (by omega), List.getElem?_replicate]
    split <;> rfl

/-- After a payload write, byte i of OUT is byte i of the payload, and 0x00 beyond it. -/
theorem State.bufByte_deliver_out {s : State} (hw : Memory.wf s.mem = true) (p : List Byte) (n : Nat) {i : Nat}
    (h : i < Config.outBytes) : (s.deliver p n).bufByte .out i = p.getD i 0 := by
  simp only [State.bufByte, Source.capacity, Source.base, h, if_true, State.deliver_mem]
  rw [Memory.read_writeBytes hw, length_padded, if_pos (by omega), Nat.add_sub_cancel_left, getD_padded p h]

/-- A payload write changes no byte outside OUT. -/
theorem State.read_deliver_outside (s : State) (p : List Byte) (n : Nat) {off : Nat}
    (h : inRun Config.outBase Config.outBytes off = false) :
    Memory.read (s.deliver p n).mem off = Memory.read s.mem off := by
  rw [State.deliver_mem]
  apply Memory.read_writeBytes_of_not_mem
  rw [length_padded]
  simp only [inRun, Bool.and_eq_false_iff, decide_eq_false_iff_not] at h
  omega

theorem State.bufByte_deliver_row (s : State) (p : List Byte) (n r i : Nat) :
    (s.deliver p n).bufByte (.row r) i = s.bufByte (.row r) i := by
  unfold State.bufByte
  split
  · rw [State.read_deliver_outside]
    exact inRun_eq_false.2 (.inr (by simp only [Source.base, Config.rowBase, Config.outBase, Config.outBytes]; omega))
  · rfl

theorem State.rowBit_deliver (s : State) (p : List Byte) (n r k : Nat) :
    (s.deliver p n).rowBit r k = s.rowBit r k := by
  simp only [State.rowBit, State.bufByte_deliver_row]

theorem State.sameOutsideOut_deliver (s : State) (p : List Byte) (n : Nat) : sameOutsideOut s (s.deliver p n) :=
  fun _ h => s.read_deliver_outside p n h

theorem State.sameOutsideOut_deliverBits (s : State) (bits : List Bool) : sameOutsideOut s (s.deliverBits bits) :=
  s.sameOutsideOut_deliver _ _

theorem State.sameOutsideOut_deliverBytes (s : State) (bytes : List Byte) : sameOutsideOut s (s.deliverBytes bytes) :=
  s.sameOutsideOut_deliver _ _

/-- After a payload of bits, bit k of OUT is bit k of the payload, and 0 beyond it. -/
theorem State.outBit_deliverBits {s : State} (hw : Memory.wf s.mem = true) (bits : List Bool) {k : Nat}
    (h : k < 8 * Config.outBytes) : (s.deliverBits bits).outBit k = bits.getD k false := by
  unfold State.outBit State.deliverBits
  rw [State.bufByte_deliver_out hw _ _ (by omega), bitAt_pack]

theorem State.bufByte_deliverBytes {s : State} (hw : Memory.wf s.mem = true) (bytes : List Byte) {i : Nat}
    (h : i < Config.outBytes) : (s.deliverBytes bytes).bufByte .out i = bytes.getD i 0 :=
  State.bufByte_deliver_out hw _ _ h

/-! ### The in-place write -/

/-- What an in-place write does to every byte of a canonical memory. -/
theorem State.read_storeRun {s : State} (hw : Memory.wf s.mem = true) (src : Source) (off : Nat) (bs : List Byte)
    (h : off + bs.length ≤ src.capacity) (k : Nat) :
    Memory.read (s.storeRun src off bs).mem k =
      if src.base + off ≤ k ∧ k < src.base + off + bs.length then bs.getD (k - (src.base + off)) 0
      else Memory.read s.mem k := by
  rw [State.storeRun_mem, List.take_of_length_le (by omega), Memory.read_writeBytes hw]

/-- The frame of an in-place write, whatever the memory: bytes outside the buffer read as before. -/
theorem State.read_storeRun_outside (s : State) (src : Source) (off : Nat) (bs : List Byte) {k : Nat}
    (h : inRun src.base src.capacity k = false) :
    Memory.read (s.storeRun src off bs).mem k = Memory.read s.mem k := by
  rw [State.storeRun_mem]
  simp only [inRun, Bool.and_eq_false_iff, decide_eq_false_iff_not] at h
  by_cases hoff : off < src.capacity
  · apply Memory.read_writeBytes_of_not_mem
    rw [List.length_take]
    omega
  · rw [show src.capacity - off = 0 by omega, List.take_zero]
    rfl

/-- A byte of the written buffer after an in-place write. -/
theorem State.bufByte_storeRun {s : State} (hw : Memory.wf s.mem = true) (src : Source) (off : Nat) (bs : List Byte)
    (h : off + bs.length ≤ src.capacity) (i : Nat) :
    (s.storeRun src off bs).bufByte src i =
      if off ≤ i ∧ i < off + bs.length then bs.getD (i - off) 0 else s.bufByte src i := by
  unfold State.bufByte
  rw [State.read_storeRun hw src off bs h]
  by_cases hi : i < src.capacity
  · simp only [hi, if_true]
    by_cases hr : off ≤ i ∧ i < off + bs.length
    · rw [if_pos hr, if_pos (by omega), Nat.add_sub_add_left]
    · rw [if_neg hr, if_neg (by omega)]
  · simp only [hi, if_false]
    rw [if_neg (by omega)]

/-! ### The invariant, piece by piece -/

theorem State.inv_iff (s : State) : s.inv = true ↔
    Memory.wf s.mem = true ∧ (∀ c ∈ s.mem, isBuffer c.1 = true) ∧ s.outbits.toNat ≤ 8 * Config.outBytes ∧
      statusLegal s.status = true := by
  simp only [State.inv, Bool.and_eq_true, List.all_eq_true, decide_eq_true_iff, and_assoc]

theorem State.wf_of_inv {s : State} (h : s.inv = true) : Memory.wf s.mem = true := ((State.inv_iff s).1 h).1

theorem isBuffer_pat {i : Nat} (h : i < Config.patBytes) : isBuffer (Config.patBase + i) = true := by
  unfold Config.patBytes at h
  unfold Config.patBase
  interval_cases i <;> decide

theorem placeAt_out {off : Nat} (h : inRun Config.outBase Config.outBytes off = true) : placeAt off = .out := by
  have h' := h
  simp only [inRun, Bool.and_eq_true, decide_eq_true_iff, Config.outBase, Config.outBytes] at h'
  unfold placeAt
  rw [h]
  simp only [inRun, Config.cmdOffset, Config.statusOffset, Config.opndOffset, Config.r0Offset, Config.r1Offset,
    Config.nrowsOffset, Config.outbitsOffset, Config.patBase, Config.patBytes, Config.bitsOffset, Config.numRows,
    Bool.and_eq_true, decide_eq_true_iff, if_true]
  iterate 9 rw [if_neg (by omega)]

theorem placeAt_rows {off : Nat} (h : inRun Config.rowBase (Config.rowBytes * Config.numRows) off = true) :
    placeAt off = .rows := by
  have h' := h
  simp only [inRun, Bool.and_eq_true, decide_eq_true_iff, Config.rowBase, Config.rowBytes, Config.numRows] at h'
  unfold placeAt
  rw [h]
  simp only [inRun, Config.cmdOffset, Config.statusOffset, Config.opndOffset, Config.r0Offset, Config.r1Offset,
    Config.nrowsOffset, Config.outbitsOffset, Config.patBase, Config.patBytes, Config.bitsOffset, Config.numRows,
    Config.outBase, Config.outBytes, Bool.and_eq_true, decide_eq_true_iff, if_true]
  iterate 10 rw [if_neg (by omega)]

/-- A payload write keeps the memory canonical and among the buffer bytes. -/
theorem State.deliver_keeps_buffers {s : State} (hw : Memory.wf s.mem = true) (hb : ∀ c ∈ s.mem, isBuffer c.1 = true)
    (p : List Byte) (n : Nat) :
    Memory.wf (s.deliver p n).mem = true ∧ ∀ c ∈ (s.deliver p n).mem, isBuffer c.1 = true := by
  refine ⟨Memory.wf_writeBytes hw _ _, fun c hc => ?_⟩
  rcases Memory.mem_writeBytes hc with h | ⟨h1, h2⟩
  · exact hb c h
  · rw [length_padded] at h2
    rw [isBuffer, placeAt_out]
    simp only [inRun, Bool.and_eq_true, decide_eq_true_iff]
    omega

/-- An in-place write to OUT or to one of the 25 rows keeps the memory canonical and among the buffer bytes. -/
theorem State.storeRun_keeps_buffers {s : State} (hw : Memory.wf s.mem = true) (hb : ∀ c ∈ s.mem, isBuffer c.1 = true)
    (src : Source) (hsrc : ∀ r, src = .row r → r < Config.numRows) (off : Nat) (bs : List Byte) :
    Memory.wf (s.storeRun src off bs).mem = true ∧ ∀ c ∈ (s.storeRun src off bs).mem, isBuffer c.1 = true := by
  refine ⟨Memory.wf_writeBytes hw _ _, fun c hc => ?_⟩
  rcases Memory.mem_writeBytes hc with h | ⟨h1, h2⟩
  · exact hb c h
  · rw [List.length_take] at h2
    cases src with
    | out =>
      rw [isBuffer, placeAt_out]
      simp only [inRun, Bool.and_eq_true, decide_eq_true_iff, Source.base, Source.capacity] at *
      omega
    | row r =>
      have hr := hsrc r rfl
      rw [isBuffer, placeAt_rows]
      simp only [inRun, Bool.and_eq_true, decide_eq_true_iff, Source.base, Source.capacity, Config.rowBase, Config.rowBytes,
        Config.numRows] at *
      omega

end Sys2Proof.Machine
end

