-- ==== Sys2Proof/Laws/Command.lean ====
section
/-! SUPPORT. What a command can do, said once: its checks decide between one error and its effect (spec/60_exceptions.md R263 to
R265); and what the ways of writing STATUS do to its fields (spec/10_state.md R26). -/

namespace Sys2Proof.Machine

/-! ### STATUS -/

@[simp] theorem errOf_statusCompleted (st : Word) : errOf (statusCompleted st) = 0 := by
  apply BitVec.eq_of_getLsbD_eq
  intro i hi
  simp only [errOf, statusCompleted]
  interval_cases i <;> simp

@[simp] theorem stickyOf_statusCompleted (st : Word) : stickyOf (statusCompleted st) = stickyOf st := by
  simp [stickyOf, statusCompleted]

@[simp] theorem errOf_statusError (c : ErrCode) (st : Word) : errOf (statusError c st) = c.code := by
  apply BitVec.eq_of_getLsbD_eq
  intro i hi
  cases c <;> simp only [errOf, statusError, ErrCode.code, stickyMask] <;> interval_cases i <;> simp

@[simp] theorem stickyOf_statusError (c : ErrCode) (st : Word) : stickyOf (statusError c st) = true := by
  cases c <;> simp [stickyOf, statusError, ErrCode.code, stickyMask]

theorem ErrCode.code_ne_zero (c : ErrCode) : c.code ≠ 0 := by cases c <;> decide

/-- The reserved bits of STATUS, and STICKY, are not touched by a completing command. -/
theorem statusCompleted_getLsbD (st : Word) {k : Nat} (h : 4 ≤ k) :
    (statusCompleted st).getLsbD k = st.getLsbD k := by
  by_cases hk : k < 32
  · simp only [statusCompleted]
    interval_cases k <;> simp
  · rw [BitVec.getLsbD_of_ge _ _ (by omega), BitVec.getLsbD_of_ge _ _ (by omega)]

/-- The reserved bits of STATUS are not touched by an error. -/
theorem statusError_getLsbD (c : ErrCode) (st : Word) {k : Nat} (h : 4 ≤ k) (h8 : k ≠ 8) :
    (statusError c st).getLsbD k = st.getLsbD k := by
  by_cases hk : k < 32
  · simp only [statusError, stickyMask]
    cases c <;> simp only [ErrCode.code] <;> interval_cases k <;> first | exact absurd rfl h8 | simp
  · rw [BitVec.getLsbD_of_ge _ _ (by omega), BitVec.getLsbD_of_ge _ _ (by omega)]

theorem statusLegal_zero : statusLegal 0 = true := by decide

/-- STATUS is legal when its reserved bits are 0 and its code is one of the six. -/
theorem statusLegal_iff (st : Word) :
    statusLegal st = true ↔ (∀ k, 4 ≤ k → k ≠ 8 → st.getLsbD k = false) ∧ (errOf st).toNat ≤ 5 := by
  rw [statusLegal, Bool.and_eq_true, decide_eq_true_iff, beq_iff_eq]
  refine and_congr_left fun _ => ⟨fun h k h4 h8 => ?_, fun h => ?_⟩
  · by_cases hk : k < 32
    · have := congrArg (fun v : Word => v.getLsbD k) h
      simp only [statusMask] at this
      interval_cases k <;> first | exact absurd rfl h8 | simpa using this
    · exact BitVec.getLsbD_of_ge _ _ (by omega)
  · apply BitVec.eq_of_getLsbD_eq
    intro k hk
    by_cases h4 : 4 ≤ k ∧ k ≠ 8
    · rw [BitVec.getLsbD_and, h k h4.1 h4.2]; simp
    · simp only [statusMask]
      obtain rfl | hlt : k = 8 ∨ k < 4 := by omega
      · simp
      · interval_cases k <;> simp

theorem statusLegal_completed {st : Word} (h : statusLegal st = true) : statusLegal (statusCompleted st) = true := by
  rw [statusLegal_iff] at h ⊢
  exact ⟨fun k h4 h8 => (statusCompleted_getLsbD st h4).trans (h.1 k h4 h8), by simp⟩

theorem statusLegal_error {st : Word} (c : ErrCode) (h : statusLegal st = true) :
    statusLegal (statusError c st) = true := by
  rw [statusLegal_iff] at h ⊢
  exact ⟨fun k h4 h8 => (statusError_getLsbD c st h4 h8).trans (h.1 k h4 h8), by
    rw [errOf_statusError]; cases c <;> decide⟩

/-- What a host write does to STATUS: bit 8 of the value clears STICKY, nothing else. -/
theorem statusWritten_getLsbD (v st : Word) (k : Nat) :
    (statusWritten v st).getLsbD k = (st.getLsbD k && !(decide (k = 8) && stickyOf v)) := by
  unfold statusWritten
  cases hv : stickyOf v
  · simp
  · simp only [if_true, stickyMask]
    by_cases hk : k < 32
    · interval_cases k <;> simp
    · rw [BitVec.getLsbD_of_ge _ _ (by omega), BitVec.getLsbD_of_ge _ _ (by omega)]; rfl

theorem statusLegal_written (v : Word) {st : Word} (h : statusLegal st = true) :
    statusLegal (statusWritten v st) = true := by
  rw [statusLegal_iff] at h ⊢
  refine ⟨fun k h4 h8 => by rw [statusWritten_getLsbD, h.1 k h4 h8]; rfl, ?_⟩
  have : errOf (statusWritten v st) = errOf st := by
    apply BitVec.eq_of_getLsbD_eq
    intro i hi
    simp only [errOf, BitVec.getLsbD_extractLsb', statusWritten_getLsbD, hi, decide_true, Bool.true_and]
    simp [show ¬ i = 8 by omega]
  rw [this]; exact h.2

/-! ### Checks -/

@[simp] theorem firstError_nil : firstError [] = none := rfl

theorem firstError_cons_of_pass {c : Check} {cs : List Check} (h : c.fails = false) :
    firstError (c :: cs) = firstError cs := by simp [firstError, h]

theorem firstError_cons_of_fail {c : Check} {cs : List Check} (h : c.fails = true) :
    firstError (c :: cs) = some c.code := by simp [firstError, h]

theorem firstError_append_of_none {cs ds : List Check} (h : firstError cs = none) :
    firstError (cs ++ ds) = firstError ds := by
  induction cs with
  | nil => rfl
  | cons c cs ih =>
    by_cases hc : c.fails = true
    · simp [firstError, hc] at h
    · simp only [firstError, hc] at h
      simpa [firstError, hc] using ih h

theorem firstError_append_of_some {cs ds : List Check} {e : ErrCode} (h : firstError cs = some e) :
    firstError (cs ++ ds) = some e := by
  induction cs with
  | nil => simp at h
  | cons c cs ih =>
    by_cases hc : c.fails = true
    · simpa [firstError, hc] using h
    · simp only [firstError, hc] at h
      simpa [firstError, hc] using ih h

/-- A check list reports nothing exactly when no check of it fails. -/
theorem firstError_eq_none {cs : List Check} : firstError cs = none ↔ ∀ c ∈ cs, c.fails = false := by
  induction cs with
  | nil => simp
  | cons c cs ih => cases hc : c.fails <;> simp [firstError, hc, ih]

/-- The error a check list reports is the code of one of its checks. -/
theorem firstError_mem {cs : List Check} {e : ErrCode} (h : firstError cs = some e) : ∃ c ∈ cs, c.code = e := by
  induction cs with
  | nil => simp at h
  | cons c cs ih =>
    by_cases hc : c.fails = true
    · exact ⟨c, List.mem_cons_self, by simpa [firstError, hc] using h⟩
    · obtain ⟨d, hd, he⟩ := ih (by simpa [firstError, hc] using h)
      exact ⟨d, List.mem_cons_of_mem _ hd, he⟩

@[simp] theorem rangeCheck_fails (reach bound : Nat) : (rangeCheck reach bound).fails = decide (bound < reach) := rfl

@[simp] theorem rangeCheck_code (reach bound : Nat) : (rangeCheck reach bound).code = .range := rfl

@[simp] theorem symbolCheck_fails (w : Word) : (symbolCheck w).fails = decide (27 < symLen w) := rfl

@[simp] theorem symbolCheck_code (w : Word) : (symbolCheck w).code = .operand := rfl

/-- The common checks pass exactly when the row is ready. -/
theorem firstError_rowChecks_eq_none {s : State} {r : Nat} :
    firstError (rowChecks s r) = none ↔ s.rowReady r = true := by
  simp only [rowChecks, firstError, State.rowReady, Bool.and_eq_true, decide_eq_true_iff]
  split
  · simp; omega
  · split
    · simp; omega
    · split
      · simp; omega
      · simp; omega

theorem rowReady_iff {s : State} {r : Nat} :
    s.rowReady r = true ↔ s.nrows.toNat ≤ 25 ∧ r < s.nrows.toNat ∧ s.rowLen r ≤ 1024 := by
  simp [State.rowReady, Config.numRows, Config.rowBits, Config.rowBytes, and_assoc]

/-- A ready row is one of the 25 rows. -/
theorem rowReady_lt {s : State} {r : Nat} (h : s.rowReady r = true) : r < Config.numRows := by
  obtain ⟨h1, h2, -⟩ := rowReady_iff.1 h
  exact Nat.lt_of_lt_of_le h2 h1

theorem firstError_sourceChecks_eq_none {s : State} {src : Source} :
    firstError (sourceChecks s src) = none ↔ s.sourceReady src = true := by
  cases src with
  | row r => exact firstError_rowChecks_eq_none
  | out => simp [sourceChecks, State.sourceReady]

/-! ### Commands -/

/-- The two ways a command can end (R264): one error, or its effect. -/
theorem command_cases {checks : List Check} {effect : State → State} {s t : State}
    (h : command checks effect s = .next t) :
    (∃ c, firstError checks = some c ∧ t = s.takeError c) ∨ (firstError checks = none ∧ t = effect s) := by
  unfold command at h
  split at h
  · next c hc => exact .inl ⟨c, hc, by cases h; rfl⟩
  · next hc => exact .inr ⟨hc, by cases h; rfl⟩

theorem command_of_pass {checks : List Check} {effect : State → State} {s : State} (h : firstError checks = none) :
    command checks effect s = .next (effect s) := by simp [command, h]

theorem command_of_fail {checks : List Check} {effect : State → State} {s : State} {c : ErrCode}
    (h : firstError checks = some c) : command checks effect s = .next (s.takeError c) := by simp [command, h]

/-- A command on a row that is ready runs when its own checks pass. -/
theorem rowCommand_of_ready {r : Nat} {checks : State → List Check} {effect : State → State} {s : State}
    (hr : s.rowReady r = true) (hc : firstError (checks s) = none) : rowCommand r checks effect s = .next (effect s) :=
  command_of_pass (by rw [firstError_append_of_none (firstError_rowChecks_eq_none.2 hr), hc])

/-- A command on a row that is ready reports its own first failing check. -/
theorem rowCommand_of_check {r : Nat} {checks : State → List Check} {effect : State → State} {s : State} {c : ErrCode}
    (hr : s.rowReady r = true) (hc : firstError (checks s) = some c) :
    rowCommand r checks effect s = .next (s.takeError c) :=
  command_of_fail (by rw [firstError_append_of_none (firstError_rowChecks_eq_none.2 hr), hc])

/-- The two ways a command on a row can end; when it completes, the row was ready and its checks passed. -/
theorem rowCommand_cases {r : Nat} {checks : State → List Check} {effect : State → State} {s t : State}
    (h : rowCommand r checks effect s = .next t) :
    (∃ c, t = s.takeError c) ∨ (s.rowReady r = true ∧ firstError (checks s) = none ∧ t = effect s) := by
  rcases command_cases h with ⟨c, -, ht⟩ | ⟨hn, ht⟩
  · exact .inl ⟨c, ht⟩
  · cases hr : firstError (rowChecks s r) with
    | some e => rw [firstError_append_of_some hr] at hn; cases hn
    | none =>
      rw [firstError_append_of_none hr] at hn
      exact .inr ⟨firstError_rowChecks_eq_none.1 hr, hn, ht⟩

/-- A byte-addressed command whose source is ready and whose run fits has its effect. -/
theorem byteCommand_of_fits {src : Source} {effect : List Byte → State → State} {s : State}
    (hr : s.sourceReady src = true) (hf : s.runFits src = true) :
    byteCommand src effect s = .next (effect (s.message src (s.opndNat 0) (s.opndNat 1)) s) := by
  refine command_of_pass ?_
  rw [firstError_append_of_none (firstError_sourceChecks_eq_none.2 hr), firstError_cons_of_pass, firstError_nil]
  simpa [State.runFits] using hf

/-- The two ways a byte-addressed command can end; when it completes, its source was ready and its run fits. -/
theorem byteCommand_cases {src : Source} {effect : List Byte → State → State} {s t : State}
    (h : byteCommand src effect s = .next t) :
    (∃ c, t = s.takeError c) ∨
      (s.sourceReady src = true ∧ s.runFits src = true ∧
        t = effect (s.message src (s.opndNat 0) (s.opndNat 1)) s) := by
  rcases command_cases h with ⟨c, -, ht⟩ | ⟨hn, ht⟩
  · exact .inl ⟨c, ht⟩
  · cases hr : firstError (sourceChecks s src) with
    | some e => rw [firstError_append_of_some hr] at hn; cases hn
    | none =>
      rw [firstError_append_of_none hr] at hn
      refine .inr ⟨firstError_sourceChecks_eq_none.1 hr, ?_, ht⟩
      by_contra hf
      rw [firstError_cons_of_fail] at hn
      · cases hn
      · simp only [State.runFits, decide_eq_true_iff] at hf
        simp only [rangeCheck_fails, decide_eq_true_iff]
        omega

/-- A Checksum command whose source is ready and whose run fits returns its value and changes nothing else. -/
theorem checksum_of_fits {src : Source} {value : State → List Byte → Word} {s : State}
    (hr : s.sourceReady src = true) (hf : s.runFits src = true) :
    checksum src value s = .next (s.complete (value s (s.message src (s.opndNat 0) (s.opndNat 1))) 0) :=
  byteCommand_of_fits hr hf

/-- Whatever a Checksum command does, it changes result registers and STATUS only. -/
theorem checksum_frame {src : Source} {value : State → List Byte → Word} {s t : State}
    (h : checksum src value s = .next t) : t = { s with r0 := t.r0, r1 := t.r1, status := t.status } := by
  rcases byteCommand_cases h with ⟨c, rfl⟩ | ⟨-, -, rfl⟩ <;> rfl

end Sys2Proof.Machine
end

