-- ==== Sys2Proof/Laws/Decoders.lean ====
section
/-! SUPPORT. What the row decoders read from a run of bits, each said once by position: the Manchester decoders
(spec/42_manchester.md R131, R135), the frame decoders and SYMBOLS (spec/43_framing_decoders.md R150 to R159). -/

namespace Sys2Proof.Machine

/-! ### MANCH -/

/-- Everything `manchCells` does: how many cells it takes, why it stops, and the bit of each cell (R131). -/
theorem manchCells_spec (conv : Bool) (max : Nat) (bits : List Bool) :
    let d := (manchCells conv max bits).length
    d ≤ max ∧ 2 * d ≤ bits.length ∧
    (∀ j, j < d → bits.getD (2 * j) false ≠ bits.getD (2 * j + 1) false ∧
      (manchCells conv max bits).getD j false = (bits.getD (2 * j + 1) false ^^ conv)) ∧
    (d = max ∨ bits.length < 2 * d + 2 ∨ bits.getD (2 * d) false = bits.getD (2 * d + 1) false) := by
  induction max generalizing bits with
  | zero => simp [manchCells]
  | succ max ih =>
    match bits with
    | [] => simp [manchCells]
    | [_] => simp [manchCells]
    | a :: b :: rest =>
      by_cases hab : a = b
      · simp [manchCells, hab]
      · obtain ⟨h1, h2, h3, h4⟩ := ih rest
        simp only [manchCells, hab, if_false, List.length_cons]
        refine ⟨by omega, by omega, fun j hj => ?_, ?_⟩
        · cases j with
          | zero => exact ⟨by simpa using hab, by simp⟩
          | succ j =>
            have := h3 j (by omega)
            rw [show 2 * (j + 1) = 2 * j + 1 + 1 by omega]
            simpa using this
        · rw [show ∀ n, 2 * (n + 1) = 2 * n + 1 + 1 by omega]
          rcases h4 with h | h | h
          · exact .inl (by omega)
          · exact .inr (.inl (by omega))
          · exact .inr (.inr (by simpa using h))

/-- The convention only complements the decoded bits (R131, R74). -/
theorem manchCells_not (conv : Bool) (max : Nat) (bits : List Bool) :
    manchCells (!conv) max bits = (manchCells conv max bits).map (!·) := by
  induction max generalizing bits with
  | zero => simp [manchCells]
  | succ max ih =>
    match bits with
    | [] => simp [manchCells]
    | [_] => simp [manchCells]
    | a :: b :: rest =>
      simp only [manchCells]
      split
      · rfl
      · simp [ih]

/-- Complementing the source complements what MANCH decodes (R131). -/
theorem manchCells_map_not (conv : Bool) (max : Nat) (bits : List Bool) :
    manchCells conv max (bits.map (!·)) = (manchCells conv max bits).map (!·) := by
  induction max generalizing bits with
  | zero => simp [manchCells]
  | succ max ih =>
    match bits with
    | [] => simp [manchCells]
    | [_] => simp [manchCells]
    | a :: b :: rest =>
      simp only [manchCells, List.map_cons, Bool.not_inj_iff]
      split
      · rfl
      · simp [ih]

/-! ### DMANCH -/

/-- Everything `dmanchCells` does (R135, R136). `prev` is the level the cell before the run ended on, if there is one. -/
theorem dmanchCells_spec (max : Nat) (prev : Option Bool) (bits : List Bool) :
    let d := (dmanchCells max prev bits).length
    d ≤ max ∧ 2 * d ≤ bits.length ∧
    (∀ j, j < d → (dmanchCells max prev bits).getD j false = (bits.getD (2 * j) false == bits.getD (2 * j + 1) false)) ∧
    (∀ j, j + 1 < d → bits.getD (2 * j + 1) false ≠ bits.getD (2 * j + 2) false) ∧
    (0 < d → prev ≠ some (bits.getD 0 false)) ∧
    (d = max ∨ bits.length < 2 * d + 2 ∨
      (if d = 0 then prev else some (bits.getD (2 * d - 1) false)) = some (bits.getD (2 * d) false)) := by
  induction max generalizing prev bits with
  | zero => simp [dmanchCells]
  | succ max ih =>
    match bits with
    | [] => simp [dmanchCells]
    | [_] => simp [dmanchCells]
    | a :: b :: rest =>
      by_cases hp : prev = some a
      · simp [dmanchCells, hp]
      · obtain ⟨h1, h2, h3, h4, h5, h6⟩ := ih (some b) rest
        simp only [dmanchCells, hp, if_false, List.length_cons]
        refine ⟨by omega, by omega, fun j hj => ?_, fun j hj => ?_, fun _ => by simpa using hp, ?_⟩
        · cases j with
          | zero => simp
          | succ j =>
            have := h3 j (by omega)
            rw [show 2 * (j + 1) = 2 * j + 1 + 1 by omega]
            simpa using this
        · cases j with
          | zero =>
            have := h5 (by omega)
            simpa using this
          | succ j =>
            have := h4 j (by omega)
            rw [show 2 * (j + 1) = 2 * j + 1 + 1 by omega]
            simpa using this
        · rcases h6 with h | h | h
          · exact .inl (by omega)
          · exact .inr (.inl (by omega))
          · refine .inr (.inr ?_)
            rw [if_neg (by omega)]
            generalize (dmanchCells max (some b) rest).length = d at h ⊢
            cases d with
            | zero => simpa using h
            | succ d =>
              rw [if_neg (by omega)] at h
              rw [show 2 * (d + 1) - 1 = 2 * d + 1 by omega, show 2 * (d + 1) = 2 * d + 1 + 1 by omega] at h
              rw [show 2 * (d + 1 + 1) - 1 = 2 * d + 1 + 1 + 1 by omega, show 2 * (d + 1 + 1) = 2 * d + 1 + 1 + 1 + 1 by omega]
              simpa using h

/-- DMANCH does not see a complemented source (R135). -/
theorem dmanchCells_map_not (max : Nat) (prev : Option Bool) (bits : List Bool) :
    dmanchCells max (prev.map (!·)) (bits.map (!·)) = dmanchCells max prev bits := by
  induction max generalizing prev bits with
  | zero => simp [dmanchCells]
  | succ max ih =>
    match bits with
    | [] => simp [dmanchCells]
    | [_] => simp [dmanchCells]
    | a :: b :: rest =>
      have hb := ih (some b) rest
      rw [Option.map_some] at hb
      have hp : prev.map (!·) = some (!a) ↔ prev = some a := by
        cases prev <;> simp
      simp only [dmanchCells, List.map_cons, hp]
      split
      · rfl
      · rw [hb]; cases a <;> cases b <;> rfl

/-! ### Frames -/

/-- Everything a frame decoder does: the good frames up to the first bad one, at most `count` (R150, R153, R156, R161). -/
theorem unframe_spec (width : Nat) (frame : List Bool → Option Byte) (count : Nat) (bits : List Bool) :
    let c := (unframe width frame count bits).length
    c ≤ count ∧
    (∀ j, j < c → frame ((bits.drop (width * j)).take width) = some ((unframe width frame count bits).getD j 0)) ∧
    (c = count ∨ frame ((bits.drop (width * c)).take width) = none) := by
  induction count generalizing bits with
  | zero => simp [unframe]
  | succ count ih =>
    cases hf : frame (bits.take width) with
    | none => simp [unframe, hf]
    | some b =>
      obtain ⟨h1, h2, h3⟩ := ih (bits.drop width)
      have hs : ∀ j, width * (j + 1) = width + width * j := fun j => by rw [Nat.mul_succ, Nat.add_comm]
      simp only [unframe, hf, List.length_cons]
      refine ⟨by omega, fun j hj => ?_, ?_⟩
      · cases j with
        | zero => simpa using hf
        | succ j =>
          have := h2 j (by omega)
          rw [List.drop_drop, ← hs] at this
          simpa using this
      · rcases h3 with h | h
        · exact .inl (by omega)
        · rw [List.drop_drop, ← hs] at h
          exact .inr h

/-! ### SYMBOLS -/

theorem length_symbolData_le (zero one sync : Word) (turns : Nat) (started : Bool) (rest : List Bool) :
    (symbolData zero one sync turns started rest).length ≤ turns := by
  induction turns generalizing started rest with
  | zero => simp [symbolData]
  | succ turns ih =>
    simp only [symbolData]
    split
    · simpa using ih true _
    · split
      · simpa using ih true _
      · split
        · split
          · simp
          · exact Nat.le_succ_of_le (ih false _)
        · simp

@[simp] theorem length_symBits (w : Word) : (symBits w).length = symLen w := by simp [symBits]

theorem stands_iff {w : Word} {rest : List Bool} : stands w rest = true ↔ symLen w ≠ 0 ∧ symBits w <+: rest := by
  simp [stands, List.isPrefixOf_iff_prefix]

/-- Where a symbol stands it consumes at least one bit. -/
theorem length_drop_of_stands {w : Word} {rest : List Bool} (h : stands w rest = true) :
    (rest.drop (symLen w)).length < rest.length := by
  obtain ⟨h1, h2⟩ := stands_iff.1 h
  have := h2.length_le
  rw [length_symBits] at this
  rw [List.length_drop]
  omega

theorem not_stands_nil (w : Word) : stands w [] = false := by
  cases h : stands w [] with
  | false => rfl
  | true => exact absurd (length_drop_of_stands h) (by simp)

/-- With as many turns as bits, `symbolData` is the reading that R159's loop gives. -/
theorem symbolData_reads (zero one sync : Word) (turns : Nat) (started : Bool) (rest : List Bool)
    (h : rest.length ≤ turns) :
    SymbolReading zero one sync started rest (symbolData zero one sync turns started rest) := by
  induction turns generalizing started rest with
  | zero =>
    obtain rfl : rest = [] := List.length_eq_zero_iff.1 (by omega)
    exact .stop (not_stands_nil _) (not_stands_nil _) (not_stands_nil _)
  | succ turns ih =>
    simp only [symbolData]
    split
    · next hz => exact .zero hz (ih _ _ (by have := length_drop_of_stands hz; omega))
    · next hz =>
      split
      · next ho => exact .one (by simpa using hz) ho (ih _ _ (by have := length_drop_of_stands ho; omega))
      · next ho =>
        split
        · next hs =>
          cases started with
          | true => exact .finish (by simpa using hz) (by simpa using ho) hs
          | false =>
            exact .skip (by simpa using hz) (by simpa using ho) hs (ih _ _ (by have := length_drop_of_stands hs; omega))
        · next hs => exact .stop (by simpa using hz) (by simpa using ho) (by simpa using hs)

/-- A run of bits has one reading. -/
theorem SymbolReading_unique {zero one sync : Word} {started : Bool} {rest data other : List Bool}
    (h : SymbolReading zero one sync started rest data) (h' : SymbolReading zero one sync started rest other) :
    other = data := by
  induction h generalizing other with
  | zero hz _ ih => cases h' <;> simp_all
  | one hz ho _ ih => cases h' <;> simp_all
  | skip hz ho hs _ ih => cases h' <;> simp_all
  | finish hz ho hs => cases h' <;> simp_all
  | stop hz ho hs => cases h' <;> simp_all

end Sys2Proof.Machine
end

