-- ==== Sys2Proof/Laws/Exec.lean ====
section
/-! SUPPORT. The one shape every command has (spec/60_exceptions.md R263 to R265), proved once over all 44 constructors: the common
checks of its row, then its own checks, then one effect that clears ERR and keeps what the host owns. -/

namespace Sys2Proof.Machine

/-- Steps 2 to 4 of R263 for a command: made for the row it names, if any. -/
def Instr.commonChecks (i : Instr) (s : State) : List Check :=
  match i.namedRow with
  | some row => rowChecks s row
  | none => []

/-- What every completing command keeps, and what it does to STATUS (R21, R27, R28, R264). -/
structure Completes (s t : State) : Prop where
  status : t.status = statusCompleted s.status
  a : t.a = s.a
  cmd : t.cmd = s.cmd
  nrows : t.nrows = s.nrows
  bits : t.bits = s.bits
  pending : t.pending = s.pending
  readData : t.readData = s.readData

theorem Completes.complete (s : State) (x y : Word) : Completes s (s.complete x y) := ⟨rfl, rfl, rfl, rfl, rfl, rfl, rfl⟩

theorem Completes.deliver_complete (s : State) (p : List Byte) (n : Nat) (x y : Word) :
    Completes s ((s.deliver p n).complete x y) := ⟨rfl, rfl, rfl, rfl, rfl, rfl, rfl⟩

theorem Completes.storeRun_complete (s : State) (src : Source) (off : Nat) (bs : List Byte) (x y : Word) :
    Completes s ((s.storeRun src off bs).complete x y) := ⟨rfl, rfl, rfl, rfl, rfl, rfl, rfl⟩

/-- INVERT's writes change the memory and nothing else. -/
theorem State.invertRows_eq (s : State) (n : Nat) : s.invertRows n = { s with mem := (s.invertRows n).mem } := by
  induction n with
  | zero => rfl
  | succ n ih =>
    have step : s.invertRows (n + 1) = (s.invertRows n).storeRun (.row n) 0 ((s.invertRows n).invertedRow n) := by
      simp [State.invertRows, List.range_succ]
    rw [step]
    generalize (s.invertRows n).invertedRow n = bs
    rw [ih]
    rfl

theorem Completes.invertRows_complete (s : State) (n : Nat) : Completes s ((s.invertRows n).complete 0 0) := by
  rw [State.invertRows_eq]
  exact ⟨rfl, rfl, rfl, rfl, rfl, rfl, rfl⟩

/-! The table of R275, by class of command. -/

theorem config_mem_tabledErrors {i : Instr} (h : (i.namedRow.isSome || i == .invert) = true) :
    ErrCode.config ∈ i.tabledErrors := by simp only [Instr.tabledErrors, h]; simp

theorem row_mem_tabledErrors {i : Instr} (h : i.namedRow.isSome = true) : ErrCode.row ∈ i.tabledErrors := by
  simp only [Instr.tabledErrors, h]; simp

theorem range_mem_tabledErrors {i : Instr} (h : (i.namedRow.isSome || i.byteSource.isSome) = true) :
    ErrCode.range ∈ i.tabledErrors := by simp only [Instr.tabledErrors, h]; simp

theorem operand_mem_tabledErrors {i : Instr} (h : (i.mnemonic == "SEARCH" || i.mnemonic == "SYMBOLS") = true) :
    ErrCode.operand ∈ i.tabledErrors := by simp only [Instr.tabledErrors, h]; simp

/-- The shape of a command: its checks in the order of R263, each own check raising an error the table of R275 marks for it, and
its effect. -/
def HasShape (i : Instr) (s : State) : Prop :=
  ∃ own t, exec i s = command (Instr.commonChecks i s ++ own) (fun _ => t) s ∧ Completes s t ∧
    ∀ c ∈ own, c.code ∈ i.tabledErrors

theorem hasShape_checksum {i : Instr} {s : State} (src : Source) (value : State → List Byte → Word)
    (he : exec i s = checksum src value s) (hc : Instr.commonChecks i s = sourceChecks s src)
    (hr : ErrCode.range ∈ i.tabledErrors) : HasShape i s :=
  ⟨_, _, by rw [he, hc]; rfl, Completes.complete s _ 0, by simpa using hr⟩

theorem hasShape_of_exec (i : Instr) (s : State) : HasShape i s := by
  cases i with
  | search row => exact ⟨_, _, rfl, Completes.complete s _ 0, 
      by simp [range_mem_tabledErrors, operand_mem_tabledErrors, Instr.namedRow, Instr.mnemonic]⟩
  | extract row => exact ⟨_, _, rfl, Completes.deliver_complete s _ _ _ 0, 
      by simp [range_mem_tabledErrors, Instr.namedRow, Instr.byteSource]⟩
  | getbit row => exact ⟨_, _, rfl, Completes.complete s _ 0, 
      by simp [range_mem_tabledErrors, Instr.namedRow, Instr.byteSource]⟩
  | getbyte row => exact ⟨_, _, rfl, Completes.complete s _ 0, 
      by simp [range_mem_tabledErrors, Instr.namedRow, Instr.byteSource]⟩
  | invert => exact ⟨_, _, rfl, Completes.invertRows_complete s _, by simp [config_mem_tabledErrors]⟩
  | rev8 => exact ⟨[], _, rfl, Completes.complete s _ 0, by simp⟩
  | refl4 => exact ⟨[], _, rfl, Completes.complete s _ 0, by simp⟩
  | manch row conv zb => exact ⟨_, _, rfl, Completes.deliver_complete s _ _ _ _, 
      by simp [range_mem_tabledErrors, Instr.namedRow, Instr.byteSource]⟩
  | dmanch row => exact ⟨_, _, rfl, Completes.deliver_complete s _ _ _ _, 
      by simp [range_mem_tabledErrors, Instr.namedRow, Instr.byteSource]⟩
  | uart8n1 row => exact ⟨_, _, rfl, Completes.deliver_complete s _ _ _ 0, 
      by simp [range_mem_tabledErrors, Instr.namedRow, Instr.byteSource]⟩
  | uart8o1 row => exact ⟨_, _, rfl, Completes.deliver_complete s _ _ _ 0, 
      by simp [range_mem_tabledErrors, Instr.namedRow, Instr.byteSource]⟩
  | nib4b1s row => exact ⟨_, _, rfl, Completes.deliver_complete s _ _ _ 0, 
      by simp [range_mem_tabledErrors, Instr.namedRow, Instr.byteSource]⟩
  | symbols row => exact ⟨_, _, rfl, Completes.deliver_complete s _ _ _ 0, 
      by simp [range_mem_tabledErrors, operand_mem_tabledErrors, Instr.namedRow, Instr.mnemonic]⟩
  | whiten row refl => exact ⟨_, _, rfl, Completes.storeRun_complete s _ _ _ 0 0, 
      by simp [range_mem_tabledErrors, Instr.namedRow, Instr.byteSource]⟩
  | whitenOut refl => exact ⟨_, _, rfl, Completes.storeRun_complete s _ _ _ 0 0, 
      by simp [range_mem_tabledErrors, Instr.namedRow, Instr.byteSource]⟩
  | parity8 => exact ⟨[], _, rfl, Completes.complete s _ 0, by simp⟩
  | crc4 row | crc7 row | crc8 row | crc8le row | crc16 row | crc16lsb row | lfsr8 row | lfsr8rev row | lfsr8rfl row
  | lfsr16 row => exact hasShape_checksum (.row row) _ rfl rfl (range_mem_tabledErrors rfl)
  | crc4Out | crc7Out | crc8Out | crc8leOut | crc16Out | crc16lsbOut | lfsr8Out | lfsr8revOut | lfsr8rflOut | lfsr16Out
    => exact hasShape_checksum .out _ rfl rfl (range_mem_tabledErrors rfl)
  | parityb row =>
    exact hasShape_checksum (.row row) (fun _ msg => wordOfBool (parityBytes msg)) rfl rfl (range_mem_tabledErrors rfl)
  | xorb row =>
    exact hasShape_checksum (.row row) (fun _ msg => (xorBytes msg).setWidth 32) rfl rfl (range_mem_tabledErrors rfl)
  | addb row =>
    exact hasShape_checksum (.row row) (fun _ msg => BitVec.ofNat 32 (addBytes msg)) rfl rfl (range_mem_tabledErrors rfl)
  | addn row =>
    exact hasShape_checksum (.row row) (fun _ msg => BitVec.ofNat 32 (addNibbles msg)) rfl rfl (range_mem_tabledErrors rfl)
  | paritybOut =>
    exact hasShape_checksum .out (fun _ msg => wordOfBool (parityBytes msg)) rfl rfl (range_mem_tabledErrors rfl)
  | xorbOut =>
    exact hasShape_checksum .out (fun _ msg => (xorBytes msg).setWidth 32) rfl rfl (range_mem_tabledErrors rfl)
  | addbOut =>
    exact hasShape_checksum .out (fun _ msg => BitVec.ofNat 32 (addBytes msg)) rfl rfl (range_mem_tabledErrors rfl)
  | addnOut =>
    exact hasShape_checksum .out (fun _ msg => BitVec.ofNat 32 (addNibbles msg)) rfl rfl (range_mem_tabledErrors rfl)

/-! ### What every command can do -/

/-- The common checks decide first: when one of them fails, that is the command's end (R263). -/
theorem exec_of_common_fail {i : Instr} {s : State} {c : ErrCode} (h : firstError (Instr.commonChecks i s) = some c) :
    exec i s = .next (s.takeError c) := by
  obtain ⟨own, t, he, -, -⟩ := hasShape_of_exec i s
  rw [he, command_of_fail (firstError_append_of_some h)]

/-- A command completes or takes an error that the table of R275 marks for it. -/
theorem exec_ends (i : Instr) (s : State) :
    (∃ t, exec i s = .next t ∧ Completes s t) ∨ ∃ c ∈ i.tabledErrors, exec i s = .next (s.takeError c) := by
  obtain ⟨own, t, he, hc, hown⟩ := hasShape_of_exec i s
  cases hf : firstError (Instr.commonChecks i s ++ own) with
  | none => exact .inl ⟨t, he.trans (command_of_pass hf), hc⟩
  | some e =>
    refine .inr ⟨e, ?_, he.trans (command_of_fail hf)⟩
    obtain ⟨c, hcm, rfl⟩ := firstError_mem hf
    rcases List.mem_append.1 hcm with h | h
    · unfold Instr.commonChecks at h
      cases hn : i.namedRow with
      | none => rw [hn] at h; cases h
      | some row =>
        rw [hn] at h
        simp only [rowChecks, List.mem_cons, List.not_mem_nil, or_false] at h
        rcases h with rfl | rfl | rfl
        · exact config_mem_tabledErrors (by simp [hn])
        · exact row_mem_tabledErrors (by simp [hn])
        · exact config_mem_tabledErrors (by simp [hn])
    · exact hown c h

/-- A next state of a command, as one of its two kinds. -/
theorem exec_cases {i : Instr} {s t : State} (h : exec i s = .next t) :
    Completes s t ∨ ∃ c ∈ i.tabledErrors, t = s.takeError c := by
  rcases exec_ends i s with ⟨u, hu, hc⟩ | ⟨c, hc, hu⟩
  · rw [hu] at h; cases h; exact .inl hc
  · rw [hu] at h; cases h; exact .inr ⟨c, hc, rfl⟩

/-- Every command of the Checksum group is a `checksum` on its source; WHITEN is the one other byte-addressed command (R72). -/
theorem exec_of_byteSource {i : Instr} {src : Source} (h : i.byteSource = some src) :
    (∃ value, ∀ s, exec i s = checksum src value s) ∨
      (i.mutatesInPlace = true ∧ ∃ refl, ∀ s, exec i s = whitened src refl s) := by
  cases i with
  | whiten row refl => cases h; exact .inr ⟨rfl, refl, fun _ => rfl⟩
  | whitenOut refl => cases h; exact .inr ⟨rfl, refl, fun _ => rfl⟩
  | crc4 row | crc4Out => cases h; exact .inl ⟨crcMsbValue 4, fun _ => rfl⟩
  | crc7 row | crc7Out => cases h; exact .inl ⟨crcMsbValue 7, fun _ => rfl⟩
  | crc8 row | crc8Out => cases h; exact .inl ⟨crcMsbValue 8, fun _ => rfl⟩
  | crc8le row | crc8leOut => cases h; exact .inl ⟨crc8leValue, fun _ => rfl⟩
  | crc16 row | crc16Out => cases h; exact .inl ⟨crcMsbValue 16, fun _ => rfl⟩
  | crc16lsb row | crc16lsbOut => cases h; exact .inl ⟨crc16lsbValue, fun _ => rfl⟩
  | lfsr8 row | lfsr8Out => cases h; exact .inl ⟨digest8Value lfsr8, fun _ => rfl⟩
  | lfsr8rev row | lfsr8revOut => cases h; exact .inl ⟨digest8Value lfsr8rev, fun _ => rfl⟩
  | lfsr8rfl row | lfsr8rflOut => cases h; exact .inl ⟨digest8Value lfsr8rfl, fun _ => rfl⟩
  | lfsr16 row | lfsr16Out => cases h; exact .inl ⟨lfsr16Value, fun _ => rfl⟩
  | parityb row | paritybOut => cases h; exact .inl ⟨fun _ msg => wordOfBool (parityBytes msg), fun _ => rfl⟩
  | xorb row | xorbOut => cases h; exact .inl ⟨fun _ msg => (xorBytes msg).setWidth 32, fun _ => rfl⟩
  | addb row | addbOut => cases h; exact .inl ⟨fun _ msg => BitVec.ofNat 32 (addBytes msg), fun _ => rfl⟩
  | addn row | addnOut => cases h; exact .inl ⟨fun _ msg => BitVec.ofNat 32 (addNibbles msg), fun _ => rfl⟩
  | search | extract | getbit | getbyte | invert | rev8 | refl4 | manch | dmanch | uart8n1 | uart8o1 | nib4b1s | symbols
  | parity8 => cases h

/-- A byte-addressed command whose run passes the valid extent of a ready source ends with ERR_RANGE (R54). -/
theorem byteCommand_of_beyond {src : Source} {effect : List Byte → State → State} {s : State}
    (hr : s.sourceReady src = true) (h : s.extent src < s.opndNat 0 + s.opndNat 1) :
    byteCommand src effect s = .next (s.takeError .range) := by
  apply command_of_fail
  rw [firstError_append_of_none (firstError_sourceChecks_eq_none.2 hr), firstError_cons_of_fail]
  · rfl
  · simpa using h

/-- What a command that neither produces a payload nor works in place can do: return two values, or take an error. -/
theorem exec_readOnly {i : Instr} {s t : State} (hp : i.writesPayload = false) (hm : i.mutatesInPlace = false)
    (h : exec i s = .next t) : (∃ x y, t = s.complete x y) ∨ ∃ c, t = s.takeError c := by
  cases hs : i.byteSource with
  | some src =>
    rcases exec_of_byteSource hs with ⟨value, he⟩ | ⟨hm', -⟩
    · rw [he] at h
      rcases byteCommand_cases h with ⟨c, rfl⟩ | ⟨-, -, rfl⟩
      · exact .inr ⟨c, rfl⟩
      · exact .inl ⟨_, _, rfl⟩
    · rw [hm'] at hm; cases hm
  | none =>
    cases i <;> simp only [Instr.writesPayload, Instr.mutatesInPlace, Instr.byteSource, reduceCtorEq] at hp hm hs
    case search | getbit | getbyte =>
      simp only [exec, execSearch, execGetbit, execGetbyte] at h
      rcases rowCommand_cases h with ⟨c, rfl⟩ | ⟨-, -, rfl⟩
      · exact .inr ⟨c, rfl⟩
      · exact .inl ⟨_, _, rfl⟩
    all_goals cases h; exact .inl ⟨_, _, rfl⟩

/-- A payload that R55 allows: its valid bits fit OUT, and every bit at or beyond its valid length is 0 (R35). -/
def PayloadFits (p : List Byte) (n : Nat) : Prop :=
  n ≤ 8 * Config.outBytes ∧ ∀ k, n ≤ k → bitAt (p.getD (k / 8) 0) k = false

theorem payloadFits_pack {bits : List Bool} (h : bits.length ≤ 8 * Config.outBytes) : PayloadFits (pack bits) bits.length :=
  ⟨h, fun k hk => by rw [bitAt_pack, List.getD_eq_default _ _ hk]⟩

theorem payloadFits_bytes {bytes : List Byte} (h : 8 * bytes.length ≤ 8 * Config.outBytes) :
    PayloadFits bytes (8 * bytes.length) :=
  ⟨h, fun k hk => by rw [List.getD_eq_default _ _ (by omega)]; exact bitAt_zero k⟩

/-- The checks of a command whose operands must lie in its row passed. -/
theorem le_of_rangeCheck {reach bound : Nat} (h : firstError [rangeCheck reach bound] = none) : reach ≤ bound := by
  simpa using firstError_eq_none.1 h

theorem framed_cases {row width : Nat} {frame : List Bool → Option Byte} {s t : State} (hw : 5 ≤ width)
    (h : framed row width frame s = .next t) :
    (∃ p n x y, PayloadFits p n ∧ t = (s.deliver p n).complete x y) ∨ ∃ c, t = s.takeError c := by
  rcases rowCommand_cases h with ⟨c, rfl⟩ | ⟨hr, hc, rfl⟩
  · exact .inr ⟨c, rfl⟩
  · refine .inl ⟨_, _, _, _, payloadFits_bytes ?_, rfl⟩
    have h1 := le_of_rangeCheck hc
    have h2 := (rowReady_iff.1 hr).2.2
    have h3 := (unframe_spec width frame (s.opndNat 1 / width) (s.rowRun row (s.opndNat 0) (s.opndNat 1))).1
    have h4 : s.opndNat 1 / width ≤ s.opndNat 1 / 5 := Nat.div_le_div_left hw (by decide)
    simp only [Config.outBytes]
    omega

/-- What a payload-producing command can do: deliver a payload that fits and return two values, or take an error. -/
theorem exec_payload {i : Instr} {s t : State} (hp : i.writesPayload = true) (h : exec i s = .next t) :
    (∃ p n x y, PayloadFits p n ∧ t = (s.deliver p n).complete x y) ∨ ∃ c, t = s.takeError c := by
  cases i <;> simp only [Instr.writesPayload, reduceCtorEq] at hp <;>
    simp only [exec, execExtract, execManch, execDmanch, execUart8n1, execUart8o1, execNib4b1s, execSymbols] at h
  case uart8n1 | uart8o1 | nib4b1s => exact framed_cases (by decide) h
  case extract row =>
    rcases rowCommand_cases h with ⟨c, rfl⟩ | ⟨hr, hc, rfl⟩
    · exact .inr ⟨c, rfl⟩
    · refine .inl ⟨_, _, _, _, payloadFits_pack ?_, rfl⟩
      have h1 := le_of_rangeCheck hc
      have h2 := (rowReady_iff.1 hr).2.2
      rw [State.length_rowRun]
      simp only [Config.outBytes]
      omega
  case manch row conv zb =>
    rcases rowCommand_cases h with ⟨c, rfl⟩ | ⟨hr, hc, rfl⟩
    · exact .inr ⟨c, rfl⟩
    · refine .inl ⟨_, _, _, _, payloadFits_pack ?_, rfl⟩
      have h2 := (rowReady_iff.1 hr).2.2
      have h3 := (manchCells_spec conv (s.opndNat 1) (s.rowTail row (s.opndNat 0))).2.1
      rw [State.rowTail, State.length_rowRun] at h3
      simp only [List.length_append, Config.outBytes, State.rowTail]
      split <;> simp only [List.length_cons, List.length_nil] <;> omega
  case dmanch row =>
    rcases rowCommand_cases h with ⟨c, rfl⟩ | ⟨hr, hc, rfl⟩
    · exact .inr ⟨c, rfl⟩
    · refine .inl ⟨_, _, _, _, payloadFits_pack ?_, rfl⟩
      have h2 := (rowReady_iff.1 hr).2.2
      have h3 := (dmanchCells_spec (s.opndNat 1) none (s.rowTail row (s.opndNat 0))).2.1
      rw [State.rowTail, State.length_rowRun] at h3
      simp only [List.nil_append, Config.outBytes, State.rowTail]
      omega
  case symbols row =>
    rcases rowCommand_cases h with ⟨c, rfl⟩ | ⟨hr, hc, rfl⟩
    · exact .inr ⟨c, rfl⟩
    · refine .inl ⟨_, _, _, _, payloadFits_pack ?_, rfl⟩
      have h1 := firstError_eq_none.1 hc (rangeCheck (s.opndNat 0 + s.opndNat 1) (s.rowLen row)) (by simp)
      rw [rangeCheck_fails, decide_eq_false_iff_not] at h1
      have h2 := (rowReady_iff.1 hr).2.2
      have h3 := length_symbolData_le (s.opnd 2) (s.opnd 3) (s.opnd 4) (s.opndNat 1) false
        (s.rowRun row (s.opndNat 0) (s.opndNat 1))
      simp only [Config.outBytes]
      omega

end Sys2Proof.Machine
end

