-- ==== Sys2Proof/Laws/Host.lean ====
section
/-! SUPPORT. What each host access does at each place of the address window (spec/20_memory.md R56 to R58), and the one list of
everything a step can do. -/

namespace Sys2Proof.Machine

/-- A step with a host action waiting carries out that action. -/
theorem step_of_pending {s : State} {act : HostAction} {rest : List HostAction} (h : s.pending = act :: rest) :
    step s = perform act { s with pending := rest } := by
  simp [step, stepHost, State.advance, h]

theorem step_of_idle {s : State} (h : s.pending = []) : step s = .next s := by
  simp [step, stepHost, h]

/-! ### The place of an offset (R57) -/

theorem placeAt_cmd : placeAt 0x00 = .register .cmd := rfl
theorem placeAt_status : placeAt 0x04 = .register .status := rfl
theorem placeAt_r0 : placeAt 0x20 = .register .r0 := rfl
theorem placeAt_r1 : placeAt 0x24 = .register .r1 := rfl
theorem placeAt_nrows : placeAt 0x28 = .register .nrows := rfl
theorem placeAt_outbits : placeAt 0x2C = .register .outbits := rfl

theorem placeAt_opnd (i : Fin 5) : placeAt (0x08 + 4 * i.val) = .register (.opnd i) := by
  revert i; decide

theorem placeAt_bits (r : Fin 25) : placeAt (0x80 + 4 * r.val) = .register (.bits r) := by
  revert r; decide

theorem placeAt_pat {i : Nat} (h : i < 16) : placeAt (0x40 + i) = .pat := by
  revert i; decide

/-- The offsets of each kind of place, as numbers: the table of R57. -/
def Place.spans : Place → Nat → Prop
  | .register _, off => off < 0x1C ∨ (0x20 ≤ off ∧ off < 0x30) ∨ (0x80 ≤ off ∧ off < 0xE4)
  | .pat, off => 0x40 ≤ off ∧ off < 0x50
  | .out, off => 0x100 ≤ off ∧ off < 0x200
  | .rows, off => 0x1000 ≤ off ∧ off < 0x1C80
  | .reserved, off => (0x1C ≤ off ∧ off < 0x20) ∨ (0x30 ≤ off ∧ off < 0x40) ∨ (0x50 ≤ off ∧ off < 0x80) ∨
      (0xE4 ≤ off ∧ off < 0x100) ∨ (0x200 ≤ off ∧ off < 0x1000) ∨ 0x1C80 ≤ off

theorem placeAt_spans (off : Nat) : (placeAt off).spans off := by
  unfold placeAt
  repeat' split
  all_goals
    simp only [inRun_eq_true, Config.cmdOffset, Config.statusOffset, Config.opndOffset, Config.r0Offset,
      Config.r1Offset, Config.nrowsOffset, Config.outbitsOffset, Config.patBase, Config.patBytes, Config.bitsOffset,
      Config.numRows, Config.outBase, Config.outBytes, Config.rowBase, Config.rowBytes] at *
    simp only [Place.spans]
    omega

theorem placeAt_reserved {off : Nat} (h : (0x1C ≤ off ∧ off < 0x20) ∨ (0x30 ≤ off ∧ off < 0x40) ∨ (0x50 ≤ off ∧ off < 0x80) ∨
    (0xE4 ≤ off ∧ off < 0x100) ∨ (0x200 ≤ off ∧ off < 0x1000) ∨ 0x1C80 ≤ off) : placeAt off = .reserved := by
  have hs := placeAt_spans off
  cases hp : placeAt off with
  | register r => simp only [hp, Place.spans] at hs; omega
  | pat => simp only [hp, Place.spans] at hs; omega
  | out => simp only [hp, Place.spans] at hs; omega
  | rows => simp only [hp, Place.spans] at hs; omega
  | reserved => rfl

theorem placeAt_register {off : Nat} (h : off < 0x1C ∨ (0x20 ≤ off ∧ off < 0x30) ∨ (0x80 ≤ off ∧ off < 0xE4)) :
    ∃ r, placeAt off = .register r := by
  have hs := placeAt_spans off
  cases hp : placeAt off with
  | register r => exact ⟨r, rfl⟩
  | pat => simp only [hp, Place.spans] at hs; omega
  | out => simp only [hp, Place.spans] at hs; omega
  | rows => simp only [hp, Place.spans] at hs; omega
  | reserved => simp only [hp, Place.spans] at hs; omega

theorem placeAt_buffer {off : Nat} (h : (0x40 ≤ off ∧ off < 0x50) ∨ (0x100 ≤ off ∧ off < 0x200) ∨
    (0x1000 ≤ off ∧ off < 0x1C80)) : placeAt off = .pat ∨ placeAt off = .out ∨ placeAt off = .rows := by
  have hs := placeAt_spans off
  cases hp : placeAt off with
  | register r => simp only [hp, Place.spans] at hs; omega
  | pat => exact .inl rfl
  | out => exact .inr (.inl rfl)
  | rows => exact .inr (.inr rfl)
  | reserved => simp only [hp, Place.spans] at hs; omega

theorem placeAt_out_add {i : Nat} (h : i < 256) : placeAt (0x100 + i) = .out :=
  placeAt_out (inRun_eq_true.2 (by simp only [Config.outBase, Config.outBytes]; omega))

theorem placeAt_rows_add {r i : Nat} (hr : r < 25) (hi : i < 128) : placeAt (0x1000 + 128 * r + i) = .rows :=
  placeAt_rows (inRun_eq_true.2 (by simp only [Config.rowBase, Config.rowBytes, Config.numRows]; omega))

/-! ### Accesses by place (R56, R58) -/

theorem hostReadWord_register {off : Nat} {r : Reg} (s : State) (ha : off % 4 = 0) (h : placeAt off = .register r) :
    hostReadWord off s = .next (s.returning (s.readReg r)) := by simp [hostReadWord, ha, h]

theorem hostWriteWord_register {off : Nat} {r : Reg} (v : Word) (s : State) (ha : off % 4 = 0)
    (h : placeAt off = .register r) (hr : r ≠ .cmd) : hostWriteWord off v s = .next (s.writeReg r v) := by
  cases r <;> simp_all [hostWriteWord]

theorem hostWriteWord_cmd (v : Word) (s : State) : hostWriteWord 0 v s = writeCommand v s := rfl

theorem hostReadByte_buffer {off : Nat} (s : State) (h : placeAt off = .pat ∨ placeAt off = .out ∨ placeAt off = .rows) :
    hostReadByte off s = .next (s.returning ((Memory.read s.mem off).setWidth 32)) := by
  rcases h with h | h | h <;> simp [hostReadByte, h]

theorem hostWriteByte_writable {off : Nat} (v : Byte) (s : State) (h : placeAt off = .pat ∨ placeAt off = .rows) :
    hostWriteByte off v s = .next (s.writeMem off v) := by
  rcases h with h | h <;> simp [hostWriteByte, h]

theorem hostWriteByte_out {off : Nat} (v : Byte) (s : State) (h : placeAt off = .out) :
    hostWriteByte off v s = .next s := by simp [hostWriteByte, h]

/-- Everything a step can do: nothing with no action waiting; otherwise, with the action taken off the list, run a command, take
ERR_ILLEGAL, write a register or a buffer byte, return a value to the host, ignore a write, or reset. -/
theorem step_cases {s t : State} (h : step s = .next t) :
    (s.pending = [] ∧ t = s) ∨
    ∃ act rest, s.pending = act :: rest ∧
      let s' := { s with pending := rest }
      ((∃ w i, act = .writeWord 0 w ∧ decodeWord w = .ok i ∧ exec i { s' with cmd := w } = .next t) ∨
       (∃ w e, act = .writeWord 0 w ∧ decodeWord w = .error e ∧ t = { s' with cmd := w }.takeError .illegal) ∨
       (∃ off v r, act = .writeWord off v ∧ r ≠ .cmd ∧ t = s'.writeReg r v) ∨
       (∃ off b, act = .writeByte off b ∧ (placeAt off = .pat ∨ placeAt off = .rows) ∧ t = s'.writeMem off b) ∨
       (∃ v, t = s'.returning v) ∨ t = s' ∨ (act = .reset ∧ t = s'.platformReset)) := by
  cases hp : s.pending with
  | nil =>
    rw [step_of_idle hp] at h
    cases h
    exact .inl ⟨rfl, rfl⟩
  | cons act rest =>
    rw [step_of_pending hp] at h
    refine .inr ⟨act, rest, rfl, ?_⟩
    cases act with
    | readByte off =>
      simp only [perform, hostReadByte] at h
      split at h <;> cases h <;> exact .inr (.inr (.inr (.inr (.inl ⟨_, rfl⟩))))
    | readHalf off => cases h
    | readWord off =>
      simp only [perform, hostReadWord] at h
      split at h
      · split at h <;> cases h <;> exact .inr (.inr (.inr (.inr (.inl ⟨_, rfl⟩))))
      · cases h
    | writeByte off b =>
      simp only [perform, hostWriteByte] at h
      split at h
      · next hpl => cases h; exact .inr (.inr (.inr (.inl ⟨off, b, rfl, .inl hpl, rfl⟩)))
      · next hpl => cases h; exact .inr (.inr (.inr (.inl ⟨off, b, rfl, .inr hpl, rfl⟩)))
      · cases h; exact .inr (.inr (.inr (.inr (.inr (.inl rfl)))))
      · cases h; exact .inr (.inr (.inr (.inr (.inr (.inl rfl)))))
      · cases h
    | writeHalf off v => cases h
    | writeWord off v =>
      simp only [perform, hostWriteWord] at h
      split at h
      · next hal =>
        split at h
        · next hpl =>
          have h0 : off = 0 := by
            have key : off < 4 := by
              by_contra hlt
              unfold placeAt at hpl
              simp only [inRun, Config.cmdOffset, Bool.and_eq_true, decide_eq_true_iff] at hpl
              rw [if_neg (by omega)] at hpl
              split_ifs at hpl <;> cases hpl
            omega
          subst h0
          unfold writeCommand at h
          split at h
          · next i hd => exact .inl ⟨v, i, rfl, hd, h⟩
          · next e hd => cases h; exact .inr (.inl ⟨v, e, rfl, hd, rfl⟩)
        · next r hne hpl => cases h; exact .inr (.inr (.inl ⟨off, v, r, rfl, hne, rfl⟩))
        · cases h; exact .inr (.inr (.inr (.inr (.inr (.inl rfl)))))
        · cases h
      · cases h
    | reset => cases h; exact .inr (.inr (.inr (.inr (.inr (.inr ⟨rfl, rfl⟩)))))

end Sys2Proof.Machine
end

