-- ==== Sys2Proof/Laws/InPlace.lean ====
section
/-! SUPPORT. The commands that change buffer bytes in place: INVERT (spec/41_invert_reflect.md R120) and WHITEN
(spec/44_whitening.md R180); and the invariant under every command. -/

namespace Sys2Proof.Machine

/-! ### Distinct buffers -/

theorem lt_base_row {r off : Nat} (h : off < Config.rowBase) : inRun (Source.row r).base (Source.row r).capacity off = false :=
  inRun_eq_false.2 (.inl (by simp only [Source.base]; omega))

/-- An in-place write to one row changes no other row. -/
theorem State.bufByte_storeRun_row_of_ne (s : State) {r r' : Nat} (h : r' ≠ r) (off : Nat) (bs : List Byte) (i : Nat) :
    (s.storeRun (.row r) off bs).bufByte (.row r') i = s.bufByte (.row r') i := by
  unfold State.bufByte
  split
  · next hi =>
    apply State.read_storeRun_outside
    rw [inRun_eq_false]
    simp only [Source.base, Source.capacity, Config.rowBytes] at hi ⊢
    omega
  · rfl

/-! ### INVERT -/

theorem bitAt_validBits (len k : Nat) : bitAt (validBits len (k / 8)) k = decide (k < len) := by
  rw [validBits, ← bitAt_mod, bitAt_byteOf _ (Nat.mod_lt _ (by decide)), Nat.div_add_mod]

@[simp] theorem State.length_invertedRow (s : State) (r : Nat) : (s.invertedRow r).length = ceil8 (s.rowLen r) := by
  simp [State.invertedRow]

theorem State.getD_invertedRow (s : State) (r : Nat) {i : Nat} (h : i < ceil8 (s.rowLen r)) :
    (s.invertedRow r).getD i 0 = s.bufByte (.row r) i ^^^ validBits (s.rowLen r) i := by
  simp [State.invertedRow, h]

@[simp] theorem State.invertRows_zero (s : State) : s.invertRows 0 = s := rfl

theorem State.invertRows_succ (s : State) (n : Nat) :
    s.invertRows (n + 1) = (s.invertRows n).storeRun (.row n) 0 ((s.invertRows n).invertedRow n) := by
  simp [State.invertRows, List.range_succ]

theorem State.rowLen_invertRows (s : State) (n r : Nat) : (s.invertRows n).rowLen r = s.rowLen r := by
  rw [State.invertRows_eq]; rfl

theorem State.wf_invertRows {s : State} (h : Memory.wf s.mem = true) (n : Nat) :
    Memory.wf (s.invertRows n).mem = true := by
  induction n with
  | zero => exact h
  | succ n ih => rw [State.invertRows_succ, State.storeRun_mem]; exact Memory.wf_writeBytes ih _ _

/-- INVERT changes no byte below the rows. -/
theorem State.read_invertRows_below (s : State) (n : Nat) {off : Nat} (h : off < Config.rowBase) :
    Memory.read (s.invertRows n).mem off = Memory.read s.mem off := by
  induction n with
  | zero => rfl
  | succ n ih => rw [State.invertRows_succ, State.read_storeRun_outside _ _ _ _ (lt_base_row h), ih]

/-- INVERT of n rows changes no byte at or above the n-th. -/
theorem State.read_invertRows_above (s : State) (n : Nat) {off : Nat} (h : Config.rowBase + Config.rowBytes * n ≤ off) :
    Memory.read (s.invertRows n).mem off = Memory.read s.mem off := by
  induction n with
  | zero => rfl
  | succ n ih =>
    have h1 : inRun (Source.row n).base (Source.row n).capacity off = false := by
      rw [inRun_eq_false]
      simp only [Source.base, Source.capacity, Config.rowBytes] at h ⊢
      omega
    rw [State.invertRows_succ, State.read_storeRun_outside _ _ _ _ h1, ih]
    simp only [Config.rowBytes] at h ⊢
    omega

/-- INVERT, byte by byte: the rows below n have their valid bits complemented, the others are untouched (R120). -/
theorem State.bufByte_invertRows {s : State} (hw : Memory.wf s.mem = true) (n : Nat)
    (hl : ∀ r, r < n → s.rowLen r ≤ Config.rowBits) (r i : Nat) :
    (s.invertRows n).bufByte (.row r) i =
      if r < n ∧ i < ceil8 (s.rowLen r) then s.bufByte (.row r) i ^^^ validBits (s.rowLen r) i
      else s.bufByte (.row r) i := by
  induction n with
  | zero => simp
  | succ n ih =>
    have ih := ih fun r hr => hl r (by omega)
    rw [State.invertRows_succ]
    by_cases hr : r = n
    · subst hr
      have hlen := hl r (by omega)
      rw [State.bufByte_storeRun (State.wf_invertRows hw r), State.length_invertedRow, State.rowLen_invertRows, ih]
      · by_cases hi : i < ceil8 (s.rowLen r)
        · rw [if_pos ⟨by omega, by omega⟩, if_pos ⟨by omega, hi⟩, Nat.sub_zero,
            State.getD_invertedRow _ _ (by rwa [State.rowLen_invertRows]), State.rowLen_invertRows, ih, if_neg (by omega)]
        · rw [if_neg (by omega), if_neg (by omega), if_neg (by omega)]
      · rw [State.length_invertedRow, State.rowLen_invertRows]
        simp only [Source.capacity, ceil8, Config.rowBits, Config.rowBytes] at hlen ⊢
        omega
    · rw [State.bufByte_storeRun_row_of_ne _ hr, ih]
      by_cases hn : r < n <;> simp [hn, show (r < n + 1) = (r < n) from propext (by omega)]

/-- INVERT, bit by bit (R120). -/
theorem State.rowBit_invertRows {s : State} (hw : Memory.wf s.mem = true) (n : Nat)
    (hl : ∀ r, r < n → s.rowLen r ≤ Config.rowBits) (r k : Nat) :
    (s.invertRows n).rowBit r k = (s.rowBit r k ^^ (decide (r < n) && decide (k < s.rowLen r))) := by
  unfold State.rowBit
  rw [State.bufByte_invertRows hw n hl]
  by_cases hr : r < n
  · by_cases hi : k / 8 < ceil8 (s.rowLen r)
    · rw [if_pos ⟨hr, hi⟩, bitAt_xor, bitAt_validBits]; simp [hr]
    · rw [if_neg (by omega)]
      have : ¬ k < s.rowLen r := by simp only [ceil8] at hi; omega
      simp [this]
  · rw [if_neg (by omega)]; simp [hr]

/-- The checks of INVERT pass exactly when every valid row is ready. -/
theorem allRowsReady_iff {s : State} :
    s.allRowsReady = true ↔ s.nrows.toNat ≤ 25 ∧ ∀ r, r < s.nrows.toNat → s.rowLen r ≤ 1024 := by
  simp only [State.allRowsReady, Config.numRows, Config.rowBits, Config.rowBytes, Bool.and_eq_true, decide_eq_true_iff,
    List.all_eq_true, List.mem_range, Bool.or_eq_true]
  refine and_congr_right fun hn => ⟨fun h r hr => ?_, fun h r _ => ?_⟩
  · have := h r (by omega); omega
  · by_cases hr : r < s.nrows.toNat
    · exact .inr (h r hr)
    · exact .inl (by omega)

theorem execInvert_of_ready {s : State} (h : s.allRowsReady = true) :
    execInvert s = .next ((s.invertRows s.nrows.toNat).complete 0 0) := by
  obtain ⟨h1, h2⟩ := allRowsReady_iff.1 h
  refine command_of_pass (firstError_eq_none.2 ?_)
  simp only [List.mem_cons, List.not_mem_nil, or_false, forall_eq_or_imp, forall_eq, decide_eq_false_iff_not,
    List.any_eq_false, List.mem_range, Bool.and_eq_true, decide_eq_true_iff, Config.numRows, Config.rowBits, Config.rowBytes]
  exact ⟨by omega, fun r _ hr => by have := h2 r hr.1; omega⟩

/-- The two ways INVERT can end; when it completes, every valid row was ready. -/
theorem execInvert_cases {s t : State} (h : execInvert s = .next t) :
    (∃ c, t = s.takeError c) ∨ (s.allRowsReady = true ∧ t = (s.invertRows s.nrows.toNat).complete 0 0) := by
  rcases command_cases h with ⟨c, -, ht⟩ | ⟨hn, ht⟩
  · exact .inl ⟨c, ht⟩
  · refine .inr ⟨allRowsReady_iff.2 ?_, ht⟩
    have := firstError_eq_none.1 hn
    simp only [List.mem_cons, List.not_mem_nil, or_false, forall_eq_or_imp, forall_eq, decide_eq_false_iff_not,
      List.any_eq_false, List.mem_range, Bool.and_eq_true, decide_eq_true_iff, Config.numRows, Config.rowBits,
      Config.rowBytes] at this
    exact ⟨by omega, fun r hr => by have := this.2 r (by omega); omega⟩

/-! ### WHITEN -/

@[simp] theorem length_maskFrom (refl : Bool) (n : Nat) (st : BitVec 9) : (maskFrom refl n st).length = n := by
  induction n generalizing st with
  | zero => rfl
  | succ n ih => simp [maskFrom, ih]

@[simp] theorem length_whitenMask (refl : Bool) (n : Nat) : (whitenMask refl n).length = n := length_maskFrom _ _ _

/-- A run that fits the extent of a ready source, or of OUT with OUTBITS in bounds, lies in the buffer (R54). -/
theorem run_le_capacity {s : State} {src : Source} (ho : s.outbits.toNat ≤ 8 * Config.outBytes)
    (hr : s.sourceReady src = true) (hf : s.runFits src = true) : s.opndNat 0 + s.opndNat 1 ≤ src.capacity := by
  simp only [State.runFits, decide_eq_true_iff] at hf
  cases src with
  | row r =>
    have := (rowReady_iff.1 hr).2.2
    simp only [State.extent, ceil8, Source.capacity, Config.rowBytes] at *
    omega
  | out =>
    simp only [State.extent, ceil8, Source.capacity, Config.outBytes] at *
    omega

/-- WHITEN on a ready source whose run fits: the run XORed with the mask, and nothing else but the results (R180). -/
theorem whitened_of_fits {src : Source} {refl : Bool} {s : State} (hr : s.sourceReady src = true)
    (hf : s.runFits src = true) :
    whitened src refl s = .next ((s.storeRun src (s.opndNat 0) (List.zipWith (· ^^^ ·)
      (s.message src (s.opndNat 0) (s.opndNat 1)) (whitenMask refl (s.opndNat 1)))).complete 0 0) := by
  rw [whitened, byteCommand_of_fits hr hf, State.length_message]

/-- A source that is ready is OUT or one of the 25 rows. -/
theorem sourceReady_lt {s : State} {src : Source} (h : s.sourceReady src = true) :
    ∀ r, src = .row r → r < Config.numRows := by
  rintro r rfl
  exact rowReady_lt h

/-! ### The invariant under every command -/

theorem State.inv_complete {s : State} (h : s.inv = true) (x y : Word) : (s.complete x y).inv = true := by
  obtain ⟨h1, h2, h3, h4⟩ := (State.inv_iff s).1 h
  exact (State.inv_iff _).2 ⟨h1, h2, h3, statusLegal_completed h4⟩

theorem State.inv_takeError {s : State} (h : s.inv = true) (c : ErrCode) : (s.takeError c).inv = true := by
  obtain ⟨h1, h2, h3, h4⟩ := (State.inv_iff s).1 h
  exact (State.inv_iff _).2 ⟨h1, h2, h3, statusLegal_error c h4⟩

theorem State.inv_deliver {s : State} (h : s.inv = true) (p : List Byte) {n : Nat} (hn : n ≤ 8 * Config.outBytes) :
    (s.deliver p n).inv = true := by
  obtain ⟨h1, h2, -, h4⟩ := (State.inv_iff s).1 h
  obtain ⟨k1, k2⟩ := State.deliver_keeps_buffers h1 h2 p n
  refine (State.inv_iff _).2 ⟨k1, k2, ?_, h4⟩
  rw [State.deliver_outbits, BitVec.toNat_ofNat]
  exact Nat.le_trans (Nat.mod_le _ _) hn

theorem State.inv_storeRun {s : State} (h : s.inv = true) {src : Source} (hsrc : ∀ r, src = .row r → r < Config.numRows)
    (off : Nat) (bs : List Byte) : (s.storeRun src off bs).inv = true := by
  obtain ⟨h1, h2, h3, h4⟩ := (State.inv_iff s).1 h
  obtain ⟨k1, k2⟩ := State.storeRun_keeps_buffers h1 h2 src hsrc off bs
  exact (State.inv_iff _).2 ⟨k1, k2, h3, h4⟩

theorem State.inv_invertRows {s : State} (h : s.inv = true) {n : Nat} (hn : n ≤ Config.numRows) :
    (s.invertRows n).inv = true := by
  induction n with
  | zero => exact h
  | succ n ih =>
    rw [State.invertRows_succ]
    exact State.inv_storeRun (ih (by omega)) (by rintro r ⟨⟩; omega) _ _

end Sys2Proof.Machine
end

