-- ==== Sys2Proof/Laws/PerInstr.lean ====
section
/-! SUPPORT. One lemma per instruction: its command word fits a row of the opcode table that carries its mnemonic
(spec/30_encoding.md R73, R77, R81). -/

namespace Sys2Proof.Laws

/-- The command word of an instruction fits a row of the opcode table that carries its mnemonic (R77). -/
def MatchesTable.Statement (i : Instr) : Prop :=
  ∃ t ∈ commandTable, t.mnemonic = i.mnemonic ∧ t.fits (encode i) = true

/-- The mask of a table row with a free ROW field clears that field and nothing else. -/
theorem commandWord_and_rowMask (opc : Byte) (row : Nat) (src m0 m1 : Bool) :
    commandWord opc row src m0 m1 &&& 0xFFFFE0FF#32 = commandWord opc 0 src m0 m1 := by
  have h1 : ∀ b : Byte, b.setWidth 32 &&& 0xFFFFE0FF#32 = b.setWidth 32 := by decide +kernel
  have h2 : ∀ r : BitVec 5, r.setWidth 32 <<< 8 &&& 0xFFFFE0FF#32 = 0#32 := by decide +kernel
  have h3 : ∀ b, flagAt b 13 &&& 0xFFFFE0FF#32 = flagAt b 13 := by decide +kernel
  have h4 : ∀ b, flagAt b 16 &&& 0xFFFFE0FF#32 = flagAt b 16 := by decide +kernel
  have h5 : ∀ b, flagAt b 17 &&& 0xFFFFE0FF#32 = flagAt b 17 := by decide +kernel
  have hd : ∀ x y m : Word, (x ||| y) &&& m = (x &&& m) ||| (y &&& m) := fun x y m => by
    apply BitVec.eq_of_getLsbD_eq
    intro i _
    simp [Bool.and_or_distrib_right]
  simp only [commandWord, hd, h1, h2, h3, h4, h5]
  simp

/-- A mask that is part of the row mask sees the word for row 0. -/
theorem fits_of_row (m : String) (opc : Byte) (row : Nat) (src m0 m1 : Bool) (mask pattern : Word)
    (hm : 0xFFFFE0FF#32 &&& mask = mask) (h : commandWord opc 0 src m0 m1 &&& mask = pattern) :
    TableRow.fits ⟨m, mask, pattern⟩ (commandWord opc row src m0 m1) = true := by
  rw [TableRow.fits, beq_iff_eq, ← hm, ← BitVec.and_assoc, commandWord_and_rowMask, h]

theorem MatchesTable.search (row : Nat) : MatchesTable.Statement (.search row) :=
  ⟨⟨"SEARCH", 0xFFFFE0FF#32, 0x00000010#32⟩, by simp [commandTable], rfl,
    fits_of_row _ _ row _ _ _ _ _ (by decide) (by decide)⟩

theorem MatchesTable.extract (row : Nat) : MatchesTable.Statement (.extract row) :=
  ⟨⟨"EXTRACT", 0xFFFFE0FF#32, 0x00000011#32⟩, by simp [commandTable], rfl,
    fits_of_row _ _ row _ _ _ _ _ (by decide) (by decide)⟩

theorem MatchesTable.getbit (row : Nat) : MatchesTable.Statement (.getbit row) :=
  ⟨⟨"GETBIT", 0xFFFFE0FF#32, 0x00000012#32⟩, by simp [commandTable], rfl,
    fits_of_row _ _ row _ _ _ _ _ (by decide) (by decide)⟩

theorem MatchesTable.getbyte (row : Nat) : MatchesTable.Statement (.getbyte row) :=
  ⟨⟨"GETBYTE", 0xFFFFE0FF#32, 0x00000013#32⟩, by simp [commandTable], rfl,
    fits_of_row _ _ row _ _ _ _ _ (by decide) (by decide)⟩

theorem MatchesTable.invert : MatchesTable.Statement .invert :=
  ⟨⟨"INVERT", 0xFFFFFFFF#32, 0x00000020#32⟩, by simp [commandTable], rfl, by decide⟩

theorem MatchesTable.rev8 : MatchesTable.Statement .rev8 :=
  ⟨⟨"REV8", 0xFFFFFFFF#32, 0x00000021#32⟩, by simp [commandTable], rfl, by decide⟩

theorem MatchesTable.refl4 : MatchesTable.Statement .refl4 :=
  ⟨⟨"REFL4", 0xFFFFFFFF#32, 0x00000022#32⟩, by simp [commandTable], rfl, by decide⟩

theorem MatchesTable.manch (row : Nat) (conv : Bool) (zb : Bool) : MatchesTable.Statement (.manch row conv zb) :=
  ⟨⟨"MANCH", 0xFFFCE0FF#32, 0x00000023#32⟩, by simp [commandTable], rfl,
    fits_of_row _ _ row _ conv zb _ _ (by decide) (by cases conv <;> cases zb <;> decide)⟩

theorem MatchesTable.dmanch (row : Nat) : MatchesTable.Statement (.dmanch row) :=
  ⟨⟨"DMANCH", 0xFFFFE0FF#32, 0x00000024#32⟩, by simp [commandTable], rfl,
    fits_of_row _ _ row _ _ _ _ _ (by decide) (by decide)⟩

theorem MatchesTable.uart8n1 (row : Nat) : MatchesTable.Statement (.uart8n1 row) :=
  ⟨⟨"UART8N1", 0xFFFFE0FF#32, 0x00000025#32⟩, by simp [commandTable], rfl,
    fits_of_row _ _ row _ _ _ _ _ (by decide) (by decide)⟩

theorem MatchesTable.uart8o1 (row : Nat) : MatchesTable.Statement (.uart8o1 row) :=
  ⟨⟨"UART8O1", 0xFFFFE0FF#32, 0x00000026#32⟩, by simp [commandTable], rfl,
    fits_of_row _ _ row _ _ _ _ _ (by decide) (by decide)⟩

theorem MatchesTable.nib4b1s (row : Nat) : MatchesTable.Statement (.nib4b1s row) :=
  ⟨⟨"NIB4B1S", 0xFFFFE0FF#32, 0x00000027#32⟩, by simp [commandTable], rfl,
    fits_of_row _ _ row _ _ _ _ _ (by decide) (by decide)⟩

theorem MatchesTable.symbols (row : Nat) : MatchesTable.Statement (.symbols row) :=
  ⟨⟨"SYMBOLS", 0xFFFFE0FF#32, 0x00000028#32⟩, by simp [commandTable], rfl,
    fits_of_row _ _ row _ _ _ _ _ (by decide) (by decide)⟩

theorem MatchesTable.whiten (row : Nat) (refl : Bool) : MatchesTable.Statement (.whiten row refl) :=
  ⟨⟨"WHITEN", 0xFFFEE0FF#32, 0x00000029#32⟩, by simp [commandTable], rfl,
    fits_of_row _ _ row _ refl _ _ _ (by decide) (by cases refl <;> decide)⟩

theorem MatchesTable.whitenOut (refl : Bool) : MatchesTable.Statement (.whitenOut refl) :=
  ⟨⟨"WHITEN", 0xFFFEFFFF#32, 0x00002029#32⟩, by simp [commandTable], rfl, by cases refl <;> decide⟩

theorem MatchesTable.crc4 (row : Nat) : MatchesTable.Statement (.crc4 row) :=
  ⟨⟨"CRC4", 0xFFFFE0FF#32, 0x00000030#32⟩, by simp [commandTable], rfl,
    fits_of_row _ _ row _ _ _ _ _ (by decide) (by decide)⟩

theorem MatchesTable.crc4Out : MatchesTable.Statement .crc4Out :=
  ⟨⟨"CRC4", 0xFFFFFFFF#32, 0x00002030#32⟩, by simp [commandTable], rfl, by decide⟩

theorem MatchesTable.crc7 (row : Nat) : MatchesTable.Statement (.crc7 row) :=
  ⟨⟨"CRC7", 0xFFFFE0FF#32, 0x00000031#32⟩, by simp [commandTable], rfl,
    fits_of_row _ _ row _ _ _ _ _ (by decide) (by decide)⟩

theorem MatchesTable.crc7Out : MatchesTable.Statement .crc7Out :=
  ⟨⟨"CRC7", 0xFFFFFFFF#32, 0x00002031#32⟩, by simp [commandTable], rfl, by decide⟩

theorem MatchesTable.crc8 (row : Nat) : MatchesTable.Statement (.crc8 row) :=
  ⟨⟨"CRC8", 0xFFFFE0FF#32, 0x00000032#32⟩, by simp [commandTable], rfl,
    fits_of_row _ _ row _ _ _ _ _ (by decide) (by decide)⟩

theorem MatchesTable.crc8Out : MatchesTable.Statement .crc8Out :=
  ⟨⟨"CRC8", 0xFFFFFFFF#32, 0x00002032#32⟩, by simp [commandTable], rfl, by decide⟩

theorem MatchesTable.crc8le (row : Nat) : MatchesTable.Statement (.crc8le row) :=
  ⟨⟨"CRC8LE", 0xFFFFE0FF#32, 0x00000033#32⟩, by simp [commandTable], rfl,
    fits_of_row _ _ row _ _ _ _ _ (by decide) (by decide)⟩

theorem MatchesTable.crc8leOut : MatchesTable.Statement .crc8leOut :=
  ⟨⟨"CRC8LE", 0xFFFFFFFF#32, 0x00002033#32⟩, by simp [commandTable], rfl, by decide⟩

theorem MatchesTable.crc16 (row : Nat) : MatchesTable.Statement (.crc16 row) :=
  ⟨⟨"CRC16", 0xFFFFE0FF#32, 0x00000034#32⟩, by simp [commandTable], rfl,
    fits_of_row _ _ row _ _ _ _ _ (by decide) (by decide)⟩

theorem MatchesTable.crc16Out : MatchesTable.Statement .crc16Out :=
  ⟨⟨"CRC16", 0xFFFFFFFF#32, 0x00002034#32⟩, by simp [commandTable], rfl, by decide⟩

theorem MatchesTable.crc16lsb (row : Nat) : MatchesTable.Statement (.crc16lsb row) :=
  ⟨⟨"CRC16LSB", 0xFFFFE0FF#32, 0x00000035#32⟩, by simp [commandTable], rfl,
    fits_of_row _ _ row _ _ _ _ _ (by decide) (by decide)⟩

theorem MatchesTable.crc16lsbOut : MatchesTable.Statement .crc16lsbOut :=
  ⟨⟨"CRC16LSB", 0xFFFFFFFF#32, 0x00002035#32⟩, by simp [commandTable], rfl, by decide⟩

theorem MatchesTable.lfsr8 (row : Nat) : MatchesTable.Statement (.lfsr8 row) :=
  ⟨⟨"LFSR8", 0xFFFFE0FF#32, 0x00000038#32⟩, by simp [commandTable], rfl,
    fits_of_row _ _ row _ _ _ _ _ (by decide) (by decide)⟩

theorem MatchesTable.lfsr8Out : MatchesTable.Statement .lfsr8Out :=
  ⟨⟨"LFSR8", 0xFFFFFFFF#32, 0x00002038#32⟩, by simp [commandTable], rfl, by decide⟩

theorem MatchesTable.lfsr8rev (row : Nat) : MatchesTable.Statement (.lfsr8rev row) :=
  ⟨⟨"LFSR8REV", 0xFFFFE0FF#32, 0x00000039#32⟩, by simp [commandTable], rfl,
    fits_of_row _ _ row _ _ _ _ _ (by decide) (by decide)⟩

theorem MatchesTable.lfsr8revOut : MatchesTable.Statement .lfsr8revOut :=
  ⟨⟨"LFSR8REV", 0xFFFFFFFF#32, 0x00002039#32⟩, by simp [commandTable], rfl, by decide⟩

theorem MatchesTable.lfsr8rfl (row : Nat) : MatchesTable.Statement (.lfsr8rfl row) :=
  ⟨⟨"LFSR8RFL", 0xFFFFE0FF#32, 0x0000003A#32⟩, by simp [commandTable], rfl,
    fits_of_row _ _ row _ _ _ _ _ (by decide) (by decide)⟩

theorem MatchesTable.lfsr8rflOut : MatchesTable.Statement .lfsr8rflOut :=
  ⟨⟨"LFSR8RFL", 0xFFFFFFFF#32, 0x0000203A#32⟩, by simp [commandTable], rfl, by decide⟩

theorem MatchesTable.lfsr16 (row : Nat) : MatchesTable.Statement (.lfsr16 row) :=
  ⟨⟨"LFSR16", 0xFFFFE0FF#32, 0x0000003B#32⟩, by simp [commandTable], rfl,
    fits_of_row _ _ row _ _ _ _ _ (by decide) (by decide)⟩

theorem MatchesTable.lfsr16Out : MatchesTable.Statement .lfsr16Out :=
  ⟨⟨"LFSR16", 0xFFFFFFFF#32, 0x0000203B#32⟩, by simp [commandTable], rfl, by decide⟩

theorem MatchesTable.parity8 : MatchesTable.Statement .parity8 :=
  ⟨⟨"PARITY8", 0xFFFFFFFF#32, 0x00000040#32⟩, by simp [commandTable], rfl, by decide⟩

theorem MatchesTable.parityb (row : Nat) : MatchesTable.Statement (.parityb row) :=
  ⟨⟨"PARITYB", 0xFFFFE0FF#32, 0x00000041#32⟩, by simp [commandTable], rfl,
    fits_of_row _ _ row _ _ _ _ _ (by decide) (by decide)⟩

theorem MatchesTable.paritybOut : MatchesTable.Statement .paritybOut :=
  ⟨⟨"PARITYB", 0xFFFFFFFF#32, 0x00002041#32⟩, by simp [commandTable], rfl, by decide⟩

theorem MatchesTable.xorb (row : Nat) : MatchesTable.Statement (.xorb row) :=
  ⟨⟨"XORB", 0xFFFFE0FF#32, 0x00000042#32⟩, by simp [commandTable], rfl,
    fits_of_row _ _ row _ _ _ _ _ (by decide) (by decide)⟩

theorem MatchesTable.xorbOut : MatchesTable.Statement .xorbOut :=
  ⟨⟨"XORB", 0xFFFFFFFF#32, 0x00002042#32⟩, by simp [commandTable], rfl, by decide⟩

theorem MatchesTable.addb (row : Nat) : MatchesTable.Statement (.addb row) :=
  ⟨⟨"ADDB", 0xFFFFE0FF#32, 0x00000043#32⟩, by simp [commandTable], rfl,
    fits_of_row _ _ row _ _ _ _ _ (by decide) (by decide)⟩

theorem MatchesTable.addbOut : MatchesTable.Statement .addbOut :=
  ⟨⟨"ADDB", 0xFFFFFFFF#32, 0x00002043#32⟩, by simp [commandTable], rfl, by decide⟩

theorem MatchesTable.addn (row : Nat) : MatchesTable.Statement (.addn row) :=
  ⟨⟨"ADDN", 0xFFFFE0FF#32, 0x00000044#32⟩, by simp [commandTable], rfl,
    fits_of_row _ _ row _ _ _ _ _ (by decide) (by decide)⟩

theorem MatchesTable.addnOut : MatchesTable.Statement .addnOut :=
  ⟨⟨"ADDN", 0xFFFFFFFF#32, 0x00002044#32⟩, by simp [commandTable], rfl, by decide⟩

end Sys2Proof.Laws
end

