-- ==== Sys2Proof/Laws/Rows.lean ====
section
/-! SUPPORT. What the searching and copying commands read from a row (spec/40_bitsearch_extract.md R100 to R103). -/

namespace Sys2Proof.Machine

/-- The first element of `a, a + 1, ..., a + m - 1` with a property, and that none before it has it. -/
theorem find?_from {p : Nat → Bool} {a m q : Nat} (h : ((List.range m).map (a + ·)).find? p = some q) :
    a ≤ q ∧ q < a + m ∧ p q = true ∧ ∀ k, a ≤ k → k < q → p k = false := by
  induction m with
  | zero => simp at h
  | succ m ih =>
    rw [List.range_succ, List.map_append, List.find?_append] at h
    cases hf : ((List.range m).map (a + ·)).find? p with
    | some r =>
      rw [hf, Option.some_or, Option.some.injEq] at h
      subst h
      obtain ⟨h1, h2, h3⟩ := ih hf
      exact ⟨h1, by omega, h3⟩
    | none =>
      rw [hf, Option.none_or, List.map_singleton, List.find?_singleton] at h
      split at h
      · next hp =>
        cases h
        refine ⟨by omega, by omega, hp, fun k h1 h2 => ?_⟩
        rw [List.find?_eq_none] at hf
        simpa using hf k (List.mem_map.2 ⟨k - a, List.mem_range.2 (by omega), by omega⟩)
      · cases h

theorem find?_from_eq_none {p : Nat → Bool} {a m : Nat} (h : ((List.range m).map (a + ·)).find? p = none) {k : Nat}
    (h1 : a ≤ k) (h2 : k < a + m) : p k = false := by
  rw [List.find?_eq_none] at h
  simpa using h k (List.mem_map.2 ⟨k - a, List.mem_range.2 (by omega), by omega⟩)

theorem State.patternAt_iff (s : State) (r len p : Nat) :
    s.patternAt r len p = true ↔ ∀ i, i < len → s.rowBit r (p + i) = s.patBit i := by
  simp [State.patternAt]

/-- The three outcomes of SEARCH (R100): an empty pattern, the first match, or none. -/
theorem State.searchResult_cases (s : State) (r start len : Nat) :
    (len = 0 ∧ s.searchResult r start len = start) ∨
    (len ≠ 0 ∧ ∃ p, s.searchResult r start len = p ∧ start ≤ p ∧ p + len ≤ s.rowLen r ∧ s.patternAt r len p = true ∧
      ∀ k, start ≤ k → k < p → s.patternAt r len k = false) ∨
    (len ≠ 0 ∧ s.searchResult r start len = s.rowLen r ∧
      ∀ k, start ≤ k → k + len ≤ s.rowLen r → s.patternAt r len k = false) := by
  unfold State.searchResult
  by_cases hl : len = 0
  · exact .inl ⟨hl, if_pos hl⟩
  · simp only [if_neg hl]
    cases hf : ((List.range (s.rowLen r + 1 - len - start)).map (start + ·)).find? (s.patternAt r len) with
    | some p =>
      obtain ⟨h1, h2, h3, h4⟩ := find?_from hf
      exact .inr (.inl ⟨hl, p, rfl, h1, by omega, h3, h4⟩)
    | none => exact .inr (.inr ⟨hl, rfl, fun k h1 h2 => find?_from_eq_none hf h1 (by omega)⟩)

/-- `val` of eight row bits is the byte they pack to (R9, R103). -/
theorem State.val_rowRun_eight (s : State) (r start : Nat) :
    BitVec.ofNat 32 (val (s.rowRun r start 8)) = (byteOf fun j => s.rowBit r (start + j)).setWidth 32 := by
  have h := val_lt (s.rowRun r start 8)
  rw [State.length_rowRun] at h
  rw [byteOf_eq_ofNat_val]
  apply BitVec.eq_of_toNat_eq
  simp only [State.rowRun] at h ⊢
  rw [BitVec.toNat_ofNat, BitVec.toNat_setWidth, BitVec.toNat_ofNat, Nat.mod_eq_of_lt h]

theorem wordOfBool_eq_ite (b : Bool) : wordOfBool b = if b then 1 else 0 := by cases b <;> rfl

end Sys2Proof.Machine
end

