-- ==== Sys2Proof/Laws/Values.lean ====
section
/-! SUPPORT. The values of the message commands, one lemma per loop: the whitening generator (spec/44_whitening.md R181), the CRC
registers (spec/45_crc.md R191), the digests (spec/46_lfsr_digest.md R225, R226) and the sums (spec/47_parity_sum.md). -/

namespace Sys2Proof.Machine

/-! ### The bits of a message -/

theorem length_flatMap_bits {f : Byte → List Bool} (h : ∀ b, (f b).length = 8) (msg : List Byte) :
    (msg.flatMap f).length = 8 * msg.length := by
  induction msg with
  | nil => rfl
  | cons b m ih => rw [List.flatMap_cons, List.length_append, h, ih, List.length_cons]; omega

/-- Bit k of a message, read byte by byte. -/
theorem getD_flatMap_bits {f : Byte → List Bool} (h : ∀ b, (f b).length = 8) (msg : List Byte) {k : Nat}
    (hk : k < 8 * msg.length) : (msg.flatMap f).getD k false = (f (msg.getD (k / 8) 0)).getD (k % 8) false := by
  induction msg generalizing k with
  | nil => simp at hk
  | cons b m ih =>
    rw [List.flatMap_cons]
    by_cases h8 : k < 8
    · rw [List.getD_append _ _ _ _ (by rw [h]; omega)]
      simp [Nat.mod_eq_of_lt h8, show k / 8 = 0 by omega]
    · rw [List.getD_append_right _ _ _ _ (by rw [h]; omega), h, ih (by simp at hk; omega),
        show k % 8 = (k - 8) % 8 by omega, show k / 8 = (k - 8) / 8 + 1 by omega]
      simp

/-- Reflecting every byte turns the most-significant-first order into the other. -/
theorem flatMap_msbFirst_map_reflect (msg : List Byte) : (msg.map reflect).flatMap msbFirst = msg.flatMap lsbFirst := by
  induction msg with
  | nil => rfl
  | cons b m ih => simp [msbFirst_reflect, ih]

/-! ### Whitening -/

/-- Mask byte j is the mask of the generator's state after j times eight steps. -/
theorem getElem?_maskFrom (refl : Bool) {n j : Nat} (st : BitVec 9) (h : j < n) :
    (maskFrom refl n st)[j]? = some (maskByte (lfsrStep8^[j] st) refl) := by
  induction n generalizing j st with
  | zero => omega
  | succ n ih =>
    cases j with
    | zero => rfl
    | succ j => simpa [maskFrom] using ih (j := j) (lfsrStep8 st) (by omega)

/-- The bits after one step of the generator (R181). -/
theorem getLsbD_lfsrStep (st : BitVec 9) {i : Nat} (h : i < 9) :
    (lfsrStep st).getLsbD i = if i = 8 then st.getLsbD 0 ^^ st.getLsbD 5 else st.getLsbD (i + 1) := by
  interval_cases i <;> simp [lfsrStep]

/-- One step of the generator shifts its window on the sequence by one (R181). -/
theorem lfsrStep_window {a : Nat → Bool} (ha : ∀ k, a (k + 9) = (a k ^^ a (k + 5))) {k : Nat} {st : BitVec 9}
    (h : ∀ i, i < 9 → st.getLsbD i = a (k + i)) : ∀ i, i < 9 → (lfsrStep st).getLsbD i = a (k + 1 + i) := by
  intro i hi
  rw [getLsbD_lfsrStep st hi]
  split
  · next h8 => rw [h8, h 0 (by decide), h 5 (by decide), show k + 1 + 8 = k + 9 by omega, ha, Nat.add_zero]
  · rw [h (i + 1) (by omega), show k + 1 + i = k + (i + 1) by omega]

/-! ### CRC registers -/

/-- The register after one bit is linear in register and bit together. -/
theorem crcMsbBit_xor {w : Nat} (poly a b : BitVec w) (d e : Bool) :
    crcMsbBit poly (a ^^^ b) (d ^^ e) = crcMsbBit poly a d ^^^ crcMsbBit poly b e := by
  have hab : ((a ^^^ b).msb ^^ (d ^^ e)) = ((a.msb ^^ d) ^^ (b.msb ^^ e)) := by
    rw [BitVec.msb_xor]
    cases a.msb <;> cases b.msb <;> cases d <;> cases e <;> rfl
  unfold crcMsbBit
  rw [hab, BitVec.shiftLeft_xor_distrib]
  cases a.msb ^^ d <;> cases b.msb ^^ e <;> simp
  · ac_rfl
  · ac_rfl
  · rw [show a <<< 1 ^^^ poly ^^^ (b <<< 1 ^^^ poly) = a <<< 1 ^^^ b <<< 1 ^^^ (poly ^^^ poly) by ac_rfl]
    simp

/-- One bit into the LSB-first register is the mirror image of one bit into the MSB-first register (R191). -/
theorem crcLsbBit_eq_reflect {w : Nat} (poly reg : BitVec w) (d : Bool) :
    crcLsbBit poly reg d = reflect (crcMsbBit (reflect poly) (reflect reg) d) := by
  unfold crcLsbBit crcMsbBit
  rw [msb_reflect]
  split
  · rw [reflect_xor, reflect_shiftLeft_one]; simp
  · rw [reflect_shiftLeft_one]; simp

/-- Zero bits leave a zero register zero. -/
theorem foldl_crcMsbBit_zeros {w : Nat} (poly : BitVec w) (n : Nat) :
    (List.replicate n false).foldl (crcMsbBit poly) 0 = 0 := by
  induction n with
  | zero => rfl
  | succ n ih => rw [List.replicate_succ, List.foldl_cons]; simpa [crcMsbBit] using ih

/-! ### Digests -/

/-- A digest is the XOR of the rolled keys that meet a 1 bit (R225). -/
theorem digestBits_eq_foldl {w : Nat} (roll : BitVec w → BitVec w) (sum key : BitVec w) (bits : List Bool) :
    digestBits roll sum key bits =
      (List.range bits.length).foldl (fun acc k => if bits.getD k false then acc ^^^ roll^[k] key else acc) sum := by
  induction bits generalizing key sum with
  | nil => rfl
  | cons b bits ih =>
    rw [digestBits, ih, List.length_cons, List.range_succ_eq_map, List.foldl_cons, List.foldl_map]
    simp [Function.iterate_succ]

/-- Rolling left is rolling right in the mirror (R226). -/
theorem rollLeft_eq_reflect {w : Nat} (gen key : BitVec w) :
    rollLeft gen key = reflect (rollRight (reflect gen) (reflect key)) := by
  unfold rollLeft rollRight
  rw [getLsbD_zero_reflect]
  split
  · rw [reflect_xor, reflect_shiftRight_one]; simp
  · rw [reflect_shiftRight_one]; simp

/-! ### Parity and sums -/

/-- The XOR fold from any start. -/
theorem foldl_xor_eq (msg : List Byte) (a : Byte) : msg.foldl (· ^^^ ·) a = a ^^^ xorBytes msg := by
  induction msg generalizing a with
  | nil => simp [xorBytes]
  | cons b msg ih =>
    simp only [xorBytes, List.foldl_cons]
    rw [ih, ih (0 ^^^ b)]
    simp [BitVec.xor_assoc]

/-- The byte sum from any start. -/
theorem foldl_addBytes_eq (msg : List Byte) (a : Nat) :
    msg.foldl (fun sum b => sum + b.toNat) a = a + (msg.map fun b => b.toNat).sum := by
  induction msg generalizing a with
  | nil => simp
  | cons b msg ih => rw [List.foldl_cons, ih]; simp [Nat.add_assoc]

/-- The high and the low nibble of a byte as numbers. -/
theorem nibbles_toNat : ∀ b : Byte, (b.extractLsb' 4 4).toNat = b.toNat / 16 ∧ (b.extractLsb' 0 4).toNat = b.toNat % 16 := by
  decide +kernel

/-- Parity counts the set bits of a byte (R240). -/
theorem toNat_parity8 : ∀ b : Byte, (parity8 b).toNat = ((List.range 8).countP fun i => b.getLsbD i) % 2 := by
  decide +kernel

end Sys2Proof.Machine
end

