-- ==== Sys2Proof/Tests/Slice0.lean ====
section
/-! SUPPORT. Tests: the smoke test of WellFormed, one word of each constructor written out from spec/30_encoding.md R71 to R73,
single commands with the expected values of spec/95_test_vectors.md (V<n> names the vector), and for every statement with hypotheses
a concrete state that meets them. -/

namespace Sys2Proof.Tests

set_option Elab.async false

open Sys2Proof Sys2Proof.Machine

/-! ### WellFormed: a row that does not fit five bits is refused -/

theorem test_wellFormed_refuses_row_32 : (Instr.search 32).wellFormed = false := by decide
theorem test_wellFormed_refuses_byte_row_32 : (Instr.crc8 32).wellFormed = false := by decide
theorem test_wellFormed_refuses_manch_row_40 : (Instr.manch 40 true true).wellFormed = false := by decide
theorem test_wellFormed_accepts_row_31 : (Instr.search 31).wellFormed = true ∧ rowFits 31 = true ∧ rowFits 32 = false := by decide
theorem test_text_of_the_syntax : (Instr.manch 2 true true).text = "MANCH.c1.zb r2" ∧ Instr.crc8Out.text = "CRC8 out" := by
  decide +kernel

/-! ### Decoding: OPC in bits 7:0, ROW in 12:8, SRC in 13, M0 in 16, M1 in 17 -/

theorem test_decode_search : decodeWord 0x00000510#32 = .ok (.search 5) := by rfl
theorem test_decode_extract : decodeWord 0x00000811#32 = .ok (.extract 8) := by rfl
theorem test_decode_getbit : decodeWord 0x00001D12#32 = .ok (.getbit 29) := by rfl
theorem test_decode_getbyte : decodeWord 0x00001013#32 = .ok (.getbyte 16) := by rfl
theorem test_decode_invert : decodeWord 0x00000020#32 = .ok .invert := by rfl
theorem test_decode_rev8 : decodeWord 0x00000021#32 = .ok .rev8 := by rfl
theorem test_decode_refl4 : decodeWord 0x00000022#32 = .ok .refl4 := by rfl
theorem test_decode_manch : decodeWord 0x00011523#32 = .ok (.manch 21 true false) := by rfl
theorem test_decode_dmanch : decodeWord 0x00001824#32 = .ok (.dmanch 24) := by rfl
theorem test_decode_uart8n1 : decodeWord 0x00000D25#32 = .ok (.uart8n1 13) := by rfl
theorem test_decode_uart8o1 : decodeWord 0x00000026#32 = .ok (.uart8o1 0) := by rfl
theorem test_decode_nib4b1s : decodeWord 0x00000527#32 = .ok (.nib4b1s 5) := by rfl
theorem test_decode_symbols : decodeWord 0x00000828#32 = .ok (.symbols 8) := by rfl
theorem test_decode_whiten : decodeWord 0x00011D29#32 = .ok (.whiten 29 true) := by rfl
theorem test_decode_whitenOut : decodeWord 0x00012029#32 = .ok (.whitenOut true) := by rfl
theorem test_decode_crc4 : decodeWord 0x00001030#32 = .ok (.crc4 16) := by rfl
theorem test_decode_crc4Out : decodeWord 0x00002030#32 = .ok .crc4Out := by rfl
theorem test_decode_crc7 : decodeWord 0x00001531#32 = .ok (.crc7 21) := by rfl
theorem test_decode_crc7Out : decodeWord 0x00002031#32 = .ok .crc7Out := by rfl
theorem test_decode_crc8 : decodeWord 0x00001832#32 = .ok (.crc8 24) := by rfl
theorem test_decode_crc8Out : decodeWord 0x00002032#32 = .ok .crc8Out := by rfl
theorem test_decode_crc8le : decodeWord 0x00000D33#32 = .ok (.crc8le 13) := by rfl
theorem test_decode_crc8leOut : decodeWord 0x00002033#32 = .ok .crc8leOut := by rfl
theorem test_decode_crc16 : decodeWord 0x00000034#32 = .ok (.crc16 0) := by rfl
theorem test_decode_crc16Out : decodeWord 0x00002034#32 = .ok .crc16Out := by rfl
theorem test_decode_crc16lsb : decodeWord 0x00000535#32 = .ok (.crc16lsb 5) := by rfl
theorem test_decode_crc16lsbOut : decodeWord 0x00002035#32 = .ok .crc16lsbOut := by rfl
theorem test_decode_lfsr8 : decodeWord 0x00000838#32 = .ok (.lfsr8 8) := by rfl
theorem test_decode_lfsr8Out : decodeWord 0x00002038#32 = .ok .lfsr8Out := by rfl
theorem test_decode_lfsr8rev : decodeWord 0x00001D39#32 = .ok (.lfsr8rev 29) := by rfl
theorem test_decode_lfsr8revOut : decodeWord 0x00002039#32 = .ok .lfsr8revOut := by rfl
theorem test_decode_lfsr8rfl : decodeWord 0x0000103A#32 = .ok (.lfsr8rfl 16) := by rfl
theorem test_decode_lfsr8rflOut : decodeWord 0x0000203A#32 = .ok .lfsr8rflOut := by rfl
theorem test_decode_lfsr16 : decodeWord 0x0000153B#32 = .ok (.lfsr16 21) := by rfl
theorem test_decode_lfsr16Out : decodeWord 0x0000203B#32 = .ok .lfsr16Out := by rfl
theorem test_decode_parity8 : decodeWord 0x00000040#32 = .ok .parity8 := by rfl
theorem test_decode_parityb : decodeWord 0x00001841#32 = .ok (.parityb 24) := by rfl
theorem test_decode_paritybOut : decodeWord 0x00002041#32 = .ok .paritybOut := by rfl
theorem test_decode_xorb : decodeWord 0x00000D42#32 = .ok (.xorb 13) := by rfl
theorem test_decode_xorbOut : decodeWord 0x00002042#32 = .ok .xorbOut := by rfl
theorem test_decode_addb : decodeWord 0x00000043#32 = .ok (.addb 0) := by rfl
theorem test_decode_addbOut : decodeWord 0x00002043#32 = .ok .addbOut := by rfl
theorem test_decode_addn : decodeWord 0x00000544#32 = .ok (.addn 5) := by rfl
theorem test_decode_addnOut : decodeWord 0x00002044#32 = .ok .addnOut := by rfl
theorem test_decode_manch_zb : decodeWord 0x00020223#32 = .ok (.manch 2 false true) := by rfl
theorem test_decodeTableWord : decodeTableWord 32 0x00012029 = some (.whitenOut true) ∧ decodeTableWord 32 0x12029032 = none := by
  decide
/-- V170 to V172. -/
theorem test_illegal_words :
    decodeWord 0x00000000#32 = .error .unassignedOpcode ∧ decodeWord 0x00004010#32 = .error .reservedBit ∧
    decodeWord 0x00002010#32 = .error .unusedField ∧ decodeWord 0x00010010#32 = .error .unusedField ∧
    decodeWord 0x00000120#32 = .error .unusedField ∧ decodeWord 0x00002132#32 = .error .unusedField ∧
    decodeWord 0x00020029#32 = .error .unusedField ∧ decodeWord 0x00002023#32 = .error .unusedField :=
  ⟨rfl, rfl, rfl, rfl, rfl, rfl, rfl, rfl⟩
theorem test_decode_short_input : decode [0x10, 0x00, 0x00] = .error .shortInput := by rfl

/-! ### Single commands -/

/-- The next state of an outcome. -/
def after (o : Host.Outcome State Fault Refusal) : Option State :=
  match o with
  | .next t => some t
  | .fault _ => none
  | .refused _ => none

/-- Reset, then one row of `nbits` bits in row 0, NROWS = 1 and the operands (the start state of spec/95_test_vectors.md). -/
def rowState (bytes : List Byte) (nbits : Word) (a : Vector Word 5) : State :=
  { State.reset with
    a := a
    nrows := 1
    bits := State.reset.bits.set 0 nbits
    mem := Memory.writeBytes [] Config.rowBase bytes }

/-- Reset, then a payload of whole bytes in OUT and the operands. -/
def outState (bytes : List Byte) (a : Vector Word 5) : State :=
  { State.reset with
    a := a
    mem := Memory.writeBytes [] Config.outBase bytes
    outbits := BitVec.ofNat 32 (8 * bytes.length) }

/-- R[0] after a command. -/
def r0After (i : Instr) (s : State) : Option Word := (after (exec i s)).map State.r0

/-- STATUS after a command. -/
def statusAfter (i : Instr) (s : State) : Option Word := (after (exec i s)).map State.status

/-- The first n bytes of OUT, and OUTBITS, after a command. -/
def outAfter (i : Instr) (s : State) (n : Nat) : Option (List Byte × Word) :=
  (after (exec i s)).map fun t => (t.message .out 0 n, t.outbits)

/-- The first n bytes of a row after a command. -/
def rowAfter (i : Instr) (s : State) (r n : Nat) : Option (List Byte) :=
  (after (exec i s)).map fun t => t.message (.row r) 0 n

/-- ROWA of spec/95_test_vectors.md. -/
def rowA (a : Vector Word 5) : State := rowState [0x00, 0xAA, 0xAA, 0x2D, 0xD4, 0x12, 0x34, 0x56] 64 a

/-- ROWA with a pattern in PAT. -/
def rowAPat (pat : List Byte) (a : Vector Word 5) : State :=
  { rowA a with mem := Memory.writeBytes (rowA a).mem Config.patBase pat }

/-- The row `12 34 56` of 24 bits. -/
def row3 (a : Vector Word 5) : State := rowState [0x12, 0x34, 0x56] 24 a

/-- The payload `12 34 56`. -/
def out3 (a : Vector Word 5) : State := outState [0x12, 0x34, 0x56] a

/-- V1. -/
theorem test_search_finds_the_first_match : r0After (.search 0) (rowAPat [0x2D, 0xD4] #v[0, 16, 0, 0, 0]) = some 24 := by
  decide +kernel
/-- V3. -/
theorem test_search_sentinel : r0After (.search 0) (rowAPat [0x2D, 0xD4] #v[25, 16, 0, 0, 0]) = some 64 := by decide +kernel
/-- V15. -/
theorem test_extract_mid_byte : outAfter (.extract 0) (rowA #v[41, 11, 0, 0, 0]) 3 = some ([0x24, 0x60, 0x00], 11) := by
  decide +kernel
/-- V20. -/
theorem test_extract_range : statusAfter (.extract 0) (rowA #v[60, 8, 0, 0, 0]) = some 0x104 := by decide +kernel
/-- V21. -/
theorem test_getbit : r0After (.getbit 0) (rowA #v[8, 0, 0, 0, 0]) = some 1 := by decide +kernel
/-- V22. -/
theorem test_getbyte : r0After (.getbyte 0) (rowA #v[26, 0, 0, 0, 0]) = some 0xB7 := by decide +kernel
/-- V23. -/
theorem test_invert_keeps_pad_bits :
    (after (exec .invert { rowState [0xA5, 0xF0] 12 #v[0, 0, 0, 0, 0] with
      nrows := 2
      bits := (State.reset.bits.set 0 12).set 1 3
      mem := Memory.writeBytes (Memory.writeBytes [] Config.rowBase [0xA5, 0xF0]) (Config.rowBase + 128) [0xFF] })).map
      (fun t => (t.message (.row 0) 0 2, t.message (.row 1) 0 1)) = some ([0x5A, 0x00], [0x1F]) := by decide +kernel
/-- V178. -/
theorem test_invert_config : statusAfter .invert { row3 #v[0, 0, 0, 0, 0] with nrows := 26 } = some 0x102 := by decide +kernel
/-- V27. -/
theorem test_rev8 : r0After .rev8 (row3 #v[0x00ABCD12, 0, 0, 0, 0]) = some 0x48 := by decide +kernel
/-- V27. -/
theorem test_refl4 : r0After .refl4 (row3 #v[0x00ABCD12, 0, 0, 0, 0]) = some 0x84 := by decide +kernel
/-- V34. -/
theorem test_manch_conventions_and_zero_bit :
    outAfter (.manch 0 true true) (rowState [0x65, 0xA6] 16 #v[0, 8, 0, 0, 0]) 2 = some ([0x26, 0x80], 9) := by
  decide +kernel
/-- V40. -/
theorem test_manch_stops_at_an_invalid_cell : r0After (.manch 0 false false) (rowState [0x67, 0x90] 12 #v[0, 6, 0, 0, 0]) = some 6 := by
  decide +kernel
/-- V45. -/
theorem test_dmanch : outAfter (.dmanch 0) (rowState [0xD3, 0x52] 16 #v[0, 8, 0, 0, 0]) 2 = some ([0xB2, 0x00], 8) := by
  decide +kernel
/-- V53. -/
theorem test_dmanch_stops_without_clock_edge : r0After (.dmanch 0) (rowState [0xC9, 0xC0] 10 #v[0, 5, 0, 0, 0]) = some 6 := by
  decide +kernel
/-- V60. -/
theorem test_uart8n1 :
    outAfter (.uart8n1 0) (rowState [0x24, 0x45, 0x93, 0x54, 0x3C] 40 #v[0, 40, 0, 0, 0]) 4 = some ([0x12, 0x34, 0x56, 0x00], 24) := by
  decide +kernel
/-- V68. -/
theorem test_uart8o1 :
    outAfter (.uart8o1 0) (rowState [0x89, 0x53, 0x42, 0xAE, 0x00] 33 #v[0, 33, 0, 0, 0]) 3 = some ([0x12, 0x34, 0x57], 24) := by
  decide +kernel
/-- V69. -/
theorem test_uart8o1_parity : r0After (.uart8o1 0) (rowState [0x89, 0x53, 0x4A, 0xAE, 0x00] 33 #v[0, 33, 0, 0, 0]) = some 1 := by
  decide +kernel
/-- V73. -/
theorem test_nib4b1s :
    outAfter (.nib4b1s 0) (rowState [0xAA, 0xFE, 0x61, 0x80] 25 #v[0, 25, 0, 0, 0]) 4 = some ([0x0A, 0x05, 0x0F, 0x00], 24) := by
  decide +kernel
/-- V78. -/
theorem test_symbols :
    outAfter (.symbols 0) (rowState [0xFB, 0x6B, 0xEC] 23 #v[0, 23, 0x80000002, 0xC0000003, 0xF0000004]) 2 = some ([0x60, 0x00], 4) := by
  decide +kernel
/-- V88. -/
theorem test_symbols_operand :
    statusAfter (.symbols 0) (rowState [0xB2] 8 #v[0, 8, 0x80000002, 0xC0000003, 0xF000001C]) = some 0x105 := by
  decide +kernel
/-- V93. -/
theorem test_whiten_mask_starts_at_the_run : rowAfter (.whiten 0 false) (row3 #v[1, 2, 0, 0, 0]) 0 3 = some [0x12, 0xCB, 0xB7] := by
  decide +kernel
/-- V92. -/
theorem test_whiten_reflected : rowAfter (.whiten 0 true) (row3 #v[0, 3, 0, 0, 0]) 0 3 = some [0xED, 0xB3, 0xEE] := by
  decide +kernel
/-- V91, on OUT. -/
theorem test_whitenOut : outAfter (.whitenOut false) (out3 #v[0, 3, 0, 0, 0]) 3 = some ([0xED, 0xD5, 0x4B], 24) := by
  decide +kernel
/-- V123. -/
theorem test_crc8 : r0After (.crc8 0) (row3 #v[0, 3, 0x31, 0, 0]) = some 0xc1 := by decide +kernel
/-- V123, on OUT. -/
theorem test_crc8Out : r0After .crc8Out (out3 #v[1, 2, 0x31, 0, 0]) = some 0xe9 := by decide +kernel
/-- V124. -/
theorem test_crc8le : r0After (.crc8le 0) (row3 #v[0, 3, 0x31, 0, 0]) = some 0x15 := by decide +kernel
/-- V124, on OUT. -/
theorem test_crc8leOut : r0After .crc8leOut (out3 #v[1, 2, 0x31, 0, 0]) = some 0x10 := by decide +kernel
/-- V125. -/
theorem test_crc4 : r0After (.crc4 0) (row3 #v[0, 3, 0x13, 0xF0, 0]) = some 0x1 := by decide +kernel
/-- V125, on OUT. -/
theorem test_crc4Out : r0After .crc4Out (out3 #v[1, 2, 0x13, 0xF0, 0]) = some 0x7 := by decide +kernel
/-- V126. -/
theorem test_crc7 : r0After (.crc7 0) (row3 #v[0, 3, 0x89, 0x80, 0]) = some 0x2f := by decide +kernel
/-- V126, on OUT. -/
theorem test_crc7Out : r0After .crc7Out (out3 #v[1, 2, 0x89, 0x80, 0]) = some 0x2c := by decide +kernel
/-- V127. -/
theorem test_crc16 : r0After (.crc16 0) (row3 #v[0, 3, 0x1021, 0, 0]) = some 0xde61 := by decide +kernel
/-- V127, on OUT. -/
theorem test_crc16Out : r0After .crc16Out (out3 #v[1, 2, 0x1021, 0, 0]) = some 0xf362 := by decide +kernel
/-- V128. -/
theorem test_crc16lsb : r0After (.crc16lsb 0) (row3 #v[0, 3, 0xA001, 0, 0]) = some 0xfb36 := by decide +kernel
/-- V128, on OUT. -/
theorem test_crc16lsbOut : r0After .crc16lsbOut (out3 #v[1, 2, 0xA001, 0, 0]) = some 0xfe96 := by decide +kernel
/-- V140, V144. -/
theorem test_lfsr8 : r0After (.lfsr8 0) (row3 #v[0, 3, 0x98, 0x3E, 0]) = some 0xf7 := by decide +kernel
/-- V140, V144, on OUT. -/
theorem test_lfsr8Out : r0After .lfsr8Out (out3 #v[1, 2, 0x98, 0x3E, 0]) = some 0xba := by decide +kernel
/-- V141, V144. -/
theorem test_lfsr8rev : r0After (.lfsr8rev 0) (row3 #v[0, 3, 0x98, 0x3E, 0]) = some 0xa8 := by decide +kernel
/-- V141, V144, on OUT. -/
theorem test_lfsr8revOut : r0After .lfsr8revOut (out3 #v[1, 2, 0x98, 0x3E, 0]) = some 0x32 := by decide +kernel
/-- V142, V144. -/
theorem test_lfsr8rfl : r0After (.lfsr8rfl 0) (row3 #v[0, 3, 0x31, 0xF4, 0]) = some 0x76 := by decide +kernel
/-- V142, V144, on OUT. -/
theorem test_lfsr8rflOut : r0After .lfsr8rflOut (out3 #v[1, 2, 0x31, 0xF4, 0]) = some 0x49 := by decide +kernel
/-- V143, V144. -/
theorem test_lfsr16 : r0After (.lfsr16 0) (row3 #v[0, 3, 0x8810, 0x5412, 0]) = some 0x66c1 := by decide +kernel
/-- V143, V144, on OUT. -/
theorem test_lfsr16Out : r0After .lfsr16Out (out3 #v[1, 2, 0x8810, 0x5412, 0]) = some 0xae03 := by decide +kernel
/-- V152. -/
theorem test_parityb : r0After (.parityb 0) (row3 #v[0, 3, 0, 0, 0]) = some 0x1 := by decide +kernel
/-- V152, on OUT. -/
theorem test_paritybOut : r0After .paritybOut (out3 #v[1, 2, 0, 0, 0]) = some 0x1 := by decide +kernel
/-- V153. -/
theorem test_xorb : r0After (.xorb 0) (row3 #v[0, 3, 0, 0, 0]) = some 0x70 := by decide +kernel
/-- V153, on OUT. -/
theorem test_xorbOut : r0After .xorbOut (out3 #v[1, 2, 0, 0, 0]) = some 0x62 := by decide +kernel
/-- V154. -/
theorem test_addb : r0After (.addb 0) (row3 #v[0, 3, 0, 0, 0]) = some 0x9c := by decide +kernel
/-- V154, on OUT. -/
theorem test_addbOut : r0After .addbOut (out3 #v[1, 2, 0, 0, 0]) = some 0x8a := by decide +kernel
/-- V155. -/
theorem test_addn : r0After (.addn 0) (row3 #v[0, 3, 0, 0, 0]) = some 0x15 := by decide +kernel
/-- V155, on OUT. -/
theorem test_addnOut : r0After .addnOut (out3 #v[1, 2, 0, 0, 0]) = some 0x12 := by decide +kernel
/-- V151. -/
theorem test_parity8 : r0After .parity8 (row3 #v[0x1FE, 0, 0, 0, 0]) = some 1 := by decide +kernel
/-- V156. -/
theorem test_addb_is_not_cut_to_a_byte : r0After (.addb 0) (rowState [0xFF, 0xFF, 0xFF] 24 #v[0, 3, 0, 0, 0]) = some 0x2FD := by
  decide +kernel
/-- V130. -/
theorem test_crc8Out_range : statusAfter .crc8Out (out3 #v[0, 4, 0x31, 0, 0]) = some 0x104 := by decide +kernel
/-- V131. -/
theorem test_crc8Out_needs_no_row : r0After .crc8Out (outState [] #v[0, 0, 0x31, 0x77, 0]) = some 0x77 := by decide +kernel

/-! ### Steps -/

/-- V170: CMD stores the illegal word. -/
theorem test_step_illegal_word :
    (after (step ((rowA #v[0, 0, 0, 0, 0]).withFetchWord 32 0))).map (fun t => (t.cmd, t.status, t.pending)) =
      some (0x00000000, 0x101, []) := by decide +kernel
/-- V176: the step runs the word that withFetchWord puts first; ERR_CONFIG comes before ERR_ROW. -/
theorem test_step_runs_the_word :
    (after (step ({ rowA #v[0, 0, 0, 0, 0] with nrows := 40 }.withFetchWord 32 0x00001E11))).map
      (fun t => (t.cmd, t.status)) = some (0x00001E11, 0x102) := by decide +kernel
/-- R26, R56: writing STATUS with bit 8 set clears STICKY and leaves ERR. -/
theorem test_clrsticky :
    (after (step { State.reset with status := 0x104, pending := clrstickyProg })).map State.status = some 0x004 := by
  decide +kernel
/-- R57: the last byte of BB and the first reserved offset after it. -/
theorem test_window_end : placeAt 0x1C7F = .rows ∧ placeAt 0x1C80 = .reserved ∧ placeAt 0x00E3 = .register (.bits 24) := by decide

/-! ### Witnesses: for each statement with hypotheses, a state and operands that meet them together -/

theorem witness_DecodeOfEncodeIsIdentity :
    (Instr.search 31).wellFormed = true ∧ (Instr.manch 0 true true).wellFormed = true := by decide

theorem witness_EveryWordIsOneCommandOrIllegal :
    decodeWord 0x00001F10#32 = .ok (.search 31) ∧ decodeWord 0x00000000#32 = .error .unassignedOpcode := ⟨rfl, rfl⟩

theorem witness_WriteToCmdRunsTheDecodedCommand :
    { State.reset with pending := [.writeWord 0 0x00000020] }.pending = [.writeWord 0 0x00000020] ∧
    decodeWord 0x00000020#32 = .ok .invert := ⟨rfl, rfl⟩

theorem witness_IllegalWordIsStoredAndRaisesErrIllegal :
    { State.reset with pending := [.writeWord 0 0x00004010] }.pending = [.writeWord 0 0x00004010] ∧
    decodeWord 0x00004010#32 = .error .reservedBit := ⟨rfl, rfl⟩

theorem witness_IdleBduHoldsItsState : State.reset.pending = [] := rfl

theorem witness_PlatformResetGivesTheResetState :
    { row3 #v[1, 2, 3, 4, 5] with pending := [.reset, .readByte 0] }.pending = [.reset, .readByte 0] := rfl

/-- The last byte of each buffer. -/
theorem witness_HostReadsReturnTheStateAndChangeNothing : 15 < 16 ∧ 255 < 256 ∧ 24 < 25 ∧ 127 < 128 := by decide

/-- A canonical memory, so that the premise on it holds. -/
theorem witness_HostWritesFollowTheRightsTable :
    Memory.wf (row3 #v[0, 0, 0, 0, 0]).mem = true ∧ 15 < 16 ∧ 255 < 256 ∧ 24 < 25 ∧ 127 < 128 := by decide

/-- The first and last offset of each reserved stretch, the first of them aligned. -/
theorem witness_ReservedOffsetsReadZeroAndIgnoreWrites :
    ∀ off ∈ [0x1C, 0x1F, 0x30, 0x3F, 0x50, 0x7F, 0xE4, 0xFF, 0x200, 0xFFF, 0x1C80],
      (0x1C ≤ off ∧ off < 0x20) ∨ (0x30 ≤ off ∧ off < 0x40) ∨ (0x50 ≤ off ∧ off < 0x80) ∨ (0xE4 ≤ off ∧ off < 0x100) ∨
        (0x200 ≤ off ∧ off < 0x1000) ∨ 0x1C80 ≤ off := by decide

/-- A boundary offset for each clause: misaligned, register bytes, buffer words. -/
theorem witness_OtherAccessWidthsAreRefused :
    0x02 % 4 ≠ 0 ∧ (∀ off ∈ [0x00, 0x1B], off < 0x1C) ∧ (∀ off ∈ [0x20, 0x2F], 0x20 ≤ off ∧ off < 0x30) ∧
    (∀ off ∈ [0x80, 0xE3], 0x80 ≤ off ∧ off < 0xE4) ∧ (∀ off ∈ [0x40, 0x4F], 0x40 ≤ off ∧ off < 0x50) ∧
    (∀ off ∈ [0x100, 0x1FF], 0x100 ≤ off ∧ off < 0x200) ∧ ∀ off ∈ [0x1000, 0x1C7F], 0x1000 ≤ off ∧ off < 0x1C80 := by decide

theorem witness_FailingCommandChangesOnlyCmdAndStatus :
    { State.reset with pending := [.writeWord 0 0x00000010] }.pending = [.writeWord 0 0x00000010] := rfl

/-- 26 rows; row 3 of 3; a row of 1025 bits: the least value of each clause. -/
theorem witness_CommonChecksReportTheFirstFailure :
    (Instr.extract 3).namedRow = some 3 ∧
    (25 < { State.reset with nrows := 26 }.nrows.toNat) ∧
    ({ State.reset with nrows := 3 }.nrows.toNat ≤ 25 ∧ { State.reset with nrows := 3 }.nrows.toNat ≤ 3) ∧
    (let s := { State.reset with nrows := 25, bits := State.reset.bits.set 3 1025 }
     s.nrows.toNat ≤ 25 ∧ 3 < s.nrows.toNat ∧ 1024 < s.rowLen 3) ∧
    { State.reset with nrows := 40 }.nrows = 40 ∧ { State.reset with nrows := 3 }.nrows = 3 := by decide

/-- Each clause at the least operand that meets it; the row is `12 34 56` of 24 bits. -/
theorem witness_OperandAndRangeErrorsAreTheListed :
    (∀ s ∈ [row3 #v[0, 129, 0, 0, 0], row3 #v[25, 128, 0, 0, 0], row3 #v[20, 5, 0, 0, 0], row3 #v[24, 0, 0, 0, 0],
        row3 #v[17, 0, 0, 0, 0], row3 #v[0, 0, 28, 0, 0], row3 #v[0, 0, 0, 28, 0], row3 #v[0, 0, 0, 0, 28],
        row3 #v[0, 25, 27, 27, 27]], s.rowReady 0 = true) ∧
    128 < (row3 #v[0, 129, 0, 0, 0]).opndNat 1 ∧
    ((row3 #v[25, 128, 0, 0, 0]).opndNat 1 ≤ 128 ∧
      (row3 #v[25, 128, 0, 0, 0]).rowLen 0 < (row3 #v[25, 128, 0, 0, 0]).opndNat 0) ∧
    (row3 #v[20, 5, 0, 0, 0]).rowLen 0 < (row3 #v[20, 5, 0, 0, 0]).opndNat 0 + (row3 #v[20, 5, 0, 0, 0]).opndNat 1 ∧
    (row3 #v[24, 0, 0, 0, 0]).rowLen 0 ≤ (row3 #v[24, 0, 0, 0, 0]).opndNat 0 ∧
    (row3 #v[17, 0, 0, 0, 0]).rowLen 0 < (row3 #v[17, 0, 0, 0, 0]).opndNat 0 + 8 ∧
    27 < symLen ((row3 #v[0, 0, 28, 0, 0]).opnd 2) ∧ 27 < symLen ((row3 #v[0, 0, 0, 28, 0]).opnd 3) ∧
    27 < symLen ((row3 #v[0, 0, 0, 0, 28]).opnd 4) ∧
    (let s := row3 #v[0, 25, 27, 27, 27]
     symLen (s.opnd 2) ≤ 27 ∧ symLen (s.opnd 3) ≤ 27 ∧ symLen (s.opnd 4) ≤ 27 ∧
       s.rowLen 0 < s.opndNat 0 + s.opndNat 1) ∧
    25 < { State.reset with nrows := 26 }.nrows.toNat ∧
    (let s := { State.reset with nrows := 25, bits := State.reset.bits.set 24 1025 }
     s.nrows.toNat ≤ 25 ∧ 24 < s.nrows.toNat ∧ 1024 < s.rowLen 24) := by decide +kernel

theorem witness_ByteRunBeyondTheExtentIsErrRange :
    (Instr.crc8 0).byteSource = some (.row 0) ∧ (row3 #v[2, 2, 0, 0, 0]).sourceReady (.row 0) = true ∧
    (row3 #v[2, 2, 0, 0, 0]).extent (.row 0) < (row3 #v[2, 2, 0, 0, 0]).opndNat 0 + (row3 #v[2, 2, 0, 0, 0]).opndNat 1 ∧
    (Instr.whitenOut true).byteSource = some .out ∧ (out3 #v[0, 4, 0, 0, 0]).sourceReady .out = true ∧
    (out3 #v[0, 4, 0, 0, 0]).extent .out < (out3 #v[0, 4, 0, 0, 0]).opndNat 0 + (out3 #v[0, 4, 0, 0, 0]).opndNat 1 := by
  decide +kernel

theorem witness_TakingAnErrorWritesCodeAndSticky : 4 ≤ 31 ∧ 31 ≠ 8 := by decide

theorem witness_BufferlessCommandsIgnoreTheRowRegisters :
    Instr.crc8Out.namedRow = none ∧ Instr.crc8Out ≠ .invert ∧ ∃ t, exec .crc8Out (out3 #v[0, 3, 0x31, 0, 0]) = .next t :=
  ⟨rfl, by decide, _, rfl⟩

theorem witness_FirstCommandAfterReset :
    (Instr.extract 0).namedRow = some 0 ∧ Instr.invert.namedRow = none ∧ Instr.crc8Out.namedRow = none := by decide

theorem witness_NoCommandWritesTheHostsState : 15 < 16 ∧ ∃ t, exec (.extract 0) (row3 #v[0, 8, 0, 0, 0]) = .next t :=
  ⟨by decide, _, rfl⟩

theorem witness_ReadOnlyCommandsChangeNoBuffer :
    (Instr.search 0).writesPayload = false ∧ (Instr.search 0).mutatesInPlace = false ∧
    ∃ t, exec (.search 0) (row3 #v[0, 8, 0, 0, 0]) = .next t := ⟨rfl, rfl, _, rfl⟩

theorem witness_PayloadCommandsReplaceTheWholeOfOut :
    (Instr.extract 0).writesPayload = true ∧ (row3 #v[3, 7, 0, 0, 0]).inv = true ∧
    statusAfter (.extract 0) (row3 #v[3, 7, 0, 0, 0]) = some 0 := by decide +kernel

theorem witness_EveryStepKeepsTheInvariant :
    (row3 #v[0, 8, 0, 0, 0]).inv = true ∧ ∃ t, step ((row3 #v[0, 8, 0, 0, 0]).withFetchWord 32 0x00000011) = .next t :=
  ⟨by decide +kernel, _, rfl⟩

/-- A match, no match (the sentinel), and an empty pattern at the row's end. -/
theorem witness_SearchReturnsTheFirstMatchOrTheSentinel :
    (∀ s ∈ [rowAPat [0x2D, 0xD4] #v[0, 16, 0, 0, 0], rowAPat [0xFF] #v[0, 128, 0, 0, 0], rowA #v[64, 0, 0, 0, 0]],
      s.rowReady 0 = true ∧ s.opndNat 1 ≤ 128 ∧ s.opndNat 0 ≤ s.rowLen 0) ∧
    (rowAPat [0x2D, 0xD4] #v[0, 16, 0, 0, 0]).patternAt 0 16 24 = true := by decide +kernel

/-- An empty run at the end of the row, and the whole row. -/
theorem witness_ExtractCopiesTheBitRun :
    ∀ s ∈ [row3 #v[24, 0, 0, 0, 0], row3 #v[0, 24, 0, 0, 0], row3 #v[3, 7, 0, 0, 0]],
      s.inv = true ∧ s.rowReady 0 = true ∧ s.opndNat 0 + s.opndNat 1 ≤ s.rowLen 0 := by decide +kernel

theorem witness_ExtractFromTheStartGivesTheRowsBytes :
    (row3 #v[0, 24, 0, 0, 0]).inv = true ∧ (row3 #v[0, 24, 0, 0, 0]).rowReady 0 = true ∧
    (row3 #v[0, 24, 0, 0, 0]).opndNat 0 = 0 ∧ (row3 #v[0, 24, 0, 0, 0]).opndNat 1 = 8 * 3 ∧
    8 * 3 ≤ (row3 #v[0, 24, 0, 0, 0]).rowLen 0 := by decide +kernel

/-- The last bit of the row, and its last whole byte with A[1] = 8. -/
theorem witness_GetbitAndGetbyteReadTheRow :
    (row3 #v[23, 0, 0, 0, 0]).rowReady 0 = true ∧ (row3 #v[23, 0, 0, 0, 0]).opndNat 0 < (row3 #v[23, 0, 0, 0, 0]).rowLen 0 ∧
    (row3 #v[16, 8, 0, 0, 0]).rowReady 0 = true ∧
    (row3 #v[16, 8, 0, 0, 0]).opndNat 0 + 8 ≤ (row3 #v[16, 8, 0, 0, 0]).rowLen 0 ∧
    (row3 #v[16, 8, 0, 0, 0]).inv = true ∧ (row3 #v[16, 8, 0, 0, 0]).opnd 1 = 8 := by decide +kernel

/-- A row that ends inside a byte, and no valid row at all. -/
theorem witness_InvertFlipsExactlyTheValidBits :
    ∀ s ∈ [rowState [0xA5, 0xF0] 12 #v[0, 0, 0, 0, 0], State.reset], s.inv = true ∧ s.allRowsReady = true := by
  decide +kernel

theorem witness_InvertTwiceRestoresTheBuffer :
    (rowState [0xA5, 0xF0] 12 #v[0, 0, 0, 0, 0]).inv = true ∧
    (rowState [0xA5, 0xF0] 12 #v[0, 0, 0, 0, 0]).allRowsReady = true ∧
    ∃ t, exec .invert (rowState [0xA5, 0xF0] 12 #v[0, 0, 0, 0, 0]) = .next t :=
  ⟨by decide +kernel, by decide +kernel, _, rfl⟩

/-- A start at the row's end, and a row with an odd last bit. -/
theorem witness_ManchDecodesTheLongestRunOfValidCells :
    ∀ s ∈ [rowState [0x65, 0xA6] 16 #v[16, 8, 0, 0, 0], rowState [0x66] 7 #v[0, 8, 0, 0, 0]],
      s.inv = true ∧ s.rowReady 0 = true ∧ s.opndNat 0 ≤ s.rowLen 0 := by decide +kernel

/-- V30: `B2` sent with CONV = 0. -/
theorem witness_ManchesterRoundTrip :
    let s := rowState [0x65, 0xA6] 16 #v[0, 8, 0, 0, 0]
    let sent := [true, false, true, true, false, false, true, false]
    s.inv = true ∧ s.rowReady 0 = true ∧ s.opndNat 1 = sent.length ∧ s.opndNat 0 + 2 * sent.length ≤ s.rowLen 0 ∧
    ∀ j, j < sent.length →
      s.rowBit 0 (s.opndNat 0 + 2 * j) = !(sent.getD j false ^^ false) ∧
      s.rowBit 0 (s.opndNat 0 + 2 * j + 1) = (sent.getD j false ^^ false) := by decide +kernel

theorem witness_ManchModifiersShiftAndComplement :
    (rowState [0x65, 0xA6] 16 #v[0, 8, 0, 0, 0]).inv = true ∧
    ∃ t, exec (.manch 0 true false) (rowState [0x65, 0xA6] 16 #v[0, 8, 0, 0, 0]) = .next t ∧ errOf t.status = 0 :=
  ⟨by decide +kernel, _, rfl, by decide +kernel⟩

theorem witness_DmanchDecodesUntilAClockEdgeIsMissing :
    ∀ s ∈ [rowState [0xC9, 0xC0] 10 #v[0, 5, 0, 0, 0], rowState [0xC9, 0xC0] 10 #v[10, 5, 0, 0, 0]],
      s.inv = true ∧ s.rowReady 0 = true ∧ s.opndNat 0 ≤ s.rowLen 0 := by decide +kernel

/-- INVERT, then each decode, from one state; all complete. -/
theorem witness_InversionBeforeAManchesterDecode :
    (rowState [0xD3, 0x52] 16 #v[0, 8, 0, 0, 0]).inv = true ∧
    (rowState [0xD3, 0x52] 16 #v[0, 8, 0, 0, 0]).allRowsReady = true ∧
    ∃ s', exec .invert (rowState [0xD3, 0x52] 16 #v[0, 8, 0, 0, 0]) = .next s' ∧
      (∃ t t', exec (.dmanch 0) (rowState [0xD3, 0x52] 16 #v[0, 8, 0, 0, 0]) = .next t ∧ exec (.dmanch 0) s' = .next t' ∧
        errOf t.status = 0) ∧
      ∃ t t', exec (.manch 0 false false) (rowState [0xD3, 0x52] 16 #v[0, 8, 0, 0, 0]) = .next t ∧
        exec (.manch 0 false false) s' = .next t' ∧ errOf t.status = 0 :=
  ⟨by decide +kernel, by decide +kernel, _, rfl, ⟨_, _, rfl, rfl, by decide +kernel⟩, _, _, rfl, rfl, by decide +kernel⟩

/-- V60, V68 and V73: a bad fourth frame, three good frames, a bad fourth group. -/
theorem witness_framing_decoders :
    ∀ s ∈ [rowState [0x24, 0x45, 0x93, 0x54, 0x3C] 40 #v[0, 40, 0, 0, 0],
        rowState [0x89, 0x53, 0x42, 0xAE, 0x00] 33 #v[0, 33, 0, 0, 0], rowState [0xAA, 0xFE, 0x61, 0x80] 25 #v[0, 25, 0, 0, 0]],
      s.inv = true ∧ s.rowReady 0 = true ∧ s.opndNat 0 + s.opndNat 1 ≤ s.rowLen 0 := by decide +kernel

theorem witness_Uart8n1DecodesTheLeadingGoodFrames :
    let s := rowState [0x24, 0x45, 0x93, 0x54, 0x3C] 40 #v[0, 40, 0, 0, 0]
    s.inv = true ∧ s.rowReady 0 = true ∧ s.opndNat 0 + s.opndNat 1 ≤ s.rowLen 0 :=
  witness_framing_decoders _ (by simp)

theorem witness_Uart8o1DecodesTheLeadingGoodFrames :
    let s := rowState [0x89, 0x53, 0x42, 0xAE, 0x00] 33 #v[0, 33, 0, 0, 0]
    s.inv = true ∧ s.rowReady 0 = true ∧ s.opndNat 0 + s.opndNat 1 ≤ s.rowLen 0 :=
  witness_framing_decoders _ (by simp)

theorem witness_Nib4b1sUnstuffsTheLeadingGoodGroups :
    let s := rowState [0xAA, 0xFE, 0x61, 0x80] 25 #v[0, 25, 0, 0, 0]
    s.inv = true ∧ s.rowReady 0 = true ∧ s.opndNat 0 + s.opndNat 1 ≤ s.rowLen 0 :=
  witness_framing_decoders _ (by simp)

theorem witness_UartPartialDecodeScenario :
    let s := rowState [0x24, 0x45, 0x93, 0x54, 0x3C] 40 #v[0, 40, 0, 0, 0]
    s.inv = true ∧ s.rowReady 0 = true ∧ 40 ≤ s.rowLen 0 ∧
      s.message (.row 0) 0 5 = [0x24, 0x45, 0x93, 0x54, 0x3C] ∧ s.opndNat 0 = 0 ∧ s.opndNat 1 = 40 := by decide +kernel

theorem witness_SymbolsReadsTheRunAsTheRuleSays :
    let s := rowState [0xFB, 0x6B, 0xEC] 23 #v[0, 23, 0x80000002, 0xC0000003, 0xF0000004]
    s.inv = true ∧ s.rowReady 0 = true ∧ symLen (s.opnd 2) ≤ 27 ∧ symLen (s.opnd 3) ≤ 27 ∧ symLen (s.opnd 4) ≤ 27 ∧
      s.opndNat 0 + s.opndNat 1 ≤ s.rowLen 0 := by decide +kernel

/-- V78: one sync, `0 1 1 0`, a sync, and a tail. -/
theorem witness_SymbolsRoundTrip :
    let s := rowState [0xFB, 0x6B, 0xEC] 23 #v[0, 23, 0x80000002, 0xC0000003, 0xF0000004]
    let data := [false, true, true, false]
    let tail := [true, false, true, true, false]
    s.inv = true ∧ s.rowReady 0 = true ∧ s.opndNat 0 + s.opndNat 1 ≤ s.rowLen 0 ∧
    (∀ x ∈ [s.opnd 2, s.opnd 3, s.opnd 4], 1 ≤ symLen x ∧ symLen x ≤ 27) ∧
    ([symBits (s.opnd 2), symBits (s.opnd 3), symBits (s.opnd 4)].Pairwise fun x y => ¬ x <+: y ∧ ¬ y <+: x) ∧
    data ≠ [] ∧
    s.rowRun 0 (s.opndNat 0) (s.opndNat 1) =
      (List.replicate 1 (symBits (s.opnd 4))).flatten ++
        data.flatMap (fun b => if b then symBits (s.opnd 3) else symBits (s.opnd 2)) ++ symBits (s.opnd 4) ++ tail := by
  simp only [List.forall_mem_cons, List.not_mem_nil, false_implies, implies_true, and_true]
  decide +kernel

/-- The recurrence of the whitening sequence, read off the generator's own states. -/
theorem lfsrStep_recurrence (st : BitVec 9) :
    (lfsrStep^[9] st).getLsbD 0 = (st.getLsbD 0 ^^ (lfsrStep^[5] st).getLsbD 0) := by
  have h0 : ∀ x, (lfsrStep x).getLsbD 0 = x.getLsbD 1 := fun x => getLsbD_lfsrStep x (by decide)
  have h1 : ∀ x, (lfsrStep x).getLsbD 1 = x.getLsbD 2 := fun x => getLsbD_lfsrStep x (by decide)
  have h2 : ∀ x, (lfsrStep x).getLsbD 2 = x.getLsbD 3 := fun x => getLsbD_lfsrStep x (by decide)
  have h3 : ∀ x, (lfsrStep x).getLsbD 3 = x.getLsbD 4 := fun x => getLsbD_lfsrStep x (by decide)
  have h4 : ∀ x, (lfsrStep x).getLsbD 4 = x.getLsbD 5 := fun x => getLsbD_lfsrStep x (by decide)
  have h5 : ∀ x, (lfsrStep x).getLsbD 5 = x.getLsbD 6 := fun x => getLsbD_lfsrStep x (by decide)
  have h6 : ∀ x, (lfsrStep x).getLsbD 6 = x.getLsbD 7 := fun x => getLsbD_lfsrStep x (by decide)
  have h7 : ∀ x, (lfsrStep x).getLsbD 7 = x.getLsbD 8 := fun x => getLsbD_lfsrStep x (by decide)
  have h8 : ∀ x, (lfsrStep x).getLsbD 8 = (x.getLsbD 0 ^^ x.getLsbD 5) := fun x => getLsbD_lfsrStep x (by decide)
  simp only [Function.iterate_succ_apply', Function.iterate_zero_apply, h0, h1, h2, h3, h4, h5, h6, h7, h8]

/-- The sequence exists; and there are states whose run, of three bytes and of none, is whitened. -/
theorem witness_WhitenXorsTheLfsrSequence :
    (∃ a : Nat → Bool, (∀ k, k < 9 → a k = true) ∧ ∀ k, a (k + 9) = (a k ^^ a (k + 5))) ∧
    (row3 #v[0, 3, 0, 0, 0]).inv = true ∧ (row3 #v[0, 3, 0, 0, 0]).sourceReady (.row 0) = true ∧
    (row3 #v[0, 3, 0, 0, 0]).runFits (.row 0) = true ∧ (out3 #v[3, 0, 0, 0, 0]).inv = true ∧
    (out3 #v[3, 0, 0, 0, 0]).sourceReady .out = true ∧ (out3 #v[3, 0, 0, 0, 0]).runFits .out = true := by
  refine ⟨⟨fun k => (lfsrStep^[k] 0x1FF).getLsbD 0, by decide +kernel, fun k => ?_⟩, by decide +kernel⟩
  show (lfsrStep^[k + 9] 0x1FF).getLsbD 0 = ((lfsrStep^[k] 0x1FF).getLsbD 0 ^^ (lfsrStep^[k + 5] 0x1FF).getLsbD 0)
  rw [Nat.add_comm k 9, Nat.add_comm k 5, Function.iterate_add_apply, Function.iterate_add_apply, lfsrStep_recurrence]

theorem witness_WhitenTwiceRestoresTheBytes :
    (row3 #v[1, 2, 0, 0, 0]).inv = true ∧ (row3 #v[1, 2, 0, 0, 0]).sourceReady (.row 0) = true ∧
    (row3 #v[1, 2, 0, 0, 0]).runFits (.row 0) = true ∧ ∃ t, exec (.whiten 0 true) (row3 #v[1, 2, 0, 0, 0]) = .next t :=
  ⟨by decide +kernel, by decide +kernel, by decide +kernel, _, rfl⟩

theorem witness_WhiteningMaskTableAndPeriod : 0 + 511 < 512 := by decide

/-- A row and OUT, each with a run that ends exactly at the valid extent; so for CrcCommandsReturnTheRegister,
Crc8leAndCrc16lsbAreReflectedCrcs, LfsrDigestsXorTheRolledKeys and ParityXorAndSumsOfTheMessage. -/
theorem witness_message_commands :
    (row3 #v[1, 2, 0x31, 0, 0]).inv = true ∧ (row3 #v[1, 2, 0x31, 0, 0]).sourceReady (.row 0) = true ∧
    (row3 #v[1, 2, 0x31, 0, 0]).runFits (.row 0) = true ∧ (out3 #v[0, 3, 0x31, 0, 0]).inv = true ∧
    (out3 #v[0, 3, 0x31, 0, 0]).sourceReady .out = true ∧ (out3 #v[0, 3, 0x31, 0, 0]).runFits .out = true := by
  decide +kernel

theorem witness_CrcCommandsReturnTheRegister :
    (row3 #v[1, 2, 0x31, 0, 0]).sourceReady (.row 0) = true ∧ (row3 #v[1, 2, 0x31, 0, 0]).runFits (.row 0) = true :=
  ⟨witness_message_commands.2.1, witness_message_commands.2.2.1⟩

theorem witness_Crc8leAndCrc16lsbAreReflectedCrcs :
    (out3 #v[0, 3, 0x31, 0, 0]).sourceReady .out = true ∧ (out3 #v[0, 3, 0x31, 0, 0]).runFits .out = true :=
  witness_message_commands.2.2.2.2

theorem witness_MsbFirstCrcIsThePolynomialRemainder : 0 < 8 := by decide

theorem witness_LfsrDigestsXorTheRolledKeys :
    (row3 #v[1, 2, 0x31, 0, 0]).sourceReady (.row 0) = true ∧ (row3 #v[1, 2, 0x31, 0, 0]).runFits (.row 0) = true :=
  ⟨witness_message_commands.2.1, witness_message_commands.2.2.1⟩

/-- The generators of V140 and V142 have their wrap-around bit; that of V146 has not. -/
theorem witness_KeyRollsAreRotationsWithTaps :
    (0x98 : BitVec 8).getLsbD (8 - 1) = true ∧ (0x31 : BitVec 8).getLsbD 0 = true ∧ (0x18 : BitVec 8).getLsbD (8 - 1) = false := by
  decide

theorem witness_ParityXorAndSumsOfTheMessage :
    (row3 #v[1, 2, 0x31, 0, 0]).inv = true ∧ (row3 #v[1, 2, 0x31, 0, 0]).sourceReady (.row 0) = true ∧
    (row3 #v[1, 2, 0x31, 0, 0]).runFits (.row 0) = true :=
  ⟨witness_message_commands.1, witness_message_commands.2.1, witness_message_commands.2.2.1⟩

end Sys2Proof.Tests
end

section
/-! The reset state piece by piece (spec/10_state.md R36): the two register files and the buffer bytes, then O8. -/

namespace Sys2Proof.Machine

@[simp] theorem State.reset_getElem_a (i : Fin 5) : State.reset.a[i] = 0 :=
  Vector.getElem_replicate i.isLt

@[simp] theorem State.reset_getElem_bits (r : Fin Config.numRows) : State.reset.bits[r] = 0 :=
  Vector.getElem_replicate r.isLt

/-- No byte is listed after reset, so every window offset reads the reset contents of R36. -/
@[simp] theorem State.reset_read_mem (off : Nat) : Memory.read State.reset.mem off = 0 :=
  Memory.read_nil off

/-- Settles O8: the register files and the bytes by their reset lemmas, each single register by its value in `State.reset`. -/
theorem resetMakesEveryPieceOfStateZero : Obligations.ResetMakesEveryPieceOfStateZero :=
  ⟨State.reset_getElem_a, rfl, rfl, rfl, rfl, rfl, State.reset_getElem_bits, rfl, State.reset_read_mem⟩

end Sys2Proof.Machine
end

section
/-! R77: what a table row tests of a word, what each class of R72 decodes, then O2. -/

namespace Sys2Proof

open Sys2Proof.Laws

/-! ### Words by their bits and fields (spec/30_encoding.md R71) -/

theorem and_eq_zero_iff_getLsbD {w m : Word} :
    w &&& m = 0#32 ↔ ∀ i, m.getLsbD i = true → w.getLsbD i = false := by
  constructor
  · intro h i hm
    have hi := congrArg (BitVec.getLsbD · i) h
    simpa [hm] using hi
  · intro h
    apply BitVec.eq_of_getLsbD_eq
    intro i _
    cases hm : m.getLsbD i
    · simp [hm]
    · simp [h i hm]

theorem rowOf_lt (w : Word) : rowOf w < 32 := (w.extractLsb' 8 5).isLt

section
variable {w m : Word} (h : w &&& m = 0#32)
include h

theorem srcOf_of_and (hm : srcOf m = true) : srcOf w = false := and_eq_zero_iff_getLsbD.1 h 13 hm

theorem m0Of_of_and (hm : m0Of m = true) : m0Of w = false := and_eq_zero_iff_getLsbD.1 h 16 hm

theorem m1Of_of_and (hm : m1Of m = true) : m1Of w = false := and_eq_zero_iff_getLsbD.1 h 17 hm

end

theorem rowOf_of_and {w : Word} (h : w &&& 0x1F00#32 = 0#32) : rowOf w = 0 := by
  have hbits : w.extractLsb' 8 5 = 0#5 := by
    apply BitVec.eq_of_getLsbD_eq
    intro i hi
    rw [BitVec.getLsbD_extractLsb', and_eq_zero_iff_getLsbD.1 h (8 + i) (by interval_cases i <;> rfl)]
    simp
  rw [rowOf, hbits]
  rfl

/-- R81 backwards: with the reserved bits 0, a word is the command word of its own fields. -/
theorem commandWord_of_fields {w : Word} {opc : Byte} {row : Nat} {src m0 m1 : Bool} (hr : reservedClear w = true)
    (ho : opcOf w = opc.toNat) (hrow : rowOf w = row) (hsrc : srcOf w = src) (hm0 : m0Of w = m0) (hm1 : m1Of w = m1) :
    commandWord opc row src m0 m1 = w := by
  subst hrow hsrc hm0 hm1
  have hopc : opc = w.extractLsb' 0 8 := BitVec.eq_of_toNat_eq ho.symm
  have hfield : BitVec.ofNat 5 (rowOf w) = w.extractLsb' 8 5 := by rw [rowOf, BitVec.ofNat_toNat, BitVec.setWidth_eq]
  have hres := and_eq_zero_iff_getLsbD.1 (beq_iff_eq.1 hr)
  rw [commandWord, hopc, hfield]
  apply BitVec.eq_of_getLsbD_eq
  intro i hi
  cases hm : (0xFFFCC000#32).getLsbD i
  · interval_cases i <;> simp [flagAt, srcOf, m0Of, m1Of] at hm ⊢
  · rw [hres i hm]
    interval_cases i <;> simp [flagAt] at hm ⊢

/-! ### Words that fit a row of the table (spec/30_encoding.md R77) -/

/-- The row tests every bit of `bits` and wants a 0 there. -/
def TableRow.clears (t : TableRow) (bits : Word) : Bool := bits &&& (~~~t.mask ||| t.pattern) == 0#32

theorem getLsbD_of_fits {t : TableRow} {w : Word} (hf : t.fits w = true) {i : Nat} (hi : t.mask.getLsbD i = true) :
    w.getLsbD i = t.pattern.getLsbD i := by
  rw [← beq_iff_eq.1 hf, BitVec.getLsbD_and, hi, Bool.and_true]

theorem and_eq_zero_of_fits {t : TableRow} {w bits : Word} (hf : t.fits w = true) (hc : t.clears bits = true) :
    w &&& bits = 0#32 := by
  rw [and_eq_zero_iff_getLsbD]
  intro i hi
  have hlt : i < 32 := BitVec.lt_of_getLsbD hi
  have hbit := congrArg (BitVec.getLsbD · i) (beq_iff_eq.1 hc)
  obtain ⟨hmask, hpattern⟩ : t.mask.getLsbD i = true ∧ t.pattern.getLsbD i = false := by
    simpa [hi, hlt] using hbit
  rw [getLsbD_of_fits hf hmask, hpattern]

theorem reservedClear_of_fits {t : TableRow} (ht : t ∈ commandTable) {w : Word} (hf : t.fits w = true) :
    reservedClear w = true := by
  have hrows : ∀ t ∈ commandTable, t.clears 0xFFFCC000#32 = true := by decide
  exact beq_iff_eq.2 (and_eq_zero_of_fits hf (hrows t ht))

theorem opcOf_of_fits {t : TableRow} (ht : t ∈ commandTable) {w : Word} (hf : t.fits w = true) :
    opcOf w = opcOf t.pattern := by
  have hrows : ∀ t ∈ commandTable, ∀ i < 8, t.mask.getLsbD i = true := by decide
  refine congrArg BitVec.toNat (BitVec.eq_of_getLsbD_eq fun i hi => ?_)
  rw [BitVec.getLsbD_extractLsb', BitVec.getLsbD_extractLsb', Nat.zero_add, getLsbD_of_fits hf (hrows t ht i hi)]

/-- The assigned opcodes (R73). -/
def assignedOpcodes : List Nat :=
  [0x10, 0x11, 0x12, 0x13, 0x20, 0x21, 0x22, 0x23, 0x24, 0x25, 0x26, 0x27, 0x28, 0x29, 0x30, 0x31, 0x32, 0x33, 0x34, 0x35, 0x38,
    0x39, 0x3A, 0x3B, 0x40, 0x41, 0x42, 0x43, 0x44]

theorem opcOf_mem_assignedOpcodes {t : TableRow} (ht : t ∈ commandTable) {w : Word} (hf : t.fits w = true) :
    opcOf w ∈ assignedOpcodes := by
  have hrows : ∀ t ∈ commandTable, opcOf t.pattern ∈ assignedOpcodes := by decide
  rw [opcOf_of_fits ht hf]
  exact hrows t ht

/-- "The rows are disjoint" (R77): where two masks overlap, the patterns of two different rows differ. -/
theorem fits_unique {t u : TableRow} (ht : t ∈ commandTable) (hu : u ∈ commandTable) {w : Word}
    (hft : t.fits w = true) (hfu : u.fits w = true) : u = t := by
  have hrows : ∀ t ∈ commandTable, ∀ u ∈ commandTable, t.pattern &&& u.mask = u.pattern &&& t.mask → u = t := by
    decide +kernel
  apply hrows t ht u hu
  rw [← beq_iff_eq.1 hft, ← beq_iff_eq.1 hfu]
  ac_rfl

/-- Every row of the table with this OPC tests all of `bits` for 0. -/
abbrev OpcodeClears (opc : Byte) (bits : Word) : Prop :=
  ∀ t ∈ commandTable, opcOf t.pattern = opc.toNat → t.clears bits = true

/-- Every row of the table with this OPC is for SRC = 0 or tests ROW for 0 (class byte-addressed of R72). -/
abbrev OpcodeClearsSrcOrRow (opc : Byte) : Prop :=
  ∀ t ∈ commandTable, opcOf t.pattern = opc.toNat →
    t.clears 0x2000#32 = true ∨ t.clears 0x1F00#32 = true

/-! ### What each class decodes (spec/30_encoding.md R72) -/

/-- A result of the decoder that is right for `w`: a command is the one whose encoding `w` is, and a word that fits a row of the
table is a command. -/
structure DecodesRight (w : Word) (result : Except Illegal Instr) : Prop where
  encode_eq : ∀ i, result = .ok i → i.wellFormed = true ∧ encode i = w
  ok_of_fits : ∀ t ∈ commandTable, t.fits w = true → ∃ i, result = .ok i

/-- A refusal is right when no row of the table fits. -/
theorem decodesRight_error {w : Word} {e : Illegal} (h : ∀ t ∈ commandTable, t.fits w = false) : DecodesRight w (.error e) where
  encode_eq := nofun
  ok_of_fits t ht hf := by simp [h t ht] at hf

/-- The shape of all classes: one test of the fields that must be 0, then the command. -/
theorem decodesRight_ite {w : Word} {e : Illegal} {unused : Bool} {i : Instr}
    (hfits : ∀ t ∈ commandTable, t.fits w = true → unused = false)
    (henc : unused = false → i.wellFormed = true ∧ encode i = w) :
    DecodesRight w (if unused then .error e else .ok i) := by
  cases unused with
  | false => exact ⟨fun j hj => Except.ok.inj hj ▸ henc rfl, fun _ _ _ => ⟨i, rfl⟩⟩
  | true => exact decodesRight_error fun t ht => Bool.eq_false_iff.2 fun hf => nomatch hfits t ht hf

theorem wellFormed_of_namedRow_eq_rowOf {i : Instr} {w : Word} (h : i.namedRow = some (rowOf w)) : i.wellFormed = true := by
  rw [Instr.wellFormed, h]
  exact decide_eq_true (rowOf_lt w)

theorem wellFormed_of_namedRow_eq_none {i : Instr} (h : i.namedRow = none) : i.wellFormed = true := by
  rw [Instr.wellFormed, h]
  rfl

section
variable {w : Word} {opc : Byte}

/-- A word of this OPC that fits a row has 0 in all of `bits`. -/
theorem OpcodeClears.and_eq_zero {bits : Word} (hc : OpcodeClears opc bits) (ho : opcOf w = opc.toNat)
    {t : TableRow} (ht : t ∈ commandTable) (hf : t.fits w = true) : w &&& bits = 0#32 :=
  and_eq_zero_of_fits hf (hc t ht ((opcOf_of_fits ht hf).symm.trans ho))

theorem OpcodeClearsSrcOrRow.eq_false (hc : OpcodeClearsSrcOrRow opc) (ho : opcOf w = opc.toNat)
    {t : TableRow} (ht : t ∈ commandTable) (hf : t.fits w = true) : (srcOf w && rowOf w != 0) = false := by
  obtain hsrc | hrow := hc t ht ((opcOf_of_fits ht hf).symm.trans ho)
  · rw [srcOf_of_and (and_eq_zero_of_fits hf hsrc) rfl, Bool.false_and]
  · rw [rowOf_of_and (and_eq_zero_of_fits hf hrow), bne_self_eq_false, Bool.and_false]

theorem decodeBitAddressed_right (hr : reservedClear w = true) (ho : opcOf w = opc.toNat)
    (hc : OpcodeClears opc 0x32000#32) {mk : Nat → Instr} (hn : ∀ row, (mk row).namedRow = some row)
    (he : ∀ row, encode (mk row) = commandWord opc row false false false) : DecodesRight w (decodeBitAddressed w mk) := by
  refine decodesRight_ite (fun t ht hf => ?_) fun h => ⟨wellFormed_of_namedRow_eq_rowOf (hn _), ?_⟩
  · have hz := hc.and_eq_zero ho ht hf
    rw [srcOf_of_and hz rfl, m0Of_of_and hz rfl, m1Of_of_and hz rfl]
    rfl
  · simp only [Bool.or_eq_false_iff] at h
    obtain ⟨⟨hsrc, hm0⟩, hm1⟩ := h
    exact (he _).trans (commandWord_of_fields hr ho rfl hsrc hm0 hm1)

theorem decodeManch_right (hr : reservedClear w = true) (ho : opcOf w = (0x23#8).toNat) : DecodesRight w (decodeManch w) := by
  have hc : OpcodeClears 0x23#8 0x2000#32 := by decide
  refine decodesRight_ite (fun t ht hf => ?_) fun hsrc => ⟨wellFormed_of_namedRow_eq_rowOf rfl, ?_⟩
  · exact srcOf_of_and (hc.and_eq_zero ho ht hf) rfl
  · exact commandWord_of_fields hr ho rfl hsrc rfl rfl

theorem decodePlain_right (hr : reservedClear w = true) (ho : opcOf w = opc.toNat) (hrows : OpcodeClears opc 0x1F00#32)
    (hflags : OpcodeClears opc 0x32000#32) {i : Instr} (hn : i.namedRow = none)
    (he : encode i = commandWord opc 0 false false false) : DecodesRight w (decodePlain w i) := by
  refine decodesRight_ite (fun t ht hf => ?_) fun h => ⟨wellFormed_of_namedRow_eq_none hn, ?_⟩
  · have hz := hflags.and_eq_zero ho ht hf
    rw [rowOf_of_and (hrows.and_eq_zero ho ht hf), srcOf_of_and hz rfl, m0Of_of_and hz rfl, m1Of_of_and hz rfl]
    rfl
  · simp only [Bool.or_eq_false_iff, bne_eq_false_iff_eq] at h
    obtain ⟨⟨⟨hrow, hsrc⟩, hm0⟩, hm1⟩ := h
    exact he.trans (commandWord_of_fields hr ho hrow hsrc hm0 hm1)

/-- The two commands of one byte-addressed operation: from a row when SRC = 0, from OUT when SRC = 1 and ROW = 0. -/
theorem encode_bySource (hr : reservedClear w = true) (ho : opcOf w = opc.toNat) {m0 m1 : Bool} (hm0 : m0Of w = m0)
    (hm1 : m1Of w = m1) (hz : (srcOf w && rowOf w != 0) = false) {onRow onOut : Instr}
    (hnr : onRow.namedRow = some (rowOf w)) (hno : onOut.namedRow = none)
    (her : encode onRow = commandWord opc (rowOf w) false m0 m1) (heo : encode onOut = commandWord opc 0 true m0 m1) :
    (if srcOf w then onOut else onRow).wellFormed = true ∧ encode (if srcOf w then onOut else onRow) = w := by
  cases hsrc : srcOf w with
  | false => exact ⟨wellFormed_of_namedRow_eq_rowOf hnr, her.trans (commandWord_of_fields hr ho rfl hsrc hm0 hm1)⟩
  | true =>
    have hrow : rowOf w = 0 := by simpa [hsrc] using hz
    exact ⟨wellFormed_of_namedRow_eq_none hno, heo.trans (commandWord_of_fields hr ho hrow hsrc hm0 hm1)⟩

theorem decodeByteAddressed_right (hr : reservedClear w = true) (ho : opcOf w = opc.toNat)
    (hflags : OpcodeClears opc 0x30000#32) (hrows : OpcodeClearsSrcOrRow opc) {mkRow : Nat → Instr} {mkOut : Instr}
    (hnr : ∀ row, (mkRow row).namedRow = some row) (hno : mkOut.namedRow = none)
    (her : ∀ row, encode (mkRow row) = commandWord opc row false false false)
    (heo : encode mkOut = commandWord opc 0 true false false) : DecodesRight w (decodeByteAddressed w mkRow mkOut) := by
  rw [decodeByteAddressed, ← apply_ite Except.ok]
  refine decodesRight_ite (fun t ht hf => ?_) fun h => ?_
  · have hz := hflags.and_eq_zero ho ht hf
    rw [m0Of_of_and hz rfl, m1Of_of_and hz rfl, hrows.eq_false ho ht hf]
    rfl
  · simp only [Bool.or_eq_false_iff] at h
    obtain ⟨⟨hm0, hm1⟩, hz⟩ := h
    exact encode_bySource hr ho hm0 hm1 hz (hnr _) hno (her _) heo

theorem decodeWhiten_right (hr : reservedClear w = true) (ho : opcOf w = (0x29#8).toNat) : DecodesRight w (decodeWhiten w) := by
  have hm1s : OpcodeClears 0x29#8 0x20000#32 := by decide
  have hrows : OpcodeClearsSrcOrRow 0x29#8 := by decide
  rw [decodeWhiten, ← apply_ite Except.ok]
  refine decodesRight_ite (fun t ht hf => ?_) fun h => ?_
  · rw [m1Of_of_and (hm1s.and_eq_zero ho ht hf) rfl, hrows.eq_false ho ht hf]
    rfl
  · obtain ⟨hm1, hz⟩ := Bool.or_eq_false_iff.1 h
    exact encode_bySource hr ho rfl hm1 hz rfl rfl rfl rfl

end

/-! ### The decoder (spec/30_encoding.md R77) -/

/-- Each OPC by its class; a word with an unassigned OPC fits no row. -/
theorem decodeOpcode_right {w : Word} (hr : reservedClear w = true) : DecodesRight w (decodeOpcode w) := by
  unfold decodeOpcode
  split
  · next ho => exact decodeBitAddressed_right (opc := 0x10) hr ho (by decide) (fun _ => rfl) fun _ => rfl
  · next ho => exact decodeBitAddressed_right (opc := 0x11) hr ho (by decide) (fun _ => rfl) fun _ => rfl
  · next ho => exact decodeBitAddressed_right (opc := 0x12) hr ho (by decide) (fun _ => rfl) fun _ => rfl
  · next ho => exact decodeBitAddressed_right (opc := 0x13) hr ho (by decide) (fun _ => rfl) fun _ => rfl
  · next ho => exact decodePlain_right (opc := 0x20) hr ho (by decide) (by decide) rfl rfl
  · next ho => exact decodePlain_right (opc := 0x21) hr ho (by decide) (by decide) rfl rfl
  · next ho => exact decodePlain_right (opc := 0x22) hr ho (by decide) (by decide) rfl rfl
  · next ho => exact decodeManch_right hr ho
  · next ho => exact decodeBitAddressed_right (opc := 0x24) hr ho (by decide) (fun _ => rfl) fun _ => rfl
  · next ho => exact decodeBitAddressed_right (opc := 0x25) hr ho (by decide) (fun _ => rfl) fun _ => rfl
  · next ho => exact decodeBitAddressed_right (opc := 0x26) hr ho (by decide) (fun _ => rfl) fun _ => rfl
  · next ho => exact decodeBitAddressed_right (opc := 0x27) hr ho (by decide) (fun _ => rfl) fun _ => rfl
  · next ho => exact decodeBitAddressed_right (opc := 0x28) hr ho (by decide) (fun _ => rfl) fun _ => rfl
  · next ho => exact decodeWhiten_right hr ho
  · next ho => exact decodeByteAddressed_right (opc := 0x30) hr ho (by decide) (by decide) (fun _ => rfl) rfl (fun _ => rfl) rfl
  · next ho => exact decodeByteAddressed_right (opc := 0x31) hr ho (by decide) (by decide) (fun _ => rfl) rfl (fun _ => rfl) rfl
  · next ho => exact decodeByteAddressed_right (opc := 0x32) hr ho (by decide) (by decide) (fun _ => rfl) rfl (fun _ => rfl) rfl
  · next ho => exact decodeByteAddressed_right (opc := 0x33) hr ho (by decide) (by decide) (fun _ => rfl) rfl (fun _ => rfl) rfl
  · next ho => exact decodeByteAddressed_right (opc := 0x34) hr ho (by decide) (by decide) (fun _ => rfl) rfl (fun _ => rfl) rfl
  · next ho => exact decodeByteAddressed_right (opc := 0x35) hr ho (by decide) (by decide) (fun _ => rfl) rfl (fun _ => rfl) rfl
  · next ho => exact decodeByteAddressed_right (opc := 0x38) hr ho (by decide) (by decide) (fun _ => rfl) rfl (fun _ => rfl) rfl
  · next ho => exact decodeByteAddressed_right (opc := 0x39) hr ho (by decide) (by decide) (fun _ => rfl) rfl (fun _ => rfl) rfl
  · next ho => exact decodeByteAddressed_right (opc := 0x3A) hr ho (by decide) (by decide) (fun _ => rfl) rfl (fun _ => rfl) rfl
  · next ho => exact decodeByteAddressed_right (opc := 0x3B) hr ho (by decide) (by decide) (fun _ => rfl) rfl (fun _ => rfl) rfl
  · next ho => exact decodePlain_right (opc := 0x40) hr ho (by decide) (by decide) rfl rfl
  · next ho => exact decodeByteAddressed_right (opc := 0x41) hr ho (by decide) (by decide) (fun _ => rfl) rfl (fun _ => rfl) rfl
  · next ho => exact decodeByteAddressed_right (opc := 0x42) hr ho (by decide) (by decide) (fun _ => rfl) rfl (fun _ => rfl) rfl
  · next ho => exact decodeByteAddressed_right (opc := 0x43) hr ho (by decide) (by decide) (fun _ => rfl) rfl (fun _ => rfl) rfl
  · next ho => exact decodeByteAddressed_right (opc := 0x44) hr ho (by decide) (by decide) (fun _ => rfl) rfl (fun _ => rfl) rfl
  · refine decodesRight_error fun t ht => Bool.eq_false_iff.2 fun hf => ?_
    have hmem := opcOf_mem_assignedOpcodes ht hf
    simp_all [assignedOpcodes]

theorem decodeWord_right (w : Word) : DecodesRight w (decodeWord w) := by
  unfold decodeWord
  split
  · next hr => exact decodeOpcode_right hr
  · next hr => exact decodesRight_error fun t ht => Bool.eq_false_iff.2 fun hf => hr (reservedClear_of_fits ht hf)

/-- The table has a row for every instruction (R73). -/
theorem matchesTable : ∀ i : Instr, MatchesTable.Statement i
  | .search row => MatchesTable.search row
  | .extract row => MatchesTable.extract row
  | .getbit row => MatchesTable.getbit row
  | .getbyte row => MatchesTable.getbyte row
  | .invert => MatchesTable.invert
  | .rev8 => MatchesTable.rev8
  | .refl4 => MatchesTable.refl4
  | .manch row conv zb => MatchesTable.manch row conv zb
  | .dmanch row => MatchesTable.dmanch row
  | .uart8n1 row => MatchesTable.uart8n1 row
  | .uart8o1 row => MatchesTable.uart8o1 row
  | .nib4b1s row => MatchesTable.nib4b1s row
  | .symbols row => MatchesTable.symbols row
  | .whiten row refl => MatchesTable.whiten row refl
  | .whitenOut refl => MatchesTable.whitenOut refl
  | .crc4 row => MatchesTable.crc4 row
  | .crc4Out => MatchesTable.crc4Out
  | .crc7 row => MatchesTable.crc7 row
  | .crc7Out => MatchesTable.crc7Out
  | .crc8 row => MatchesTable.crc8 row
  | .crc8Out => MatchesTable.crc8Out
  | .crc8le row => MatchesTable.crc8le row
  | .crc8leOut => MatchesTable.crc8leOut
  | .crc16 row => MatchesTable.crc16 row
  | .crc16Out => MatchesTable.crc16Out
  | .crc16lsb row => MatchesTable.crc16lsb row
  | .crc16lsbOut => MatchesTable.crc16lsbOut
  | .lfsr8 row => MatchesTable.lfsr8 row
  | .lfsr8Out => MatchesTable.lfsr8Out
  | .lfsr8rev row => MatchesTable.lfsr8rev row
  | .lfsr8revOut => MatchesTable.lfsr8revOut
  | .lfsr8rfl row => MatchesTable.lfsr8rfl row
  | .lfsr8rflOut => MatchesTable.lfsr8rflOut
  | .lfsr16 row => MatchesTable.lfsr16 row
  | .lfsr16Out => MatchesTable.lfsr16Out
  | .parity8 => MatchesTable.parity8
  | .parityb row => MatchesTable.parityb row
  | .paritybOut => MatchesTable.paritybOut
  | .xorb row => MatchesTable.xorb row
  | .xorbOut => MatchesTable.xorbOut
  | .addb row => MatchesTable.addb row
  | .addbOut => MatchesTable.addbOut
  | .addn row => MatchesTable.addn row
  | .addnOut => MatchesTable.addnOut

/-- Settles O2: a command by its table row and the rows' disjointness, an illegal word because a word that fits a row decodes. -/
theorem everyWordIsOneCommandOrIllegal : Obligations.EveryWordIsOneCommandOrIllegal := by
  intro w
  obtain ⟨hok, hfits⟩ := decodeWord_right w
  refine ⟨fun i hi => ?_, fun e he t ht => Bool.eq_false_iff.2 fun hf => ?_⟩
  · obtain ⟨hwf, henc⟩ := hok i hi
    obtain ⟨t, ht, hname, hft⟩ := matchesTable i
    rw [henc] at hft
    exact ⟨hwf, henc, t, ht, hft, hname, fun u hu hfu => fits_unique ht hu hft hfu⟩
  · obtain ⟨i, hi⟩ := hfits t ht hf
    rw [he] at hi
    cases hi

end Sys2Proof
end

section
/-! SEARCH (spec/40_bitsearch_extract.md R100): when a row is searched, what its result is, then O27. -/

namespace Sys2Proof.Machine

/-- The pattern's first `len` bits stand in row r from bit p on, at or after `start` and inside the row (R100). -/
def State.SearchMatch (s : State) (r start len p : Nat) : Prop :=
  start ≤ p ∧ p + len ≤ s.rowLen r ∧ ∀ i, i < len → s.rowBit r (p + i) = s.patBit i

theorem State.searchMatch_iff {s : State} {r start len p : Nat} :
    s.SearchMatch r start len p ↔ start ≤ p ∧ p + len ≤ s.rowLen r ∧ s.patternAt r len p = true := by
  rw [State.patternAt_iff, State.SearchMatch]

theorem exec_search (row : Nat) (s : State) : exec (.search row) s = execSearch row s := rfl

/-- The checks of SEARCH pass: R[0] takes the result, R[1] is 0, and no buffer changes (R22, R100). -/
theorem exec_search_of_ready {row : Nat} {s : State} (hr : s.rowReady row = true) (hlen : s.opndNat 1 ≤ 128)
    (hstart : s.opndNat 0 ≤ s.rowLen row) :
    exec (.search row) s =
      .next (s.complete (BitVec.ofNat 32 (s.searchResult row (s.opndNat 0) (s.opndNat 1))) 0) := by
  rw [exec_search, execSearch, rowCommand_of_ready hr]
  exact firstError_eq_none.2 (by simpa [Config.patBytes] using ⟨hlen, hstart⟩)

section
variable {s : State} {r start len : Nat}

theorem State.searchResult_le (h : start ≤ s.rowLen r) : s.searchResult r start len ≤ s.rowLen r := by
  obtain ⟨-, he⟩ | ⟨-, p, he, -, hend, -⟩ | ⟨-, he, -⟩ := s.searchResult_cases r start len <;> omega

theorem State.searchResult_of_empty (h : len = 0) : s.searchResult r start len = start := by
  obtain ⟨-, he⟩ | ⟨hne, -⟩ | ⟨hne, -⟩ := s.searchResult_cases r start len
  · exact he
  · exact absurd h hne
  · exact absurd h hne

/-- The sentinel (R105). -/
theorem State.searchResult_of_no_match (hlen : len ≠ 0) (hnone : ∀ q, ¬ s.SearchMatch r start len q) :
    s.searchResult r start len = s.rowLen r := by
  obtain ⟨hz, -⟩ | ⟨-, p, -, hge, hend, hp, -⟩ | ⟨-, he, -⟩ := s.searchResult_cases r start len
  · exact absurd hz hlen
  · exact absurd (State.searchMatch_iff.2 ⟨hge, hend, hp⟩) (hnone p)
  · exact he

/-- The lowest match is the result. An empty pattern matches at the start already. -/
theorem State.searchResult_of_first_match {k : Nat} (hk : s.SearchMatch r start len k)
    (hfirst : ∀ q, q < k → ¬ s.SearchMatch r start len q) : s.searchResult r start len = k := by
  obtain ⟨hkge, hkend, hkp⟩ := State.searchMatch_iff.1 hk
  obtain ⟨hz, he⟩ | ⟨-, p, he, hge, hend, hp, hbefore⟩ | ⟨-, -, hnone⟩ := s.searchResult_cases r start len
  · have hge : ¬ start < k := fun h => hfirst start h ⟨le_rfl, by omega, by omega⟩
    omega
  · have hpk : ¬ p < k := fun h => hfirst p h (State.searchMatch_iff.2 ⟨hge, hend, hp⟩)
    have hkp' : ¬ k < p := fun h => by simp [hbefore k hkge h] at hkp
    omega
  · simp [hnone k hkge hkend] at hkp

end

/-- Settles O27: SEARCH completes with `State.searchResult`, which the three cases of the pattern pin. -/
theorem searchReturnsTheFirstMatchOrTheSentinel : Obligations.SearchReturnsTheFirstMatchOrTheSentinel := by
  intro row s hr hlen hstart
  exact ⟨s.searchResult row (s.opndNat 0) (s.opndNat 1), State.searchResult_le hstart,
    exec_search_of_ready hr hlen hstart, State.searchResult_of_empty, State.searchResult_of_no_match,
    fun _ => State.searchResult_of_first_match⟩

end Sys2Proof.Machine
end

section
/-! R134: the cells of a Manchester-encoded run of bits, what MANCH leaves of them, then O36. -/

namespace Sys2Proof.Machine

/-- From bit `start` of row r on stand the cells that send `sent` under the convention `conv` (R131, R134): each bit as the pair of
its complement and itself, both complemented when `conv` is 1. -/
def State.HoldsManch (s : State) (r start : Nat) (conv : Bool) (sent : List Bool) : Prop :=
  ∀ j, j < sent.length →
    s.rowBit r (start + 2 * j) = !(sent.getD j false ^^ conv) ∧
    s.rowBit r (start + 2 * j + 1) = (sent.getD j false ^^ conv)

theorem State.length_rowTail (s : State) (r start : Nat) : (s.rowTail r start).length = s.rowLen r - start :=
  s.length_rowRun r start _

theorem State.getD_rowTail (s : State) (r start : Nat) {i : Nat} (h : start + i < s.rowLen r) :
    (s.rowTail r start).getD i false = s.rowBit r (start + i) :=
  s.getD_rowRun r start (by omega)

/-- Manchester decoding is a left inverse of Manchester encoding, when `max_bits` is the number of bits sent. No cell that was
sent is invalid and the row ends no earlier than the last of them, so only `max_bits` can stop the decoder. -/
theorem State.manchCells_of_holdsManch {s : State} {r start : Nat} {conv : Bool} {sent : List Bool}
    (hfit : start + 2 * sent.length ≤ s.rowLen r) (hsent : s.HoldsManch r start conv sent) :
    manchCells conv sent.length (s.rowTail r start) = sent := by
  have hfst : ∀ j, j < sent.length → (s.rowTail r start).getD (2 * j) false = !(sent.getD j false ^^ conv) := fun j hj => by
    rw [s.getD_rowTail r start (by omega), (hsent j hj).1]
  have hsnd : ∀ j, j < sent.length → (s.rowTail r start).getD (2 * j + 1) false = (sent.getD j false ^^ conv) := fun j hj => by
    rw [s.getD_rowTail r start (by omega), ← Nat.add_assoc, (hsent j hj).2]
  have hrow := s.length_rowTail r start
  obtain ⟨hmax, -, hbits, hstop⟩ := manchCells_spec conv sent.length (s.rowTail r start)
  have hlen : (manchCells conv sent.length (s.rowTail r start)).length = sent.length := by
    by_contra hne
    have hlt := Nat.lt_of_le_of_ne hmax hne
    rcases hstop with hd | hend | hinvalid
    · exact hne hd
    · omega
    · rw [hfst _ hlt, hsnd _ hlt] at hinvalid
      exact Bool.not_ne_self _ hinvalid
  refine List.ext_getElem hlen fun j hj hj' => ?_
  rw [← List.getD_eq_getElem _ false hj, ← List.getD_eq_getElem _ false hj', (hbits j hj).2, hsnd j hj']
  simp

theorem exec_manch (row : Nat) (conv zb : Bool) (s : State) : exec (.manch row conv zb) s = execManch row conv zb s := rfl

/-- The checks of MANCH pass: it delivers the decoded cells of the row from the start on (R131, R133). -/
theorem exec_manch_of_ready {row : Nat} {s : State} (conv zb : Bool) (hr : s.rowReady row = true)
    (hstart : s.opndNat 0 ≤ s.rowLen row) :
    exec (.manch row conv zb) s = .next (s.deliverDecoded (if zb then [false] else [])
      (manchCells conv (s.opndNat 1) (s.rowTail row (s.opndNat 0)))) := by
  rw [exec_manch, execManch, rowCommand_of_ready hr]
  exact firstError_eq_none.2 (by simpa using hstart)

/-- Settles O36: the checks pass, the cells decode to the bits sent, and those are few enough for the 32-bit counts. -/
theorem manchesterRoundTrip : Obligations.ManchesterRoundTrip := by
  intro row conv s sent hinv hr hmax hfit hsent
  have hcells := State.manchCells_of_holdsManch hfit hsent
  have hexec := exec_manch_of_ready conv false hr (by omega)
  rw [hmax, hcells] at hexec
  obtain ⟨-, -, hbound⟩ := rowReady_iff.1 hr
  have hcount : ∀ n, n ≤ 2 * sent.length → (BitVec.ofNat 32 n).toNat = n := fun n hn => by
    rw [BitVec.toNat_ofNat, Nat.mod_eq_of_lt (by omega)]
  exact ⟨_, hexec, hcount sent.length (by omega), hcount _ le_rfl, hcount _ (by omega),
    fun j hj => State.outBit_deliverBits (State.wf_of_inv hinv) sent hj⟩

end Sys2Proof.Machine
end

section
/-! UART8N1, UART8O1, NIB4B1S (spec/43_framing_decoders.md R150 to R157): the frames of a row's bit run, what each frame decoder does
with the bits of one frame, what the command then leaves in OUT, then O40, O41 and O42. -/

namespace Sys2Proof.Machine

/-! ### The frames of a bit run -/

/-- The bits of frame j in row r, when the run starts at bit `start` and a frame has `width` bits: `f[k]` of R151, R154, R157. -/
def State.frameBits (s : State) (r start width j : Nat) : Nat → Bool :=
  fun k => s.rowBit r (start + width * j + k)

theorem State.take_drop_rowRun_eq_frameBits (s : State) (r start : Nat) {n width j : Nat} (h : j < n / width) :
    ((s.rowRun r start n).drop (width * j)).take width = (List.range width).map (s.frameBits r start width j) := by
  have hend : width * (j + 1) ≤ n := (Nat.mul_le_mul_left width h).trans (Nat.mul_div_le n width)
  rw [s.drop_rowRun, s.take_rowRun _ _ (by rw [Nat.mul_succ] at hend; omega)]
  rfl

/-- A frame decoder said by position: it takes the `width` bits `f 0, f 1, …` exactly when they are a good frame, and then the byte
it returns has the bits `data f 0, …, data f 7`, most significant first. -/
def DecodesFrame (width : Nat) (frame : List Bool → Option Byte) (good : (Nat → Bool) → Prop) [DecidablePred good]
    (data : (Nat → Bool) → Nat → Bool) : Prop :=
  ∀ f : Nat → Bool, frame ((List.range width).map f) = if good f then some (byteOf (data f)) else none

section
variable {width : Nat} {frame : List Bool → Option Byte} {good : (Nat → Bool) → Prop} [DecidablePred good]
  {data : (Nat → Bool) → Nat → Bool}

theorem DecodesFrame.of_eq_some (hframe : DecodesFrame width frame good data) {f : Nat → Bool} {b : Byte}
    (h : frame ((List.range width).map f) = some b) : good f ∧ b = byteOf (data f) := by
  rw [hframe f] at h
  split at h
  · next hgood => exact ⟨hgood, (Option.some.inj h).symm⟩
  · cases h

theorem DecodesFrame.of_eq_none (hframe : DecodesFrame width frame good data) {f : Nat → Bool}
    (h : frame ((List.range width).map f) = none) : ¬ good f := by
  rw [hframe f] at h
  split at h
  · cases h
  · next hbad => exact hbad

/-- The loop of R150, R153 and R156 over the bits of a row: the good frames before the first bad one. -/
theorem DecodesFrame.unframe_rowRun (hframe : DecodesFrame width frame good data) (s : State) (r start n : Nat) :
    let items := unframe width frame (n / width) (s.rowRun r start n)
    items.length ≤ n / width ∧
    (∀ j, j < items.length →
      good (s.frameBits r start width j) ∧ items.getD j 0 = byteOf (data (s.frameBits r start width j))) ∧
    (items.length = n / width ∨ ¬ good (s.frameBits r start width items.length)) := by
  intro items
  obtain ⟨hle, htaken, hstop⟩ := unframe_spec width frame (n / width) (s.rowRun r start n)
  refine ⟨hle, fun j hj => hframe.of_eq_some ?_, ?_⟩
  · rw [← s.take_drop_rowRun_eq_frameBits r start (Nat.lt_of_lt_of_le hj hle)]
    exact htaken j hj
  · rcases Nat.eq_or_lt_of_le hle with hall | hlt
    · exact .inl hall
    · refine .inr (hframe.of_eq_none ?_)
      rw [← s.take_drop_rowRun_eq_frameBits r start hlt]
      exact hstop.resolve_left (Nat.ne_of_lt hlt)

/-! ### What a frame command leaves in OUT -/

/-- The checks of a frame command pass: its payload is what the loop of R150, R153 and R156 makes of the requested run. -/
theorem framed_of_ready {row : Nat} {s : State} (hr : s.rowReady row = true)
    (hfit : s.opndNat 0 + s.opndNat 1 ≤ s.rowLen row) :
    let items := unframe width frame (s.opndNat 1 / width) (s.rowRun row (s.opndNat 0) (s.opndNat 1))
    framed row width frame s = .next ((s.deliverBytes items).complete (BitVec.ofNat 32 items.length) 0) :=
  rowCommand_of_ready hr (firstError_eq_none.2 (by simpa using hfit))

/-- A run inside a row has too few frames of 5 or more bits to fill OUT. -/
theorem frames_lt_outBytes {row : Nat} {s : State} (hwidth : 5 ≤ width) (hr : s.rowReady row = true)
    (hfit : s.opndNat 0 + s.opndNat 1 ≤ s.rowLen row) : s.opndNat 1 / width < Config.outBytes := by
  obtain ⟨-, -, hrow⟩ := rowReady_iff.1 hr
  have hdiv : s.opndNat 1 / width ≤ s.opndNat 1 / 5 := Nat.div_le_div_left hwidth (by decide)
  simp only [Config.outBytes]
  omega

/-- A frame command completes with the longest run of good frames; byte j of OUT is the byte of frame j, and the bytes beyond the
last frame are 0. -/
theorem DecodesFrame.framed_completes (hframe : DecodesFrame width frame good data) (hwidth : 5 ≤ width) {row : Nat} {s : State}
    (hinv : s.inv = true) (hr : s.rowReady row = true) (hfit : s.opndNat 0 + s.opndNat 1 ≤ s.rowLen row) :
    let f := s.frameBits row (s.opndNat 0) width
    ∃ c m, let t := { s with mem := m, outbits := BitVec.ofNat 32 (8 * c), r0 := BitVec.ofNat 32 c, r1 := 0,
                             status := statusCompleted s.status }
      framed row width frame s = .next t ∧ sameOutsideOut s t ∧ c ≤ s.opndNat 1 / width ∧
      (∀ j, j < c → good (f j)) ∧ (c = s.opndNat 1 / width ∨ ¬ good (f c)) ∧
      (∀ j, j < c → t.bufByte .out j = byteOf (data (f j))) ∧
      ∀ j, c ≤ j → j < Config.outBytes → t.bufByte .out j = 0 := by
  obtain ⟨hle, htaken, hstop⟩ := hframe.unframe_rowRun s row (s.opndNat 0) (s.opndNat 1)
  have hlt := Nat.lt_of_le_of_lt hle (frames_lt_outBytes hwidth hr hfit)
  refine ⟨_, _, framed_of_ready hr hfit, s.sameOutsideOut_deliverBytes _, hle, fun j hj => (htaken j hj).1, hstop,
    fun j hj => ?_, fun j hj hout => ?_⟩
  · exact (State.bufByte_deliverBytes (State.wf_of_inv hinv) _ (hj.trans hlt)).trans (htaken j hj).2
  · exact (State.bufByte_deliverBytes (State.wf_of_inv hinv) _ hout).trans (List.getD_eq_default _ _ hj)

end

/-! ### UART8N1 -/

/-- R151. The least significant data bit comes first, so the byte in buffer order has the data bits backwards. -/
theorem frame8n1_decodesFrame :
    DecodesFrame 10 frame8n1 (fun f => f 0 = false ∧ f 9 = true) (fun f k => f (8 - k)) :=
  fun _ => rfl

theorem exec_uart8n1 (row : Nat) (s : State) : exec (.uart8n1 row) s = framed row 10 frame8n1 s := rfl

/-- Settles O40: the frames by `DecodesFrame.framed_completes`; data bit i of a frame is buffer bit 7 - i of its byte. -/
theorem uart8n1DecodesTheLeadingGoodFrames : Obligations.Uart8n1DecodesTheLeadingGoodFrames := by
  intro row s hinv hr hfit
  rw [exec_uart8n1]
  obtain ⟨c, m, hexec, hframe, hle, hgood, hstop, hbyte, hzero⟩ :=
    frame8n1_decodesFrame.framed_completes (by decide) hinv hr hfit
  refine ⟨c, m, hexec, hframe, hle, hgood, hstop, fun j i hj hi => ?_, hzero⟩
  rw [hbyte j hj, getLsbD_byteOf _ hi, show 8 - (7 - i) = 1 + i by omega]
  rfl

/-! ### UART8O1 -/

/-- One more bit changes the parity of the count exactly when it is set. -/
theorem odd_countP_range_succ (g : Nat → Bool) (n : Nat) :
    decide ((List.range (n + 1)).countP g % 2 = 1) = (decide ((List.range n).countP g % 2 = 1) ^^ g n) := by
  rw [List.range_succ, List.countP_append, List.countP_singleton]
  cases g n
  · simp
  · rcases Nat.mod_two_eq_zero_or_one ((List.range n).countP g) with h | h <;> simp [Nat.add_mod, h]

/-- R154: the parity of a packed byte and one more bit, by the ones among the nine. -/
theorem parity8_byteOf_xor_iff (g : Nat → Bool) :
    (parity8 (byteOf g) ^^ g 8) = true ↔ (List.range 9).countP g % 2 = 1 := by
  rw [← decide_eq_true_iff (p := (List.range 9).countP g % 2 = 1)]
  have hnone : decide ((List.range 0).countP g % 2 = 1) = false := rfl
  simp (disch := decide) only [parity8, getLsbD_byteOf, odd_countP_range_succ, hnone, Bool.false_xor]

/-- R154. The most significant data bit comes first, as in the buffer. -/
theorem frame8o1_decodesFrame :
    DecodesFrame 11 frame8o1
      (fun f => f 0 = true ∧ f 10 = false ∧ ((List.range 9).countP fun i => f (1 + i)) % 2 = 1) (fun f k => f (1 + k)) :=
  fun f => if_congr (and_congr_right' (and_congr_right' (parity8_byteOf_xor_iff fun i => f (1 + i)))) rfl rfl

theorem exec_uart8o1 (row : Nat) (s : State) : exec (.uart8o1 row) s = framed row 11 frame8o1 s := rfl

/-- Settles O41: the frames by `DecodesFrame.framed_completes`; data bit i of a frame is buffer bit i of its byte. -/
theorem uart8o1DecodesTheLeadingGoodFrames : Obligations.Uart8o1DecodesTheLeadingGoodFrames := by
  intro row s hinv hr hfit
  rw [exec_uart8o1]
  obtain ⟨c, m, hexec, hframe, hle, hgood, hstop, hbyte, hzero⟩ :=
    frame8o1_decodesFrame.framed_completes (by decide) hinv hr hfit
  refine ⟨c, m, hexec, hframe, hle, hgood, hstop, fun j i hj hi => ?_, hzero⟩
  rw [hbyte j hj, ← bitAt_lt _ hi, bitAt_byteOf _ hi]
  rfl

/-! ### NIB4B1S -/

/-- R157. The nibble is the low half of the byte: four zeros come before it in buffer order. -/
theorem frame4b1s_decodesFrame :
    DecodesFrame 5 frame4b1s (fun f => f 4 = true) (fun f k => decide (4 ≤ k) && f (k - 4)) :=
  fun _ => rfl

theorem exec_nib4b1s (row : Nat) (s : State) : exec (.nib4b1s row) s = framed row 5 frame4b1s s := rfl

/-- Settles O42: the groups by `DecodesFrame.framed_completes`; bit i of a byte is bit 3 - i of its group's nibble, or 0. -/
theorem nib4b1sUnstuffsTheLeadingGoodGroups : Obligations.Nib4b1sUnstuffsTheLeadingGoodGroups := by
  intro row s hinv hr hfit
  rw [exec_nib4b1s]
  obtain ⟨c, m, hexec, hframe, hle, hgood, hstop, hbyte, hzero⟩ :=
    frame4b1s_decodesFrame.framed_completes (by decide) hinv hr hfit
  refine ⟨c, m, hexec, hframe, hle, hgood, hstop.imp_right Bool.eq_false_iff.2, fun j i hj hi => ?_, hzero⟩
  have hhalf : 4 ≤ 7 - i ↔ i < 4 := by omega
  rw [hbyte j hj, getLsbD_byteOf _ hi, decide_eq_decide.2 hhalf, show 7 - i - 4 = 3 - i by omega]
  rfl

end Sys2Proof.Machine
end

section
/-! R70 to R81: the fields of a command word, what each class of R72 makes of them, then O1. -/

namespace Sys2Proof

/-! ### The fields of a command word (spec/30_encoding.md R71, R81) -/

theorem getLsbD_flagAt (b : Bool) {pos i : Nat} (hi : i < 32) : (flagAt b pos).getLsbD i = (decide (i = pos) && b) := by
  rcases Nat.lt_trichotomy i pos with hlt | rfl | hgt
  · simp [flagAt, hlt, Nat.ne_of_lt hlt]
  · simp [flagAt, hi]
  · simp [flagAt, Nat.ne_of_gt hgt, show ¬ i < pos by omega, BitVec.getLsbD_ofBool, show ¬ i - pos = 0 by omega]

section
variable (opc : Byte) (row : Nat) (src m0 m1 : Bool)

/-- A command word bit by bit: OPC, ROW from bit 8 on, and the three flags. -/
theorem getLsbD_commandWord {i : Nat} (hi : i < 32) : (commandWord opc row src m0 m1).getLsbD i =
    (opc.getLsbD i || (decide (8 ≤ i) && (BitVec.ofNat 5 row).getLsbD (i - 8)) || (decide (i = 13) && src) ||
      (decide (i = 16) && m0) || (decide (i = 17) && m1)) := by
  have hrow : i - 8 < 32 := by omega
  simp only [commandWord, BitVec.getLsbD_or, BitVec.getLsbD_setWidth, BitVec.getLsbD_shiftLeft, getLsbD_flagAt _ hi, hi, hrow,
    decide_true, Bool.true_and, ← Nat.not_lt, decide_not]

theorem opcOf_commandWord : opcOf (commandWord opc row src m0 m1) = opc.toNat := by
  refine congrArg BitVec.toNat (BitVec.eq_of_getLsbD_eq fun i hi => ?_)
  rw [BitVec.getLsbD_extractLsb', Nat.zero_add, getLsbD_commandWord _ _ _ _ _ (by omega)]
  simp [hi, show ¬ 8 ≤ i by omega, show i ≠ 13 by omega, show i ≠ 16 by omega, show i ≠ 17 by omega]

theorem rowOf_commandWord : rowOf (commandWord opc row src m0 m1) = row % 32 := by
  have hfield : (commandWord opc row src m0 m1).extractLsb' 8 5 = BitVec.ofNat 5 row := by
    refine BitVec.eq_of_getLsbD_eq fun i hi => ?_
    rw [BitVec.getLsbD_extractLsb', getLsbD_commandWord _ _ _ _ _ (by omega), BitVec.getLsbD_of_ge opc _ (by omega)]
    simp [hi, show 8 + i ≠ 13 by omega, show 8 + i ≠ 16 by omega, show 8 + i ≠ 17 by omega]
  rw [rowOf, hfield, BitVec.toNat_ofNat]

theorem srcOf_commandWord : srcOf (commandWord opc row src m0 m1) = src := by
  rw [srcOf, getLsbD_commandWord _ _ _ _ _ (by decide), BitVec.getLsbD_of_ge opc _ (by decide),
    BitVec.getLsbD_of_ge _ _ (by decide)]
  simp

theorem m0Of_commandWord : m0Of (commandWord opc row src m0 m1) = m0 := by
  rw [m0Of, getLsbD_commandWord _ _ _ _ _ (by decide), BitVec.getLsbD_of_ge opc _ (by decide),
    BitVec.getLsbD_of_ge _ _ (by decide)]
  simp

theorem m1Of_commandWord : m1Of (commandWord opc row src m0 m1) = m1 := by
  rw [m1Of, getLsbD_commandWord _ _ _ _ _ (by decide), BitVec.getLsbD_of_ge opc _ (by decide),
    BitVec.getLsbD_of_ge _ _ (by decide)]
  simp

theorem reservedClear_commandWord : reservedClear (commandWord opc row src m0 m1) = true := by
  refine beq_iff_eq.2 (and_eq_zero_iff_getLsbD.2 fun i hi => ?_)
  have hlt : i < 32 := BitVec.lt_of_getLsbD hi
  have hplace : i ≠ 16 ∧ i ≠ 17 ∧ 13 < i := by
    interval_cases i <;> simp at hi ⊢
  obtain ⟨h16, h17, h13⟩ := hplace
  rw [getLsbD_commandWord _ _ _ _ _ hlt, BitVec.getLsbD_of_ge opc _ (by omega), BitVec.getLsbD_of_ge _ (i - 8) (by omega)]
  simp [h16, h17, Nat.ne_of_gt h13]

theorem decodeWord_commandWord :
    decodeWord (commandWord opc row src m0 m1) = decodeOpcode (commandWord opc row src m0 m1) :=
  if_pos (reservedClear_commandWord opc row src m0 m1)

end

/-! ### What each class makes of its own command words (spec/30_encoding.md R72) -/

section
variable (opc : Byte) {row : Nat} (hrow : row < 32)

include hrow in
theorem decodeBitAddressed_commandWord (mk : Nat → Instr) :
    decodeBitAddressed (commandWord opc row false false false) mk = .ok (mk row) := by
  simp [decodeBitAddressed, srcOf_commandWord, m0Of_commandWord, m1Of_commandWord, rowOf_commandWord, Nat.mod_eq_of_lt hrow]

include hrow in
theorem decodeManch_commandWord (conv zb : Bool) :
    decodeManch (commandWord opc row false conv zb) = .ok (.manch row conv zb) := by
  simp [decodeManch, srcOf_commandWord, m0Of_commandWord, m1Of_commandWord, rowOf_commandWord, Nat.mod_eq_of_lt hrow]

include hrow in
theorem decodeByteAddressed_commandWord_row (mkRow : Nat → Instr) (mkOut : Instr) :
    decodeByteAddressed (commandWord opc row false false false) mkRow mkOut = .ok (mkRow row) := by
  simp [decodeByteAddressed, srcOf_commandWord, m0Of_commandWord, m1Of_commandWord, rowOf_commandWord, Nat.mod_eq_of_lt hrow]

theorem decodeByteAddressed_commandWord_out (mkRow : Nat → Instr) (mkOut : Instr) :
    decodeByteAddressed (commandWord opc 0 true false false) mkRow mkOut = .ok mkOut := by
  simp [decodeByteAddressed, srcOf_commandWord, m0Of_commandWord, m1Of_commandWord, rowOf_commandWord]

include hrow in
theorem decodeWhiten_commandWord_row (refl : Bool) :
    decodeWhiten (commandWord opc row false refl false) = .ok (.whiten row refl) := by
  simp [decodeWhiten, srcOf_commandWord, m0Of_commandWord, m1Of_commandWord, rowOf_commandWord, Nat.mod_eq_of_lt hrow]

theorem decodeWhiten_commandWord_out (refl : Bool) :
    decodeWhiten (commandWord opc 0 true refl false) = .ok (.whitenOut refl) := by
  simp [decodeWhiten, srcOf_commandWord, m0Of_commandWord, m1Of_commandWord, rowOf_commandWord]

theorem decodePlain_commandWord (i : Instr) : decodePlain (commandWord opc 0 false false false) i = .ok i := by
  simp [decodePlain, srcOf_commandWord, m0Of_commandWord, m1Of_commandWord, rowOf_commandWord]

end

theorem rowFits_of_wellFormed {i : Instr} {row : Nat} (h : i.wellFormed = true) (hn : i.namedRow = some row) : row < 32 := by
  rw [Instr.wellFormed, hn] at h
  exact of_decide_eq_true h

/-- The round trip of a word, constructor by constructor: OPC selects the class, and the class reads its own fields back. -/
theorem decodeWord_encode {i : Instr} (h : i.wellFormed = true) : decodeWord (encode i) = .ok i := by
  cases i with
  | search row | extract row | getbit row | getbyte row | dmanch row | uart8n1 row | uart8o1 row | nib4b1s row | symbols row =>
    rw [encode, decodeWord_commandWord, decodeOpcode, opcOf_commandWord]
    exact decodeBitAddressed_commandWord _ (rowFits_of_wellFormed h rfl) _
  | invert | rev8 | refl4 | parity8 =>
    rw [encode, decodeWord_commandWord, decodeOpcode, opcOf_commandWord]
    exact decodePlain_commandWord _ _
  | manch row conv zb =>
    rw [encode, decodeWord_commandWord, decodeOpcode, opcOf_commandWord]
    exact decodeManch_commandWord _ (rowFits_of_wellFormed h rfl) conv zb
  | whiten row refl =>
    rw [encode, decodeWord_commandWord, decodeOpcode, opcOf_commandWord]
    exact decodeWhiten_commandWord_row _ (rowFits_of_wellFormed h rfl) refl
  | whitenOut refl =>
    rw [encode, decodeWord_commandWord, decodeOpcode, opcOf_commandWord]
    exact decodeWhiten_commandWord_out _ refl
  | crc4 row | crc7 row | crc8 row | crc8le row | crc16 row | crc16lsb row | lfsr8 row | lfsr8rev row | lfsr8rfl row
  | lfsr16 row | parityb row | xorb row | addb row | addn row =>
    rw [encode, decodeWord_commandWord, decodeOpcode, opcOf_commandWord]
    exact decodeByteAddressed_commandWord_row _ (rowFits_of_wellFormed h rfl) _ _
  | crc4Out | crc7Out | crc8Out | crc8leOut | crc16Out | crc16lsbOut | lfsr8Out | lfsr8revOut | lfsr8rflOut | lfsr16Out
  | paritybOut | xorbOut | addbOut | addnOut =>
    rw [encode, decodeWord_commandWord, decodeOpcode, opcOf_commandWord]
    exact decodeByteAddressed_commandWord_out _ _ _

/-- The four bytes of a word, most significant first, are the word (R57). -/
theorem append_wordBytes (w : Word) :
    w.extractLsb' 24 8 ++ w.extractLsb' 16 8 ++ w.extractLsb' 8 8 ++ w.extractLsb' 0 8 = w := by
  refine BitVec.eq_of_getLsbD_eq fun i hi => ?_
  simp only [BitVec.getLsbD_append, BitVec.getLsbD_extractLsb']
  repeat' split
  all_goals
    rw [decide_eq_true (by omega), Bool.true_and]
    congr 1
    omega

theorem decode_wordBytes_append {w : Word} {i : Instr} (h : decodeWord w = .ok i) (rest : List Byte) :
    decode (wordBytes w ++ rest) = .ok (i, rest) := by
  have hw : decodeWord (w.extractLsb' 24 8 ++ w.extractLsb' 16 8 ++ w.extractLsb' 8 8 ++ w.extractLsb' 0 8) = .ok i :=
    (congrArg decodeWord (append_wordBytes w)).trans h
  simp only [wordBytes, List.cons_append, List.nil_append, decode, hw]

/-- Settles O1: the word by its class, the bytes because they are the word. -/
theorem decodeOfEncodeIsIdentity : Obligations.DecodeOfEncodeIsIdentity :=
  fun _ rest hwf => ⟨decodeWord_encode hwf, decode_wordBytes_append (decodeWord_encode hwf) rest⟩

end Sys2Proof
end

section
/-! R72, R77, R78: the fields of a word as tests of its bits, what each class refuses, then O3; and the words of R81, O4. -/

namespace Sys2Proof

/-! ### Fields as tests of bits (spec/30_encoding.md R71) -/

theorem and_or_eq_zero_iff {w m n : Word} : w &&& (m ||| n) = 0#32 ↔ w &&& m = 0#32 ∧ w &&& n = 0#32 := by
  simp only [and_eq_zero_iff_getLsbD, BitVec.getLsbD_or, Bool.or_eq_true, or_imp, forall_and]

theorem and_twoPow_eq_zero_iff {w : Word} {i : Nat} (hi : i < 32) : w &&& BitVec.twoPow 32 i = 0#32 ↔ w.getLsbD i = false := by
  simp [and_eq_zero_iff_getLsbD, BitVec.getLsbD_twoPow, hi]

theorem and_src_eq_zero_iff {w : Word} : w &&& 0x2000#32 = 0#32 ↔ srcOf w = false :=
  and_twoPow_eq_zero_iff (i := 13) (by decide)

theorem and_m0_eq_zero_iff {w : Word} : w &&& 0x10000#32 = 0#32 ↔ m0Of w = false :=
  and_twoPow_eq_zero_iff (i := 16) (by decide)

theorem and_m1_eq_zero_iff {w : Word} : w &&& 0x20000#32 = 0#32 ↔ m1Of w = false :=
  and_twoPow_eq_zero_iff (i := 17) (by decide)

theorem and_row_eq_zero_iff {w : Word} : w &&& 0x1F00#32 = 0#32 ↔ rowOf w = 0 := by
  refine ⟨rowOf_of_and, fun h => and_eq_zero_iff_getLsbD.2 fun i hi => ?_⟩
  have hfield : w.extractLsb' 8 5 = 0#5 := BitVec.eq_of_toNat_eq h
  have hlt : i < 32 := BitVec.lt_of_getLsbD hi
  have hplace : 8 ≤ i ∧ i - 8 < 5 := by interval_cases i <;> simp at hi ⊢
  have hbit := congrArg (BitVec.getLsbD · (i - 8)) hfield
  simpa [hplace.2, Nat.add_sub_cancel' hplace.1] using hbit

theorem and_flags_eq_zero_iff {w : Word} : w &&& 0x30000#32 = 0#32 ↔ m0Of w = false ∧ m1Of w = false := by
  rw [show 0x30000#32 = 0x10000#32 ||| 0x20000#32 from rfl, and_or_eq_zero_iff, and_m0_eq_zero_iff, and_m1_eq_zero_iff]

theorem and_srcFlags_eq_zero_iff {w : Word} :
    w &&& 0x32000#32 = 0#32 ↔ srcOf w = false ∧ m0Of w = false ∧ m1Of w = false := by
  rw [show 0x32000#32 = 0x2000#32 ||| 0x30000#32 from rfl, and_or_eq_zero_iff, and_src_eq_zero_iff, and_flags_eq_zero_iff]

/-- `w[17:8]` holds the four fields and the reserved bits 15:14. -/
theorem and_fields_eq_zero_iff {w : Word} (hr : reservedClear w = true) :
    w &&& 0x3FF00#32 = 0#32 ↔ rowOf w = 0 ∧ srcOf w = false ∧ m0Of w = false ∧ m1Of w = false := by
  have hres : w &&& 0xFFFC0000#32 = 0#32 ∧ w &&& 0xC000#32 = 0#32 := and_or_eq_zero_iff.1 (beq_iff_eq.1 hr)
  rw [show 0x3FF00#32 = 0xC000#32 ||| (0x1F00#32 ||| 0x32000#32) from rfl, and_or_eq_zero_iff, and_iff_right hres.2,
    and_or_eq_zero_iff, and_row_eq_zero_iff, and_srcFlags_eq_zero_iff]

/-! ### What each class refuses (spec/30_encoding.md R72, step 3 of R77) -/

/-- The decoder refuses. -/
def Refuses (result : Except Illegal Instr) : Prop := ∃ e, result = .error e

theorem refuses_error (e : Illegal) : Refuses (.error e) := ⟨e, rfl⟩

theorem not_refuses_ok (i : Instr) : ¬ Refuses (.ok i) := nofun

theorem refuses_ite {c : Bool} {e : Illegal} {i : Instr} : Refuses (if c then .error e else .ok i) ↔ c = true := by
  cases c
  · simpa using not_refuses_ok i
  · simpa using refuses_error e

section
variable {w : Word}

theorem refuses_decodeBitAddressed {mk : Nat → Instr} : Refuses (decodeBitAddressed w mk) ↔ w &&& 0x32000#32 ≠ 0#32 := by
  rw [decodeBitAddressed, refuses_ite, Ne, and_srcFlags_eq_zero_iff, ← and_assoc, ← Bool.or_eq_false_iff,
    ← Bool.or_eq_false_iff, Bool.not_eq_false]

theorem refuses_decodeManch : Refuses (decodeManch w) ↔ w &&& 0x2000#32 ≠ 0#32 := by
  rw [decodeManch, refuses_ite, Ne, and_src_eq_zero_iff, Bool.not_eq_false]

theorem refuses_decodePlain (hr : reservedClear w = true) {i : Instr} :
    Refuses (decodePlain w i) ↔ w &&& 0x3FF00#32 ≠ 0#32 := by
  rw [decodePlain, refuses_ite, Ne, and_fields_eq_zero_iff hr, ← Bool.not_eq_false]
  simp only [Bool.or_eq_false_iff, bne_eq_false_iff_eq, and_assoc]

/-- The last test of a byte-addressed class: a ROW field with SRC = 1. -/
theorem srcOf_and_rowOf_iff : (srcOf w && rowOf w != 0) = true ↔ w &&& 0x2000#32 ≠ 0#32 ∧ w &&& 0x1F00#32 ≠ 0#32 := by
  rw [Bool.and_eq_true, Ne, Ne, and_src_eq_zero_iff, and_row_eq_zero_iff, Bool.not_eq_false, bne_iff_ne]

theorem refuses_decodeByteAddressed {mkRow : Nat → Instr} {mkOut : Instr} :
    Refuses (decodeByteAddressed w mkRow mkOut) ↔
      w &&& 0x30000#32 ≠ 0#32 ∨ (w &&& 0x2000#32 ≠ 0#32 ∧ w &&& 0x1F00#32 ≠ 0#32) := by
  rw [decodeByteAddressed, ← apply_ite Except.ok, refuses_ite, Bool.or_eq_true, srcOf_and_rowOf_iff,
    ← Bool.not_eq_false, Bool.or_eq_false_iff, ← and_flags_eq_zero_iff]

theorem refuses_decodeWhiten :
    Refuses (decodeWhiten w) ↔ w &&& 0x20000#32 ≠ 0#32 ∨ (w &&& 0x2000#32 ≠ 0#32 ∧ w &&& 0x1F00#32 ≠ 0#32) := by
  rw [decodeWhiten, ← apply_ite Except.ok, refuses_ite, Bool.or_eq_true, srcOf_and_rowOf_iff,
    ← Bool.not_eq_false, ← and_m1_eq_zero_iff]

end

/-- The words of step 2 and 3 of R77 that are not commands: the OPC is unassigned, or its class refuses the other fields. -/
def OpcodeIllegal (w : Word) : Prop :=
  opcOf w ∉ [0x10, 0x11, 0x12, 0x13, 0x20, 0x21, 0x22, 0x23, 0x24, 0x25, 0x26, 0x27, 0x28, 0x29, 0x30, 0x31, 0x32, 0x33,
    0x34, 0x35, 0x38, 0x39, 0x3A, 0x3B, 0x40, 0x41, 0x42, 0x43, 0x44] ∨
  (opcOf w ∈ [0x10, 0x11, 0x12, 0x13, 0x24, 0x25, 0x26, 0x27, 0x28] ∧ w &&& 0x00032000#32 ≠ 0) ∨
  (opcOf w = 0x23 ∧ w &&& 0x00002000#32 ≠ 0) ∨
  (opcOf w ∈ [0x30, 0x31, 0x32, 0x33, 0x34, 0x35, 0x38, 0x39, 0x3A, 0x3B, 0x41, 0x42, 0x43, 0x44] ∧
    (w &&& 0x00030000#32 ≠ 0 ∨ (w &&& 0x00002000#32 ≠ 0 ∧ w &&& 0x00001F00#32 ≠ 0))) ∨
  (opcOf w = 0x29 ∧ (w &&& 0x00020000#32 ≠ 0 ∨ (w &&& 0x00002000#32 ≠ 0 ∧ w &&& 0x00001F00#32 ≠ 0))) ∨
  (opcOf w ∈ [0x20, 0x21, 0x22, 0x40] ∧ w &&& 0x0003FF00#32 ≠ 0)

/-- OPC by OPC: an unassigned one is refused, an assigned one as its class refuses. -/
theorem refuses_decodeOpcode {w : Word} (hr : reservedClear w = true) : Refuses (decodeOpcode w) ↔ OpcodeIllegal w := by
  unfold decodeOpcode OpcodeIllegal
  split
  case h_30 => simp_all [refuses_error]
  all_goals
    next ho =>
      simp only [ho, refuses_decodeBitAddressed, refuses_decodePlain hr, refuses_decodeManch, refuses_decodeWhiten,
        refuses_decodeByteAddressed]
      simp

theorem refuses_decodeWord {w : Word} : Refuses (decodeWord w) ↔ w &&& 0xFFFCC000#32 ≠ 0 ∨ OpcodeIllegal w := by
  unfold decodeWord
  cases hr : reservedClear w with
  | true =>
    rw [if_pos rfl, refuses_decodeOpcode hr, or_iff_right]
    exact not_not_intro (beq_iff_eq.1 hr)
  | false => exact iff_of_true (refuses_error _) (.inl (beq_eq_false_iff_ne.1 hr))

/-- Settles O3: the reserved bits, then OPC by OPC what its class refuses. -/
theorem illegalWordsAreTheListedOnes : Obligations.IllegalWordsAreTheListedOnes :=
  ⟨rfl, fun _ => refuses_decodeWord⟩

/-- Settles O4: each of the seven words is decoded. -/
theorem exampleWordsOfTheSyntaxDecode : Obligations.ExampleWordsOfTheSyntaxDecode :=
  ⟨rfl, rfl, rfl, rfl, rfl, rfl, rfl⟩

end Sys2Proof
end

section
/-! Everything a command can do to the state (spec/60_exceptions.md R264, spec/20_memory.md R55), then what follows of every command
and every step: O25 and O26, O14, O18, O22, O23, O24. -/

namespace Sys2Proof.Machine

/-! ### Everything a command can do -/

/-- The next states of a command: an error; two values; a payload in OUT; a run stored in place in a buffer; the rows inverted. -/
inductive CommandEnds (s : State) : State → Prop where
  | error (c : ErrCode) : CommandEnds s (s.takeError c)
  | values (x y : Word) : CommandEnds s (s.complete x y)
  | payload (p : List Byte) (n : Nat) (x y : Word) : PayloadFits p n → CommandEnds s ((s.deliver p n).complete x y)
  | stored (src : Source) (off : Nat) (bs : List Byte) : s.sourceReady src = true →
      CommandEnds s ((s.storeRun src off bs).complete 0 0)
  | inverted : s.allRowsReady = true → CommandEnds s ((s.invertRows s.nrows.toNat).complete 0 0)

theorem whitened_ends {src : Source} {refl : Bool} {s t : State} (h : whitened src refl s = .next t) : CommandEnds s t := by
  obtain ⟨c, rfl⟩ | ⟨hr, -, rfl⟩ := byteCommand_cases h
  · exact .error c
  · exact .stored src _ _ hr

theorem exec_next_ends {i : Instr} {s t : State} (h : exec i s = .next t) : CommandEnds s t := by
  cases hp : i.writesPayload with
  | true =>
    obtain ⟨p, n, x, y, hfits, rfl⟩ | ⟨c, rfl⟩ := exec_payload hp h
    · exact .payload p n x y hfits
    · exact .error c
  | false =>
    cases hm : i.mutatesInPlace with
    | false =>
      obtain ⟨x, y, rfl⟩ | ⟨c, rfl⟩ := exec_readOnly hp hm h
      · exact .values x y
      · exact .error c
    | true =>
      cases i <;> simp only [Instr.mutatesInPlace, reduceCtorEq] at hm
      case invert =>
        obtain ⟨c, rfl⟩ | ⟨hready, rfl⟩ := execInvert_cases h
        · exact .error c
        · exact .inverted hready
      case whiten row refl => exact whitened_ends (src := .row row) h
      case whitenOut refl => exact whitened_ends (src := .out) h

theorem CommandEnds.inv {s t : State} (h : CommandEnds s t) (hinv : s.inv = true) : t.inv = true := by
  cases h with
  | error c => exact State.inv_takeError hinv c
  | values x y => exact State.inv_complete hinv x y
  | payload p n x y hfits => exact State.inv_complete (State.inv_deliver hinv p hfits.1) x y
  | stored src off bs hr => exact State.inv_complete (State.inv_storeRun hinv (sourceReady_lt hr) off bs) 0 0
  | inverted hready => exact State.inv_complete (State.inv_invertRows hinv (allRowsReady_iff.1 hready).1) 0 0

theorem base_of_source_ge (src : Source) : Config.outBase ≤ src.base := by
  cases src <;> simp only [Source.base, Config.outBase, Config.rowBase] <;> omega

/-- No command writes below OUT, where PAT stands (R32, R57). -/
theorem CommandEnds.read_below {s t : State} (h : CommandEnds s t) {off : Nat} (hoff : off < Config.outBase) :
    Memory.read t.mem off = Memory.read s.mem off := by
  cases h with
  | error c => rfl
  | values x y => rfl
  | payload p n x y hfits => exact s.read_deliver_outside p n (inRun_eq_false.2 (.inl hoff))
  | stored src o bs hr =>
    exact s.read_storeRun_outside src o bs (inRun_eq_false.2 (.inl (hoff.trans_le (base_of_source_ge src))))
  | inverted hready => exact s.read_invertRows_below _ (hoff.trans (by decide))

/-! ### Every step -/

theorem State.inv_writeReg {s : State} (h : s.inv = true) {r : Reg} (hr : r ≠ .cmd) (v : Word) : (s.writeReg r v).inv = true := by
  cases r with
  | cmd => exact absurd rfl hr
  | status =>
    obtain ⟨hwf, hbuf, hout, hstatus⟩ := s.inv_iff.1 h
    exact (State.inv_iff _).2 ⟨hwf, hbuf, hout, statusLegal_written v hstatus⟩
  | opnd | r0 | r1 | nrows | outbits | bits => exact h

theorem State.inv_writeMem {s : State} (h : s.inv = true) {off : Nat} (hoff : isBuffer off = true) (v : Byte) :
    (s.writeMem off v).inv = true := by
  obtain ⟨hwf, hbuf, hout, hstatus⟩ := s.inv_iff.1 h
  refine (State.inv_iff _).2 ⟨Memory.wf_write hwf off v, fun c hc => ?_, hout, hstatus⟩
  obtain hold | hnew := Memory.mem_write hc
  · exact hbuf c hold
  · rwa [hnew]

/-- Settles O26: the reset memory is empty, OUTBITS and STATUS are 0. -/
theorem resetStateMeetsTheInvariant : Obligations.ResetStateMeetsTheInvariant := by
  rw [Obligations.ResetStateMeetsTheInvariant, State.inv_iff]
  exact ⟨rfl, nofun, by decide, statusLegal_zero⟩

theorem State.inv_platformReset (s : State) : s.platformReset.inv = true := resetStateMeetsTheInvariant

/-- Settles O25: one case per thing a step can do, a command by `CommandEnds.inv`. -/
theorem everyStepKeepsTheInvariant : Obligations.EveryStepKeepsTheInvariant := by
  intro s t hinv hstep
  obtain ⟨-, rfl⟩ | ⟨act, rest, -, hcases⟩ := step_cases hstep
  · exact hinv
  · obtain ⟨w, i, -, -, hexec⟩ | ⟨w, e, -, -, rfl⟩ | ⟨off, v, r, -, hr, rfl⟩ | ⟨off, b, -, hplace, rfl⟩ | ⟨v, rfl⟩ |
      rfl | ⟨-, rfl⟩ := hcases
    · exact (exec_next_ends hexec).inv hinv
    · exact State.inv_takeError (s := { s with pending := rest, cmd := w }) hinv .illegal
    · exact State.inv_writeReg (s := { s with pending := rest }) hinv hr v
    · refine State.inv_writeMem (s := { s with pending := rest }) hinv ?_ b
      obtain hp | hp := hplace <;> rw [isBuffer, hp]
    · exact hinv
    · exact hinv
    · exact State.inv_platformReset _

/-! ### How a write to CMD ends -/

theorem ErrCode.code_mem (c : ErrCode) : c.code ∈ ([1, 2, 3, 4, 5] : List (BitVec 4)) := by cases c <;> decide

theorem step_writeCmd {s : State} {w : Word} {rest : List HostAction} (h : s.pending = .writeWord 0 w :: rest) :
    step s = writeCommand w { s with pending := rest } := step_of_pending h

theorem writeCommand_of_ok {w : Word} {i : Instr} (h : decodeWord w = .ok i) (s : State) :
    writeCommand w s = exec i { s with cmd := w } := by simp [writeCommand, h]

theorem writeCommand_of_error {w : Word} {e : Illegal} (h : decodeWord w = .error e) (s : State) :
    writeCommand w s = .next ({ s with cmd := w }.takeError .illegal) := by simp [writeCommand, h]

/-- Settles O14: an illegal word and a decoded command's error both end in `State.takeError`. -/
theorem failingCommandChangesOnlyCmdAndStatus : Obligations.FailingCommandChangesOnlyCmdAndStatus := by
  intro s w rest hp
  have herror : ∀ c : ErrCode, errOf (statusError c s.status) ∈ ([1, 2, 3, 4, 5] : List (BitVec 4)) ∧
      stickyOf (statusError c s.status) = true := fun c =>
    ⟨(errOf_statusError c s.status).symm ▸ c.code_mem, stickyOf_statusError c s.status⟩
  rw [step_writeCmd hp]
  cases hd : decodeWord w with
  | error e => exact ⟨_, writeCommand_of_error hd _, rfl, .inr ⟨(herror .illegal).1, (herror .illegal).2, rfl⟩⟩
  | ok i =>
    rw [writeCommand_of_ok hd]
    obtain ⟨t, ht, hc⟩ | ⟨c, -, ht⟩ := exec_ends i { s with pending := rest, cmd := w }
    · refine ⟨t, ht, hc.cmd, .inl ?_⟩
      rw [hc.status]
      exact ⟨errOf_statusCompleted _, stickyOf_statusCompleted _⟩
    · exact ⟨_, ht, rfl, .inr ⟨(herror c).1, (herror c).2, rfl⟩⟩

/-- Settles O18: a completing command clears ERR. -/
theorem commandsRaiseOnlyTheirTabledErrors : Obligations.CommandsRaiseOnlyTheirTabledErrors := fun i s =>
  (exec_ends i s).imp_left fun ⟨t, ht, hc⟩ => ⟨t, ht, hc.status ▸ errOf_statusCompleted s.status⟩

/-! ### What commands leave alone -/

/-- Settles O22: the registers by `exec_cases`, PAT because no command writes below OUT. -/
theorem noCommandWritesTheHostsState : Obligations.NoCommandWritesTheHostsState := by
  intro i s t h
  have hpat : ∀ j, j < 16 → Memory.read t.mem (0x40 + j) = Memory.read s.mem (0x40 + j) := fun j hj =>
    (exec_next_ends h).read_below (by simp only [Config.outBase]; omega)
  obtain hc | ⟨c, -, rfl⟩ := exec_cases h
  · exact ⟨hc.a, hc.cmd, hc.nrows, hc.bits, hc.pending, hc.readData, hpat⟩
  · exact ⟨rfl, rfl, rfl, rfl, rfl, rfl, hpat⟩

/-- Settles O23: such a command returns two values or takes an error. -/
theorem readOnlyCommandsChangeNoBuffer : Obligations.ReadOnlyCommandsChangeNoBuffer := by
  intro i s t hp hm h
  obtain ⟨x, y, rfl⟩ | ⟨c, rfl⟩ := exec_readOnly hp hm h <;> rfl

theorem toNat_ofNat_of_payloadFits {p : List Byte} {n : Nat} (h : PayloadFits p n) : (BitVec.ofNat 32 n).toNat = n := by
  have hn : n ≤ 2048 := h.1
  rw [BitVec.toNat_ofNat, Nat.mod_eq_of_lt (by omega)]

/-- Settles O24: such a command delivers a payload that fits; its errors have a code that is not 0. -/
theorem payloadCommandsReplaceTheWholeOfOut : Obligations.PayloadCommandsReplaceTheWholeOfOut := by
  intro i s t hp hinv h herr
  obtain ⟨p, n, x, y, hfits, rfl⟩ | ⟨c, rfl⟩ := exec_payload hp h
  · have hn : ((s.deliver p n).complete x y).outbits.toNat = n := toNat_ofNat_of_payloadFits hfits
    rw [hn]
    refine ⟨hfits.1, fun k hnk hk => ?_, s.sameOutsideOut_deliver p n, rfl⟩
    rw [State.outBit_complete, State.outBit, State.bufByte_deliver_out (State.wf_of_inv hinv) p n (by omega)]
    exact hfits.2 k hnk
  · exact absurd ((errOf_statusError c s.status).symm.trans herr) c.code_ne_zero

end Sys2Proof.Machine
end

section
/-! The host's accesses (spec/10_state.md R25, R26, spec/20_memory.md R56 to R58, spec/70_reset_and_hazards.md R290): O5 to
O7, O9 to O13 and O19. -/

namespace Sys2Proof.Machine

/-! ### STATUS as the host sees it (spec/10_state.md R26) -/

/-- Exactly ERR and STICKY are not reserved. -/
theorem getLsbD_statusMask {k : Nat} (hk : k < 32) : statusMask.getLsbD k = decide (k < 4 ∨ k = 8) := by
  interval_cases k <;> rfl

theorem errOf_statusRead (st : Word) : errOf (statusRead st) = errOf st := by
  refine BitVec.eq_of_getLsbD_eq fun i hi => ?_
  simp [errOf, statusRead, hi, getLsbD_statusMask (show i < 32 by omega)]

theorem stickyOf_statusRead (st : Word) : stickyOf (statusRead st) = stickyOf st := by
  rw [stickyOf, statusRead, BitVec.getLsbD_and, getLsbD_statusMask (by decide)]
  exact Bool.and_true _

theorem statusRead_and_reserved (st : Word) : statusRead st &&& 0xFFFFFEF0#32 = 0#32 := by
  rw [statusRead, BitVec.and_assoc]
  exact BitVec.and_zero

theorem statusError_and_reserved (c : ErrCode) (st : Word) :
    statusError c st &&& ~~~statusMask = st &&& ~~~statusMask := by
  refine BitVec.eq_of_getLsbD_eq fun k hk => ?_
  rw [BitVec.getLsbD_and, BitVec.getLsbD_and, BitVec.getLsbD_not, getLsbD_statusMask hk]
  by_cases h : k < 4 ∨ k = 8
  · simp [h]
  · rw [statusError_getLsbD c st (by omega) (by omega)]

/-- Settles O19: ERR and STICKY by the laws of `statusError`; every other field stays by definition. -/
theorem takingAnErrorWritesCodeAndSticky : Obligations.TakingAnErrorWritesCodeAndSticky := by
  refine fun s => ⟨?_, fun c => ⟨stickyOf_statusError c s.status, rfl, fun k h4 h8 => statusError_getLsbD c s.status h4 h8⟩⟩
  simp only [List.map, State.takeError_status, errOf_statusError]
  rfl

/-! ### Steps -/

/-- Settles O5: the step is the write to CMD, and that is the meaning of the decoded command. -/
theorem writeToCmdRunsTheDecodedCommand : Obligations.WriteToCmdRunsTheDecodedCommand :=
  fun _ _ _ _ hp hd => (step_writeCmd hp).trans (writeCommand_of_ok hd _)

/-- Settles O6: the write to CMD of an illegal word takes ERR_ILLEGAL, which leaves the reserved bits of STATUS. -/
theorem illegalWordIsStoredAndRaisesErrIllegal : Obligations.IllegalWordIsStoredAndRaisesErrIllegal :=
  fun s _ _ _ hp hd => ⟨statusError .illegal s.status, (step_writeCmd hp).trans (writeCommand_of_error hd _),
    errOf_statusError .illegal s.status, stickyOf_statusError .illegal s.status, statusError_and_reserved .illegal s.status⟩

/-- Settles O7: a step looks at the first host action only, and none waits. -/
theorem idleBduHoldsItsState : Obligations.IdleBduHoldsItsState := fun _ => step_of_idle

/-- Settles O9: the platform's reset is carried out like any other host action. -/
theorem platformResetGivesTheResetState : Obligations.PlatformResetGivesTheResetState := fun _ _ => step_of_pending

/-- The step that carries out a host action put first in the list. -/
theorem step_cons (s : State) (act : HostAction) (rest : List HostAction) :
    step { s with pending := act :: rest } = perform act { s with pending := rest } := step_of_pending rfl

/-! ### Reads (spec/20_memory.md R57, R58) -/

section
variable (s : State) (rest : List HostAction) {off : Nat}

theorem step_readWord {r : Reg} (ha : off % 4 = 0) (hp : placeAt off = .register r) :
    step { s with pending := .readWord off :: rest } = .next { s with pending := rest, readData := s.readReg r } := by
  rw [step_cons, perform, hostReadWord_register _ ha hp]
  cases r <;> rfl

theorem step_readByte (hp : placeAt off = .pat ∨ placeAt off = .out ∨ placeAt off = .rows) :
    step { s with pending := .readByte off :: rest } =
      .next { s with pending := rest, readData := (Memory.read s.mem off).setWidth 32 } := by
  rw [step_cons, perform, hostReadByte_buffer _ hp]
  rfl

/-! ### Writes (spec/20_memory.md R56) -/

theorem step_writeWord (v : Word) {r : Reg} (ha : off % 4 = 0) (hp : placeAt off = .register r) (hr : r ≠ .cmd) :
    step { s with pending := .writeWord off v :: rest } = .next { s.writeReg r v with pending := rest } := by
  rw [step_cons, perform, hostWriteWord_register v _ ha hp hr]
  cases r <;> rfl

theorem step_writeByte_out (v : Byte) (hp : placeAt off = .out) :
    step { s with pending := .writeByte off v :: rest } = .next { s with pending := rest } := by
  rw [step_cons, perform, hostWriteByte_out _ _ hp]

/-- A byte the host may write: it reads back, and no other byte changes. -/
theorem step_writeByte_stores (v : Byte) (hp : placeAt off = .pat ∨ placeAt off = .rows) :
    ∃ m, step { s with pending := .writeByte off v :: rest } = .next { s with mem := m, pending := rest } ∧
      (Memory.wf s.mem = true → Memory.wf m = true ∧ Memory.read m off = v) ∧
      ∀ k, k ≠ off → Memory.read m k = Memory.read s.mem k := by
  refine ⟨Memory.write s.mem off v, ?_, fun hwf => ⟨Memory.wf_write hwf off v, Memory.read_write_self v hwf⟩,
    fun k hk => Memory.read_write_of_ne s.mem v hk⟩
  rw [step_cons, perform, hostWriteByte_writable _ _ hp]
  rfl

end

/-- Settles O10: the place of each offset, then what a read of that place returns. -/
theorem hostReadsReturnTheStateAndChangeNothing : Obligations.HostReadsReturnTheStateAndChangeNothing := by
  intro s rest
  exact ⟨step_readWord s rest rfl placeAt_cmd,
    ⟨statusRead s.status, step_readWord s rest rfl placeAt_status, errOf_statusRead _, stickyOf_statusRead _,
      statusRead_and_reserved _⟩,
    fun i => step_readWord s rest (by omega) (placeAt_opnd i),
    step_readWord s rest rfl placeAt_r0, step_readWord s rest rfl placeAt_r1,
    step_readWord s rest rfl placeAt_nrows, step_readWord s rest rfl placeAt_outbits,
    fun r => step_readWord s rest (by omega) (placeAt_bits r),
    fun i hi => step_readByte s rest (.inl (placeAt_pat hi)),
    fun i hi => step_readByte s rest (.inr (.inl (placeAt_out_add hi))),
    fun r i hr hi => step_readByte s rest (.inr (.inr (placeAt_rows_add hr hi)))⟩

theorem stickyOf_statusWritten (v st : Word) : stickyOf (statusWritten v st) = (stickyOf st && !stickyOf v) :=
  statusWritten_getLsbD v st 8

theorem statusWritten_getLsbD_of_ne (v st : Word) {k : Nat} (h : k ≠ 8) : (statusWritten v st).getLsbD k = st.getLsbD k := by
  simp [statusWritten_getLsbD, h]

/-- Settles O11: the place of each offset, then what a write to that place does. -/
theorem hostWritesFollowTheRightsTable : Obligations.HostWritesFollowTheRightsTable := by
  intro s rest v b
  exact ⟨fun i => step_writeWord s rest v (by omega) (placeAt_opnd i) nofun,
    step_writeWord s rest v rfl placeAt_nrows nofun,
    fun r => step_writeWord s rest v (by omega) (placeAt_bits r) nofun,
    ⟨statusWritten v s.status, step_writeWord s rest v rfl placeAt_status nofun, stickyOf_statusWritten v _,
      fun _ => statusWritten_getLsbD_of_ne v _⟩,
    step_writeWord s rest v rfl placeAt_r0 nofun, step_writeWord s rest v rfl placeAt_r1 nofun,
    step_writeWord s rest v rfl placeAt_outbits nofun,
    fun i hi => step_writeByte_out s rest b (placeAt_out_add hi),
    fun i hi => step_writeByte_stores s rest b (.inl (placeAt_pat hi)),
    fun r i hr hi => step_writeByte_stores s rest b (.inr (placeAt_rows_add hr hi))⟩

/-- Settles O12: every access at a reserved offset, by its place. -/
theorem reservedOffsetsReadZeroAndIgnoreWrites : Obligations.ReservedOffsetsReadZeroAndIgnoreWrites := by
  intro s rest off v b h
  have hp := placeAt_reserved h
  simp only [step_cons, perform]
  refine ⟨?_, ?_, fun ha => ⟨?_, ?_⟩⟩
  · rw [hostReadByte, hp]
    rfl
  · rw [hostWriteByte, hp]
  · rw [hostReadWord, if_pos ha, hp]
    rfl
  · rw [hostWriteWord, if_pos ha, hp]

/-- Settles O13: alignment and the place of the offset decide, before the state is looked at. -/
theorem otherAccessWidthsAreRefused : Obligations.OtherAccessWidthsAreRefused := by
  intro s rest off v h b
  simp only [step_cons]
  refine ⟨rfl, rfl, fun ha => ⟨?_, ?_⟩, fun hoff => ?_, fun hoff => ?_⟩
  · exact if_neg ha
  · exact if_neg ha
  · obtain ⟨r, hp⟩ := placeAt_register hoff
    rw [perform, perform, hostReadByte, hostWriteByte, hp]
    exact ⟨rfl, rfl⟩
  · rw [perform, perform, hostReadWord, hostWriteWord]
    obtain hp | hp | hp := placeAt_buffer hoff <;> rw [hp] <;> exact ⟨ite_self _, ite_self _⟩

end Sys2Proof.Machine
end

section
/-! Which checks fail when (spec/60_exceptions.md R263, R266, spec/20_memory.md R54): O15, O16, O17; what no check looks at: O20; and
the first command after reset (spec/70_reset_and_hazards.md R291): O21. -/

namespace Sys2Proof.Machine

/-! ### The common checks (R263 steps 2 to 4) -/

theorem commonChecks_of_namedRow {i : Instr} {row : Nat} (h : i.namedRow = some row) (s : State) :
    Instr.commonChecks i s = rowChecks s row := by rw [Instr.commonChecks, h]

section
variable {s : State} {r : Nat}

theorem firstError_rowChecks_of_nrows (h : 25 < s.nrows.toNat) : firstError (rowChecks s r) = some .config :=
  firstError_cons_of_fail (decide_eq_true h)

theorem firstError_rowChecks_of_row (hn : s.nrows.toNat ≤ 25) (hr : s.nrows.toNat ≤ r) :
    firstError (rowChecks s r) = some .row :=
  (firstError_cons_of_pass (decide_eq_false (Nat.not_lt.2 hn))).trans (firstError_cons_of_fail (decide_eq_true hr))

theorem firstError_rowChecks_of_bits (hn : s.nrows.toNat ≤ 25) (hr : r < s.nrows.toNat) (hb : 1024 < s.rowLen r) :
    firstError (rowChecks s r) = some .config :=
  (firstError_cons_of_pass (decide_eq_false (Nat.not_lt.2 hn))).trans
    ((firstError_cons_of_pass (decide_eq_false (Nat.not_le.2 hr))).trans (firstError_cons_of_fail (decide_eq_true hb)))

end

section
variable {i : Instr} {row : Nat} {s : State} (hi : i.namedRow = some row)
include hi

theorem exec_of_nrows_beyond (h : 25 < s.nrows.toNat) : exec i s = .next (s.takeError .config) :=
  exec_of_common_fail (by rw [commonChecks_of_namedRow hi, firstError_rowChecks_of_nrows h])

theorem exec_of_row_not_valid (hn : s.nrows.toNat ≤ 25) (hr : s.nrows.toNat ≤ row) : exec i s = .next (s.takeError .row) :=
  exec_of_common_fail (by rw [commonChecks_of_namedRow hi, firstError_rowChecks_of_row hn hr])

theorem exec_of_bits_beyond (hn : s.nrows.toNat ≤ 25) (hr : row < s.nrows.toNat) (hb : 1024 < s.rowLen row) :
    exec i s = .next (s.takeError .config) :=
  exec_of_common_fail (by rw [commonChecks_of_namedRow hi, firstError_rowChecks_of_bits hn hr hb])

end

/-- Settles O15: the three common checks in their order; the rule's example is two cases of it. -/
theorem commonChecksReportTheFirstFailure : Obligations.CommonChecksReportTheFirstFailure := by
  refine ⟨fun i row s hi => ⟨exec_of_nrows_beyond hi, exec_of_row_not_valid hi, exec_of_bits_beyond hi⟩, fun s hn => ?_,
    fun s hn => ?_⟩
  · exact exec_of_nrows_beyond (row := 30) rfl (by rw [hn]; decide)
  · exact exec_of_row_not_valid (row := 30) rfl (by rw [hn]; decide) (by rw [hn]; decide)

/-! ### The own checks of the commands (R263 steps 5 and 6) -/

theorem firstError_rangeCheck_of_beyond {reach bound : Nat} (h : bound < reach) (rest : List Check) :
    firstError (rangeCheck reach bound :: rest) = some .range := firstError_cons_of_fail (decide_eq_true h)

theorem firstError_symbolCheck_of_le {w : Word} (h : symLen w ≤ 27) (rest : List Check) :
    firstError (symbolCheck w :: rest) = firstError rest := firstError_cons_of_pass (decide_eq_false (Nat.not_lt.2 h))

section
variable {row : Nat} {s : State} (hr : s.rowReady row = true)
include hr

theorem execSearch_operand (h : 128 < s.opndNat 1) : execSearch row s = .next (s.takeError .operand) := by
  have hfails : decide (8 * Config.patBytes < s.opndNat 1) = true := decide_eq_true h
  rw [execSearch, rowCommand_of_check hr (firstError_cons_of_fail hfails)]

theorem execSearch_range (hlen : s.opndNat 1 ≤ 128) (h : s.rowLen row < s.opndNat 0) :
    execSearch row s = .next (s.takeError .range) := by
  have hpass : decide (8 * Config.patBytes < s.opndNat 1) = false := decide_eq_false (Nat.not_lt.2 hlen)
  rw [execSearch, rowCommand_of_check hr ((firstError_cons_of_pass hpass).trans (firstError_rangeCheck_of_beyond h _))]

theorem execExtract_range (h : s.rowLen row < s.opndNat 0 + s.opndNat 1) :
    execExtract row s = .next (s.takeError .range) := by
  rw [execExtract, rowCommand_of_check hr (firstError_rangeCheck_of_beyond h _)]

theorem framed_range (width : Nat) (frame : List Bool → Option Byte) (h : s.rowLen row < s.opndNat 0 + s.opndNat 1) :
    framed row width frame s = .next (s.takeError .range) := by
  rw [framed, rowCommand_of_check hr (firstError_rangeCheck_of_beyond h _)]

theorem execGetbit_range (h : s.rowLen row ≤ s.opndNat 0) : execGetbit row s = .next (s.takeError .range) := by
  rw [execGetbit, rowCommand_of_check hr (firstError_rangeCheck_of_beyond (Nat.lt_succ_of_le h) _)]

theorem execGetbyte_range (h : s.rowLen row < s.opndNat 0 + 8) : execGetbyte row s = .next (s.takeError .range) := by
  rw [execGetbyte, rowCommand_of_check hr (firstError_rangeCheck_of_beyond h _)]

theorem execManch_range (conv zb : Bool) (h : s.rowLen row < s.opndNat 0) :
    execManch row conv zb s = .next (s.takeError .range) := by
  rw [execManch, rowCommand_of_check hr (firstError_rangeCheck_of_beyond h _)]

theorem execDmanch_range (h : s.rowLen row < s.opndNat 0) : execDmanch row s = .next (s.takeError .range) := by
  rw [execDmanch, rowCommand_of_check hr (firstError_rangeCheck_of_beyond h _)]

theorem execSymbols_operand (h : 27 < symLen (s.opnd 2) ∨ 27 < symLen (s.opnd 3) ∨ 27 < symLen (s.opnd 4)) :
    execSymbols row s = .next (s.takeError .operand) := by
  rw [execSymbols, rowCommand_of_check hr]
  simp only [firstError, symbolCheck_fails, symbolCheck_code, decide_eq_true_eq]
  by_cases h2 : 27 < symLen (s.opnd 2)
  · rw [if_pos h2]
  · by_cases h3 : 27 < symLen (s.opnd 3)
    · rw [if_neg h2, if_pos h3]
    · rw [if_neg h2, if_neg h3, if_pos (by omega)]

theorem execSymbols_range (h2 : symLen (s.opnd 2) ≤ 27) (h3 : symLen (s.opnd 3) ≤ 27) (h4 : symLen (s.opnd 4) ≤ 27)
    (h : s.rowLen row < s.opndNat 0 + s.opndNat 1) : execSymbols row s = .next (s.takeError .range) := by
  rw [execSymbols, rowCommand_of_check hr]
  rw [firstError_symbolCheck_of_le h2, firstError_symbolCheck_of_le h3, firstError_symbolCheck_of_le h4,
    firstError_rangeCheck_of_beyond h]

end

theorem execInvert_of_nrows_beyond {s : State} (h : 25 < s.nrows.toNat) : execInvert s = .next (s.takeError .config) :=
  command_of_fail (firstError_cons_of_fail (decide_eq_true h))

theorem execInvert_of_bits_beyond {s : State} {r : Nat} (hn : s.nrows.toNat ≤ 25) (hr : r < s.nrows.toNat)
    (hb : 1024 < s.rowLen r) : execInvert s = .next (s.takeError .config) := by
  refine command_of_fail ((firstError_cons_of_pass (decide_eq_false (Nat.not_lt.2 hn))).trans (firstError_cons_of_fail ?_))
  exact List.any_eq_true.2 ⟨r, List.mem_range.2 (hr.trans_le hn), by
    rw [decide_eq_true hr, Bool.true_and]; exact decide_eq_true hb⟩

/-- Settles O16: per command, the check that fails with those before it passed. -/
theorem operandAndRangeErrorsAreTheListed : Obligations.OperandAndRangeErrorsAreTheListed :=
  ⟨fun _ _ hr => ⟨execSearch_operand hr, execSearch_range hr,
    fun h => ⟨execExtract_range hr h, framed_range hr 10 frame8n1 h, framed_range hr 11 frame8o1 h,
      framed_range hr 5 frame4b1s h⟩,
    execGetbit_range hr, execGetbyte_range hr,
    fun h => ⟨fun conv zb => execManch_range hr conv zb h, execDmanch_range hr h⟩,
    execSymbols_operand hr, execSymbols_range hr⟩,
   fun _ => execInvert_of_nrows_beyond, fun _ _ => execInvert_of_bits_beyond⟩

/-- Settles O17: WHITEN and the Checksum group are byte-addressed commands alike. -/
theorem byteRunBeyondTheExtentIsErrRange : Obligations.ByteRunBeyondTheExtentIsErrRange := by
  intro i src s hsrc hr h
  obtain ⟨value, he⟩ | ⟨-, refl, he⟩ := exec_of_byteSource hsrc
  · exact (he s).trans (byteCommand_of_beyond hr h)
  · exact (he s).trans (byteCommand_of_beyond hr h)

/-! ### Commands without a row (spec/60_exceptions.md R263) -/

/-- The state with other values in the registers that describe the bit buffer. -/
abbrev State.withRowRegisters (s : State) (n : Word) (bs : Vector Word Config.numRows) : State :=
  { s with nrows := n, bits := bs }

section
variable (n : Word) (bs : Vector Word Config.numRows)

/-- Neither the check of a command on OUT nor its message depends on NROWS or BITS; so it is enough that the effect does not. -/
theorem byteCommand_out_withRowRegisters {effect : List Byte → State → State}
    (heffect : ∀ msg u, effect msg (u.withRowRegisters n bs) = (effect msg u).withRowRegisters n bs) {s t : State}
    (h : byteCommand .out effect s = .next t) :
    byteCommand .out effect (s.withRowRegisters n bs) = .next (t.withRowRegisters n bs) := by
  by_cases hfit : s.runFits .out = true
  · rw [byteCommand_of_fits rfl hfit] at h
    cases h
    exact (byteCommand_of_fits (s := s.withRowRegisters n bs) (src := .out) rfl hfit).trans (congrArg _ (heffect _ s))
  · have hbeyond : s.extent .out < s.opndNat 0 + s.opndNat 1 := by simpa [State.runFits] using hfit
    rw [byteCommand_of_beyond rfl hbeyond] at h
    cases h
    exact byteCommand_of_beyond (s := s.withRowRegisters n bs) (src := .out) rfl hbeyond

theorem checksum_out_withRowRegisters {value : State → List Byte → Word}
    (hvalue : ∀ u msg, value (u.withRowRegisters n bs) msg = value u msg) {s t : State}
    (h : checksum .out value s = .next t) :
    checksum .out value (s.withRowRegisters n bs) = .next (t.withRowRegisters n bs) :=
  byteCommand_out_withRowRegisters n bs (fun msg u => congrArg (fun v => (u.withRowRegisters n bs).complete v 0) (hvalue u msg)) h

theorem whitened_out_withRowRegisters {refl : Bool} {s t : State} (h : whitened .out refl s = .next t) :
    whitened .out refl (s.withRowRegisters n bs) = .next (t.withRowRegisters n bs) :=
  byteCommand_out_withRowRegisters n bs (fun _ _ => rfl) h

end

/-- Settles O20: the scalar commands make no check, and each command on OUT computes its value from the operands. -/
theorem bufferlessCommandsIgnoreTheRowRegisters : Obligations.BufferlessCommandsIgnoreTheRowRegisters := by
  intro i s t n bs hrow hne h
  cases i with
  | invert => exact absurd rfl hne
  | rev8 | refl4 | parity8 => cases h; rfl
  | whitenOut refl => exact whitened_out_withRowRegisters n bs h
  | crc4Out | crc7Out | crc8Out | crc8leOut | crc16Out | crc16lsbOut | lfsr8Out | lfsr8revOut | lfsr8rflOut | lfsr16Out =>
    exact checksum_out_withRowRegisters n bs (fun _ _ => rfl) h
  | paritybOut => exact checksum_out_withRowRegisters (value := fun _ msg => wordOfBool (parityBytes msg)) n bs (fun _ _ => rfl) h
  | xorbOut => exact checksum_out_withRowRegisters (value := fun _ msg => (xorBytes msg).setWidth 32) n bs (fun _ _ => rfl) h
  | addbOut => exact checksum_out_withRowRegisters (value := fun _ msg => BitVec.ofNat 32 (addBytes msg)) n bs (fun _ _ => rfl) h
  | addnOut => exact checksum_out_withRowRegisters (value := fun _ msg => BitVec.ofNat 32 (addNibbles msg)) n bs (fun _ _ => rfl) h
  | search | extract | getbit | getbyte | manch | dmanch | uart8n1 | uart8o1 | nib4b1s | symbols | whiten | crc4 | crc7 | crc8
  | crc8le | crc16 | crc16lsb | lfsr8 | lfsr8rev | lfsr8rfl | lfsr16 | parityb | xorb | addb | addn => cases hrow

/-! ### The first command after reset (spec/70_reset_and_hazards.md R291) -/

theorem statusCompleted_zero : statusCompleted 0 = 0 := by decide

theorem State.opndByte_firstOperand (x : Word) :
    { State.reset with a := #v[x, 0, 0, 0, 0] }.opndByte = x.setWidth 8 := rfl

/-- A scalar command on the reset state with the operand x: STATUS and R[1] are 0 before and after. -/
theorem scalar_after_reset (value : Byte → Word) (x : Word) :
    let s := { State.reset with a := #v[x, 0, 0, 0, 0] }
    scalar value s = .next { s with r0 := value (x.setWidth 8) } := by
  intro s
  have hstatus : statusCompleted s.status = s.status := statusCompleted_zero
  rw [scalar, State.complete, hstatus, State.opndByte_firstOperand]
  rfl

/-- Settles O21: no row is valid, and every other command computes from zeros alone. -/
theorem firstCommandAfterReset : Obligations.FirstCommandAfterReset := by
  refine ⟨fun i row hi => exec_of_row_not_valid hi (by decide) (Nat.zero_le row), fun i hi => ?_, fun x =>
    ⟨scalar_after_reset (fun b => (reflect b).setWidth 32) x, scalar_after_reset (fun b => (reflectNibbles b).setWidth 32) x,
      scalar_after_reset (fun b => wordOfBool (parity8 b)) x⟩⟩
  cases i with
  | whitenOut refl => cases refl <;> rfl
  | invert | rev8 | refl4 | parity8 | crc4Out | crc7Out | crc8Out | crc8leOut | crc16Out | crc16lsbOut | lfsr8Out
  | lfsr8revOut | lfsr8rflOut | lfsr16Out | paritybOut | xorbOut | addbOut | addnOut => rfl
  | search | extract | getbit | getbyte | manch | dmanch | uart8n1 | uart8o1 | nib4b1s | symbols | whiten | crc4 | crc7 | crc8
  | crc8le | crc16 | crc16lsb | lfsr8 | lfsr8rev | lfsr8rfl | lfsr16 | parityb | xorb | addb | addn => cases hi

end Sys2Proof.Machine
end

section
/-! EXTRACT, GETBIT and GETBYTE (spec/40_bitsearch_extract.md R101 to R103): O28, O29 and O30. -/

namespace Sys2Proof.Machine

/-! ### Bits of a buffer and bits of its bytes (spec/00_scope.md R9) -/

theorem State.bitAt_bufByte_out (s : State) (i : Nat) {j : Nat} (h : j < 8) :
    bitAt (s.bufByte .out i) j = s.outBit (8 * i + j) := by
  rw [State.outBit, show (8 * i + j) / 8 = i by omega, bitAt_add _ _ h, bitAt_lt _ h]

theorem State.bitAt_bufByte_row (s : State) (r i : Nat) {j : Nat} (h : j < 8) :
    bitAt (s.bufByte (.row r) i) j = s.rowBit r (8 * i + j) := by
  rw [State.rowBit, show (8 * i + j) / 8 = i by omega, bitAt_add _ _ h, bitAt_lt _ h]

/-! ### EXTRACT -/

theorem ofNat_opndNat (s : State) (i : Fin 5) : BitVec.ofNat 32 (s.opndNat i) = s.opnd i := by
  rw [State.opndNat, BitVec.ofNat_toNat, BitVec.setWidth_eq]

theorem exec_extract (row : Nat) (s : State) : exec (.extract row) s = execExtract row s := rfl

section
variable {row : Nat} {s : State} (hr : s.rowReady row = true) (hfit : s.opndNat 0 + s.opndNat 1 ≤ s.rowLen row)
include hr hfit

/-- The checks of EXTRACT pass: the run goes to OUT (R101). -/
theorem exec_extract_of_ready : exec (.extract row) s =
    .next ((s.deliverBits (s.rowRun row (s.opndNat 0) (s.opndNat 1))).complete (BitVec.ofNat 32 (ceil8 (s.opndNat 1))) 0) := by
  rw [exec_extract, execExtract, rowCommand_of_ready hr]
  exact firstError_eq_none.2 (by simpa using hfit)

/-- EXTRACT with the whole next state: the bits of the run at the front of OUT, and 0 after them. -/
theorem exec_extract_outBits (hinv : s.inv = true) :
    ∃ m, let t := { s with mem := m, outbits := s.opnd 1, r0 := BitVec.ofNat 32 ((s.opndNat 1 + 7) / 8), r1 := 0,
                           status := statusCompleted s.status }
      exec (.extract row) s = .next t ∧ sameOutsideOut s t ∧
      ∀ k, k < 8 * Config.outBytes → t.outBit k = (decide (k < s.opndNat 1) && s.rowBit row (s.opndNat 0 + k)) := by
  refine ⟨(s.deliverBits (s.rowRun row (s.opndNat 0) (s.opndNat 1))).mem, ?_, s.sameOutsideOut_deliverBits _, fun k hk => ?_⟩
  · rw [exec_extract_of_ready hr hfit, State.complete, State.deliverBits, State.length_rowRun, State.deliver, ofNat_opndNat]
    rfl
  · refine (State.outBit_deliverBits (State.wf_of_inv hinv) _ hk).trans ?_
    by_cases h : k < s.opndNat 1
    · rw [State.getD_rowRun _ _ _ h, decide_eq_true h, Bool.true_and]
    · rw [List.getD_eq_default _ _ (by simpa using h), decide_eq_false h, Bool.false_and]

end

/-- Settles O28: the checks pass and the payload is the run. -/
theorem extractCopiesTheBitRun : Obligations.ExtractCopiesTheBitRun :=
  fun _ _ hinv hr hfit => exec_extract_outBits hr hfit hinv

/-- Settles O29: bit 8 * i + j of OUT is bit 8 * i + j of the row, so the bytes agree. -/
theorem extractFromTheStartGivesTheRowsBytes : Obligations.ExtractFromTheStartGivesTheRowsBytes := by
  intro row count s hinv hr hstart hcount hlen
  obtain ⟨m, hexec, -, hbits⟩ := exec_extract_outBits hr (by omega) hinv
  obtain ⟨-, -, hrow⟩ := rowReady_iff.1 hr
  refine ⟨_, hexec, hcount, ?_, fun i hi => byte_ext fun j hj => ?_⟩
  · change (BitVec.ofNat 32 ((s.opndNat 1 + 7) / 8)).toNat = count
    rw [BitVec.toNat_ofNat, Nat.mod_eq_of_lt (by omega)]
    omega
  · rw [State.bitAt_bufByte_out _ _ hj, State.bitAt_bufByte_row _ _ _ hj, hbits _ (by simp only [Config.outBytes]; omega),
      hstart, Nat.zero_add, decide_eq_true (by omega), Bool.true_and]

/-! ### GETBIT and GETBYTE -/

theorem exec_getbit (row : Nat) (s : State) : exec (.getbit row) s = execGetbit row s := rfl

theorem exec_getbyte (row : Nat) (s : State) : exec (.getbyte row) s = execGetbyte row s := rfl

section
variable {row : Nat} {s : State} (hr : s.rowReady row = true)
include hr

theorem exec_getbit_of_ready (h : s.opndNat 0 < s.rowLen row) :
    exec (.getbit row) s = .next (s.complete (wordOfBool (s.rowBit row (s.opndNat 0))) 0) := by
  rw [exec_getbit, execGetbit, rowCommand_of_ready hr]
  exact firstError_eq_none.2 (by simpa using h)

theorem exec_getbyte_of_ready (h : s.opndNat 0 + 8 ≤ s.rowLen row) :
    exec (.getbyte row) s = .next (s.complete ((byteOf fun j => s.rowBit row (s.opndNat 0 + j)).setWidth 32) 0) := by
  rw [exec_getbyte, execGetbyte, rowCommand_of_ready hr, State.val_rowRun_eight]
  exact firstError_eq_none.2 (by simpa using h)

end

theorem toNat_setWidth_byte (b : Byte) : (b.setWidth 32 : Word).toNat = b.toNat :=
  BitVec.toNat_setWidth_of_le (by decide)

/-- Settles O30: GETBYTE's value is a packed byte, and EXTRACT of eight bits packs the same byte. -/
theorem getbitAndGetbyteReadTheRow : Obligations.GetbitAndGetbyteReadTheRow := by
  intro row s hr
  refine ⟨fun h => ?_, fun h => ⟨_, exec_getbyte_of_ready hr h, fun i hi => ?_, ?_, fun hinv hlen => ?_⟩⟩
  · rw [exec_getbit_of_ready hr h, wordOfBool_eq_ite]
    rfl
  · rw [BitVec.getLsbD_setWidth, decide_eq_true (by omega), Bool.true_and, getLsbD_byteOf _ hi]
  · rw [toNat_setWidth_byte]
    exact BitVec.isLt _
  · have hlen8 : s.opndNat 1 = 8 := congrArg BitVec.toNat hlen
    obtain ⟨m, hexec, -, hbits⟩ := exec_extract_outBits hr (by omega) hinv
    refine ⟨_, hexec, congrArg (BitVec.setWidth 32) (byte_ext fun j hj => ?_)⟩
    rw [State.bitAt_bufByte_out _ _ hj, hbits _ (by simp only [Config.outBytes]; omega), bitAt_byteOf _ hj, Nat.mul_zero,
      Nat.zero_add, hlen8, decide_eq_true hj, Bool.true_and]

end Sys2Proof.Machine
end

section
/-! INVERT, REV8, REFL4 and PARITY8 (spec/41_invert_reflect.md R120 to R122, spec/47_parity_sum.md R240): O31 to O34. -/

namespace Sys2Proof.Machine

/-! ### INVERT -/

theorem exec_invert (s : State) : exec .invert s = execInvert s := rfl

/-- Settles O31: the rows bit by bit; an offset outside the rows is below the first or above the last valid one. -/
theorem invertFlipsExactlyTheValidBits : Obligations.InvertFlipsExactlyTheValidBits := by
  intro s hinv hready
  obtain ⟨hrows, hlen⟩ := allRowsReady_iff.1 hready
  refine ⟨(s.invertRows s.nrows.toNat).mem, ?_, fun r k _ _ => ?_, fun off hoff => ?_⟩
  · rw [exec_invert, execInvert_of_ready hready, State.invertRows_eq]
    rfl
  · exact State.rowBit_invertRows (State.wf_of_inv hinv) s.nrows.toNat hlen r k
  · obtain hbelow | habove := inRun_eq_false.1 hoff
    · exact s.read_invertRows_below _ hbelow
    · exact s.read_invertRows_above _ ((Nat.add_le_add_left (Nat.mul_le_mul_left _ hrows) _).trans habove)

theorem State.read_row_eq_bufByte (s : State) (r : Nat) {i : Nat} (h : i < Config.rowBytes) :
    Memory.read s.mem (Config.rowBase + Config.rowBytes * r + i) = s.bufByte (.row r) i := (if_pos h).symm

theorem State.bufByte_congr {s t : State} (h : t.mem = s.mem) (src : Source) (i : Nat) : t.bufByte src i = s.bufByte src i := by
  rw [State.bufByte, State.bufByte, h]

theorem State.rowLen_congr {s t : State} (h : t.bits = s.bits) (r : Nat) : t.rowLen r = s.rowLen r := by
  rw [State.rowLen, State.rowLen, h]

section
variable {s t : State} {n : Nat} (hwf : Memory.wf s.mem = true) (hlen : ∀ r, r < n → s.rowLen r ≤ Config.rowBits)
  (hmem : t.mem = (s.invertRows n).mem) (hbits : t.bits = s.bits)
include hwf hlen hmem hbits

/-- Complementing the valid bits of the same rows again restores every row byte. -/
theorem State.bufByte_invertRows_again (r i : Nat) : (t.invertRows n).bufByte (.row r) i = s.bufByte (.row r) i := by
  have hlen' : ∀ r, t.rowLen r = s.rowLen r := State.rowLen_congr hbits
  rw [State.bufByte_invertRows (hmem ▸ State.wf_invertRows hwf n) n (by simpa only [hlen'] using hlen),
    State.bufByte_congr hmem, State.bufByte_invertRows hwf n hlen, hlen']
  split
  · rw [BitVec.xor_assoc, BitVec.xor_self, BitVec.xor_zero]
  · rfl

/-- Every stored byte is restored, so the canonical memory is. -/
theorem State.mem_invertRows_again : (t.invertRows n).mem = s.mem := by
  have hwf' : Memory.wf t.mem = true := hmem ▸ State.wf_invertRows hwf n
  refine Memory.eq_of_read_eq (State.wf_invertRows hwf' n) hwf fun off => ?_
  by_cases hbelow : off < Config.rowBase
  · rw [State.read_invertRows_below _ n hbelow, hmem, State.read_invertRows_below _ n hbelow]
  · obtain ⟨r, i, hi, rfl⟩ : ∃ r i, i < Config.rowBytes ∧ off = Config.rowBase + Config.rowBytes * r + i :=
      ⟨(off - Config.rowBase) / 128, (off - Config.rowBase) % 128, Nat.mod_lt _ (by decide),
        by simp only [Config.rowBytes, Config.rowBase] at hbelow ⊢; omega⟩
    rw [State.read_row_eq_bufByte _ r hi, State.bufByte_invertRows_again hwf hlen hmem hbits, State.read_row_eq_bufByte _ r hi]

end

theorem allRowsReady_congr {s t : State} (hnrows : t.nrows = s.nrows) (hbits : t.bits = s.bits) :
    t.allRowsReady = s.allRowsReady := by
  rw [Bool.eq_iff_iff, allRowsReady_iff, allRowsReady_iff, hnrows]
  simp only [State.rowLen_congr hbits]

/-- What INVERT leaves when it completes: STATUS and results aside, the inverted rows. -/
theorem exec_invert_next {s t : State} (hready : s.allRowsReady = true) (h : exec .invert s = .next t) :
    t = (s.invertRows s.nrows.toNat).complete 0 0 := by
  rw [exec_invert, execInvert_of_ready hready] at h
  exact (Host.Outcome.next.inj h).symm

/-- Settles O32: the first INVERT leaves NROWS and BITS, so the second one complements the same bits. -/
theorem invertTwiceRestoresTheBuffer : Obligations.InvertTwiceRestoresTheBuffer := by
  intro s t hinv hready h
  obtain rfl := exec_invert_next hready h
  have hc := Completes.invertRows_complete s s.nrows.toNat
  have hlen := (allRowsReady_iff.1 hready).2
  refine ⟨_, execInvert_of_ready ((allRowsReady_congr hc.nrows hc.bits).trans hready), ?_⟩
  rw [State.complete_mem, hc.nrows]
  exact State.mem_invertRows_again (State.wf_of_inv hinv) hlen rfl hc.bits

/-! ### Byte functions -/

/-- Bit i of a byte with its nibbles reflected: bit 3 - i of the low nibble, bit 11 - i of the high one (R122). -/
theorem getLsbD_reflectNibbles (b : Byte) {i : Nat} (h : i < 8) :
    (reflectNibbles b).getLsbD i = if i < 4 then b.getLsbD (3 - i) else b.getLsbD (11 - i) := by
  simp only [reflectNibbles, BitVec.getLsbD_append, getLsbD_reflect, BitVec.getLsbD_extractLsb']
  split
  · next hlow => simp [hlow, show 3 - i < 4 by omega]
  · next hhigh => simp [show i - 4 < 4 by omega, show 3 - (i - 4) < 4 by omega, show 4 + (3 - (i - 4)) = 11 - i by omega]

theorem State.getLsbD_opndByte (s : State) (i : Nat) : s.opndByte.getLsbD i = (decide (i < 8) && (s.opnd 0).getLsbD i) :=
  BitVec.getLsbD_setWidth ..

theorem parity8_eq_countP (b : Byte) : parity8 b = decide (((List.range 8).countP fun i => b.getLsbD i) % 2 = 1) := by
  rw [← toNat_parity8]
  cases parity8 b <;> rfl

/-- Settles O33: each value bit by bit, the parity by counting; the operand's low byte is all that is read. -/
theorem scalarCommandsReturnTheirByteFunctions : Obligations.ScalarCommandsReturnTheirByteFunctions := by
  intro s
  refine ⟨(reflectNibbles s.opndByte).setWidth 32, (reflect s.opndByte).setWidth 32, rfl, rfl, ?_, fun i _ => ?_, fun i _ => ?_⟩
  · have hcount : (List.range 8).countP (fun i => s.opndByte.getLsbD i) = (List.range 8).countP fun i => (s.opnd 0).getLsbD i :=
      List.countP_congr fun i hi => by rw [State.getLsbD_opndByte, decide_eq_true (List.mem_range.1 hi), Bool.true_and]
    have hvalue : exec .parity8 s = .next (s.complete (wordOfBool (parity8 s.opndByte)) 0) := rfl
    rw [hvalue, wordOfBool_eq_ite, parity8_eq_countP, hcount]
    simp only [decide_eq_true_eq]
    rfl
  · rw [BitVec.getLsbD_setWidth, getLsbD_reflect, State.getLsbD_opndByte]
    by_cases h8 : i < 8
    · simp [h8, show i < 32 by omega, show 7 - i < 8 by omega]
    · simp [h8]
  · by_cases h8 : i < 8
    · rw [BitVec.getLsbD_setWidth, getLsbD_reflectNibbles _ h8, decide_eq_true h8, decide_eq_true (show i < 32 by omega),
        Bool.true_and, Bool.true_and]
      split
      · rw [State.getLsbD_opndByte, decide_eq_true (by omega), Bool.true_and]
      · rw [State.getLsbD_opndByte, decide_eq_true (by omega), Bool.true_and]
    · rw [BitVec.getLsbD_setWidth, BitVec.getLsbD_of_ge _ i (by omega), decide_eq_false h8, Bool.and_false, Bool.false_and]

/-- Settles O34: `reflect` is an involution of every width; the rest is a table of the 256 bytes. -/
theorem reflectionsAreInvolutions : Obligations.ReflectionsAreInvolutions := by
  have htable : ∀ b : Byte, reflectNibbles (reflectNibbles b) = b ∧ reflect b = (reflectNibbles b).rotateLeft 4 ∧
      parity8 (reflect b) = parity8 b ∧ parity8 (reflectNibbles b) = parity8 b := by decide +kernel
  exact fun b => ⟨reflect_reflect b, htable b⟩

end Sys2Proof.Machine
end

section
/-! MANCH and DMANCH (spec/42_manchester.md R131 to R136): what a completed decode leaves, then O35, O37, O38 and O39. -/

namespace Sys2Proof.Machine

/-! ### Completed commands -/

/-- A command on a row that ended with ERR 0 had its effect. -/
theorem rowCommand_completed {r : Nat} {checks : State → List Check} {effect : State → State} {s t : State}
    (h : rowCommand r checks effect s = .next t) (herr : errOf t.status = 0) :
    s.rowReady r = true ∧ firstError (checks s) = none ∧ t = effect s := by
  obtain ⟨c, rfl⟩ | hdone := rowCommand_cases h
  · exact absurd ((errOf_statusError c s.status).symm.trans herr) c.code_ne_zero
  · exact hdone

/-! ### What both decoders leave (R131, R135) -/

section
variable (s : State) (lead decoded : List Bool)

theorem State.deliverDecoded_eq : s.deliverDecoded lead decoded =
    { s with mem := (s.deliverBits (lead ++ decoded)).mem, outbits := BitVec.ofNat 32 (lead.length + decoded.length)
             r0 := BitVec.ofNat 32 (2 * decoded.length), r1 := BitVec.ofNat 32 decoded.length
             status := statusCompleted s.status } := by
  rw [← List.length_append]
  rfl

theorem State.sameOutsideOut_deliverDecoded : sameOutsideOut s (s.deliverDecoded lead decoded) :=
  s.sameOutsideOut_deliverBits _

theorem State.outbits_deliverDecoded :
    (s.deliverDecoded lead decoded).outbits = BitVec.ofNat 32 (lead.length + decoded.length) :=
  congrArg State.outbits (s.deliverDecoded_eq lead decoded)

theorem State.toNat_outbits_deliverDecoded (h : lead.length + decoded.length ≤ 2048) :
    (s.deliverDecoded lead decoded).outbits.toNat = lead.length + decoded.length := by
  rw [State.outbits_deliverDecoded, BitVec.toNat_ofNat, Nat.mod_eq_of_lt (by omega)]

variable {s} in
theorem State.outBit_deliverDecoded (hwf : Memory.wf s.mem = true) {k : Nat} (hk : k < 8 * Config.outBytes) :
    (s.deliverDecoded lead decoded).outBit k = (lead ++ decoded).getD k false :=
  State.outBit_deliverBits hwf _ hk

end

/-- The zero of ZB counts one bit of the payload (R133). -/
theorem length_zbLead (zb : Bool) : (if zb then [false] else []).length = zb.toNat := by cases zb <;> rfl

/-- Bits before the decoded ones are 0. -/
theorem getD_zbLead_append (zb : Bool) (decoded : List Bool) {k : Nat} (h : k < zb.toNat) :
    ((if zb then [false] else []) ++ decoded).getD k false = false := by
  cases zb with
  | false => exact absurd h (Nat.not_lt_zero k)
  | true => rw [Nat.lt_one_iff.1 h]; rfl

theorem getD_lead_append (lead decoded : List Bool) (j : Nat) :
    (lead ++ decoded).getD (lead.length + j) false = decoded.getD j false := by
  rw [List.getD_append_right _ _ _ _ (Nat.le_add_right _ _), Nat.add_sub_cancel_left]

/-! ### MANCH -/

section
variable {row : Nat} {conv zb : Bool} {s t : State}

theorem exec_manch_completed (h : exec (.manch row conv zb) s = .next t) (herr : errOf t.status = 0) :
    s.rowReady row = true ∧ s.opndNat 0 ≤ s.rowLen row ∧
      t = s.deliverDecoded (if zb then [false] else []) (manchCells conv (s.opndNat 1) (s.rowTail row (s.opndNat 0))) := by
  obtain ⟨hr, hchecks, ht⟩ := rowCommand_completed (by rwa [exec_manch, execManch] at h) herr
  exact ⟨hr, le_of_rangeCheck hchecks, ht⟩

/-- The cells fit OUT, with a bit to spare for the zero of ZB. -/
theorem length_manchCells_le (hr : s.rowReady row = true) (max start : Nat) :
    (manchCells conv max (s.rowTail row start)).length ≤ 512 := by
  have hspec := (manchCells_spec conv max (s.rowTail row start)).2.1
  have hrow := (rowReady_iff.1 hr).2.2
  rw [State.length_rowTail] at hspec
  omega

end

/-- Settles O35: `manchCells_spec` over the bits of the row from the start on. -/
theorem manchDecodesTheLongestRunOfValidCells : Obligations.ManchDecodesTheLongestRunOfValidCells := by
  intro row conv zb s hinv hr hstart
  have hwf := State.wf_of_inv hinv
  obtain ⟨hmax, hlen, hcells, hstop⟩ := manchCells_spec conv (s.opndNat 1) (s.rowTail row (s.opndNat 0))
  have hfit := length_manchCells_le (conv := conv) hr (s.opndNat 1) (s.opndNat 0)
  have hzb := zb.toNat_le
  rw [State.length_rowTail] at hlen hstop
  have hbit : ∀ i, s.opndNat 0 + i < s.rowLen row →
      (s.rowTail row (s.opndNat 0)).getD i false = s.rowBit row (s.opndNat 0 + i) := fun i => s.getD_rowTail row _
  generalize hd : manchCells conv (s.opndNat 1) (s.rowTail row (s.opndNat 0)) = cells at *
  refine ⟨cells.length, (s.deliverBits ((if zb then [false] else []) ++ cells)).mem, ?_, s.sameOutsideOut_deliverBits _, hmax,
    by omega, fun j hj => ?_, ?_, fun j hj => ?_, fun k hk hout => ?_⟩
  · rw [exec_manch_of_ready conv zb hr hstart, hd, State.deliverDecoded_eq, length_zbLead]
  · have hvalid := (hcells j hj).1
    rwa [hbit _ (by omega), hbit _ (by omega), ← Nat.add_assoc] at hvalid
  · obtain hd | hend | hpair := hstop
    · exact .inl hd
    · exact .inr (.inl (by omega))
    · by_cases hrow : s.rowLen row < s.opndNat 0 + 2 * cells.length + 2
      · exact .inr (.inl hrow)
      · rw [hbit _ (by omega), hbit _ (by omega), ← Nat.add_assoc] at hpair
        exact .inr (.inr hpair)
  · have hdecoded := (hcells j hj).2
    rw [hbit _ (by omega), ← Nat.add_assoc] at hdecoded
    rw [← hdecoded, ← length_zbLead, ← getD_lead_append (if zb then [false] else [])]
    exact State.outBit_deliverBits hwf _ (by rw [length_zbLead]; simp only [Config.outBytes]; omega)
  · refine (State.outBit_deliverBits hwf _ hk).trans ?_
    obtain hlead | hafter := hout
    · exact getD_zbLead_append zb cells hlead
    · exact List.getD_eq_default _ _ (by rwa [List.length_append, length_zbLead])

theorem getD_map_not {bits : List Bool} {k : Nat} (h : k < bits.length) :
    (bits.map (!·)).getD k false = !bits.getD k false := by
  simp [h]

/-- The counts a decode leaves depend on the number of decoded bits only. -/
theorem counts_deliverDecoded (s s' : State) {decoded decoded' : List Bool} (h : decoded'.length = decoded.length) :
    (s'.deliverDecoded [] decoded').r0 = (s.deliverDecoded [] decoded).r0 ∧
    (s'.deliverDecoded [] decoded').r1 = (s.deliverDecoded [] decoded).r1 ∧
    (s'.deliverDecoded [] decoded').outbits = (s.deliverDecoded [] decoded).outbits := by
  simp only [State.deliverDecoded_eq, h, and_self]

theorem toNat_outbits_deliverDecoded_nil (s : State) {decoded : List Bool} (h : decoded.length ≤ 512) :
    (s.deliverDecoded [] decoded).outbits.toNat = decoded.length := by
  rw [State.toNat_outbits_deliverDecoded _ _ _ (by rw [List.length_nil]; omega), List.length_nil, Nat.zero_add]

/-- Decodes of complementary bits leave complementary payloads. -/
theorem outBit_deliverDecoded_not {s s' : State} (hwf : Memory.wf s.mem = true) (hwf' : Memory.wf s'.mem = true)
    {decoded : List Bool} (hfit : decoded.length ≤ 512) {k : Nat} (hk : k < (s.deliverDecoded [] decoded).outbits.toNat) :
    (s'.deliverDecoded [] (decoded.map (!·))).outBit k = !(s.deliverDecoded [] decoded).outBit k := by
  rw [toNat_outbits_deliverDecoded_nil s hfit] at hk
  have hout : k < 8 * Config.outBytes := by simp only [Config.outBytes]; omega
  rw [State.outBit_deliverDecoded _ _ hwf' hout, State.outBit_deliverDecoded _ _ hwf hout, List.nil_append, List.nil_append,
    getD_map_not hk]

/-- Settles O37: the other convention complements the decoded list, and ZB puts one 0 before it. -/
theorem manchModifiersShiftAndComplement : Obligations.ManchModifiersShiftAndComplement := by
  intro row conv s t hinv h herr
  have hwf := State.wf_of_inv hinv
  obtain ⟨hr, hstart, ht⟩ := exec_manch_completed h herr
  have hu := exec_manch_of_ready (!conv) false hr hstart
  have hv := exec_manch_of_ready conv true hr hstart
  have hfit := length_manchCells_le (conv := conv) hr (s.opndNat 1) (s.opndNat 0)
  rw [manchCells_not] at hu
  generalize manchCells conv (s.opndNat 1) (s.rowTail row (s.opndNat 0)) = cells at *
  obtain rfl : t = s.deliverDecoded [] cells := ht
  obtain ⟨hr0, hr1, hout⟩ := counts_deliverDecoded s s (List.length_map (as := cells) (!·))
  refine ⟨s.deliverDecoded [] (cells.map (!·)), s.deliverDecoded [false] cells, hu, hv, hr0, hr1, hout,
    fun k hk => outBit_deliverDecoded_not hwf hwf hfit hk, rfl, rfl, ?_,
    State.outBit_deliverDecoded _ _ hwf (by decide), fun k hk => ?_⟩
  · rw [toNat_outbits_deliverDecoded_nil s hfit, State.toNat_outbits_deliverDecoded _ _ _
      (by rw [List.length_singleton]; omega), List.length_singleton, Nat.add_comm]
  · rw [toNat_outbits_deliverDecoded_nil s hfit] at hk
    have hk' : k + 1 < 8 * Config.outBytes := by simp only [Config.outBytes]; omega
    rw [State.outBit_deliverDecoded _ _ hwf hk', State.outBit_deliverDecoded _ _ hwf (Nat.lt_of_succ_lt hk')]
    rfl

/-! ### DMANCH -/

theorem exec_dmanch (row : Nat) (s : State) : exec (.dmanch row) s = execDmanch row s := rfl

section
variable {row : Nat} {s t : State}

/-- The checks of DMANCH pass: it delivers the decoded cells of the row from the start on (R135). -/
theorem exec_dmanch_of_ready (hr : s.rowReady row = true) (hstart : s.opndNat 0 ≤ s.rowLen row) :
    exec (.dmanch row) s =
      .next (s.deliverDecoded [] (dmanchCells (s.opndNat 1) none (s.rowTail row (s.opndNat 0)))) := by
  rw [exec_dmanch, execDmanch, rowCommand_of_ready hr]
  exact firstError_eq_none.2 (by simpa using hstart)

theorem exec_dmanch_completed (h : exec (.dmanch row) s = .next t) (herr : errOf t.status = 0) :
    s.rowReady row = true ∧ s.opndNat 0 ≤ s.rowLen row ∧
      t = s.deliverDecoded [] (dmanchCells (s.opndNat 1) none (s.rowTail row (s.opndNat 0))) := by
  obtain ⟨hr, hchecks, ht⟩ := rowCommand_completed (by rwa [exec_dmanch, execDmanch] at h) herr
  exact ⟨hr, le_of_rangeCheck hchecks, ht⟩

end

/-- Settles O38: `dmanchCells_spec` over the bits of the row from the start on, with no level before the first cell. -/
theorem dmanchDecodesUntilAClockEdgeIsMissing : Obligations.DmanchDecodesUntilAClockEdgeIsMissing := by
  intro row s hinv hr hstart
  have hwf := State.wf_of_inv hinv
  obtain ⟨hmax, hlen, hcells, hedges, -, hstop⟩ := dmanchCells_spec (s.opndNat 1) none (s.rowTail row (s.opndNat 0))
  have hrow := (rowReady_iff.1 hr).2.2
  rw [State.length_rowTail] at hlen hstop
  have hbit : ∀ i, s.opndNat 0 + i < s.rowLen row →
      (s.rowTail row (s.opndNat 0)).getD i false = s.rowBit row (s.opndNat 0 + i) := fun i => s.getD_rowTail row _
  generalize hd : dmanchCells (s.opndNat 1) none (s.rowTail row (s.opndNat 0)) = cells at *
  refine ⟨cells.length, (s.deliverBits ([] ++ cells)).mem, ?_, s.sameOutsideOut_deliverBits _, hmax, by omega,
    fun j hj => ?_, ?_, fun j hj => ?_, fun k hk hout => ?_⟩
  · rw [exec_dmanch_of_ready hr hstart, hd, State.deliverDecoded_eq, List.length_nil, Nat.zero_add]
  · have hedge := hedges j hj
    rwa [hbit _ (by omega), hbit _ (by omega), ← Nat.add_assoc, ← Nat.add_assoc] at hedge
  · obtain hd | hend | hlevel := hstop
    · exact .inl hd
    · exact .inr (.inl (by omega))
    · by_cases hend : s.rowLen row < s.opndNat 0 + 2 * cells.length + 2
      · exact .inr (.inl hend)
      · split at hlevel
        · cases hlevel
        · next hne =>
          rw [hbit _ (by omega), hbit _ (by omega), ← Nat.add_sub_assoc (by omega)] at hlevel
          exact .inr (.inr ⟨hne, Option.some.inj hlevel⟩)
  · have hdecoded := hcells j hj
    rw [hbit _ (by omega), hbit _ (by omega), ← Nat.add_assoc] at hdecoded
    rw [← hdecoded]
    exact State.outBit_deliverBits hwf _ (by simp only [Config.outBytes]; omega)
  · exact (State.outBit_deliverBits hwf _ hk).trans (List.getD_eq_default _ _ hout)

/-! ### Decoding after INVERT -/

section
variable {row : Nat} {s s' : State} (hwf : Memory.wf s.mem = true) (hready : s.allRowsReady = true)
  (hr : s.rowReady row = true) (hs' : s' = (s.invertRows s.nrows.toNat).complete 0 0)
include hr hs'

/-- INVERT writes no register that a decode reads. -/
theorem inverted_operands : s'.rowReady row = true ∧ s'.opndNat 0 = s.opndNat 0 ∧ s'.opndNat 1 = s.opndNat 1 ∧
    s'.rowLen row = s.rowLen row := by
  have hc : Completes s s' := hs' ▸ Completes.invertRows_complete s _
  have hlen := State.rowLen_congr hc.bits row
  refine ⟨?_, ?_, ?_, hlen⟩
  · rw [rowReady_iff] at hr ⊢
    rwa [hc.nrows, hlen]
  · rw [State.opndNat, State.opnd, hc.a]; rfl
  · rw [State.opndNat, State.opnd, hc.a]; rfl

include hwf hready in
/-- After INVERT every valid bit of a valid row is complemented, so the run a decode reads is. -/
theorem rowTail_inverted (start : Nat) : s'.rowTail row start = (s.rowTail row start).map (!·) := by
  obtain ⟨-, -, -, hlen⟩ := inverted_operands hr hs'
  obtain ⟨-, hrow, -⟩ := rowReady_iff.1 hr
  rw [State.rowTail, State.rowTail, hlen, State.rowRun, State.rowRun, List.map_map]
  refine List.map_congr_left fun i hi => ?_
  have hi' := List.mem_range.1 hi
  rw [hs', State.rowBit_complete, State.rowBit_invertRows hwf _ (allRowsReady_iff.1 hready).2]
  simp [hrow, show start + i < s.rowLen row by omega]

end

/-- Settles O39: the decoders see the complemented run; `manchCells_map_not` and `dmanchCells_map_not` say what they make of it. -/
theorem inversionBeforeAManchesterDecode : Obligations.InversionBeforeAManchesterDecode := by
  intro row conv s s' t t' hinv hready hs
  have hs' := exec_invert_next hready hs
  have hwf := State.wf_of_inv hinv
  have hwf' : Memory.wf s'.mem = true := hs' ▸ State.wf_invertRows hwf _
  refine ⟨fun h h' herr => ?_, fun h h' herr => ?_⟩
  · obtain ⟨hr, hstart, rfl⟩ := exec_dmanch_completed h herr
    obtain ⟨hr', hop0, hop1, hlen⟩ := inverted_operands hr hs'
    have hcells := dmanchCells_map_not (s.opndNat 1) none (s.rowTail row (s.opndNat 0))
    rw [exec_dmanch_of_ready hr' (by omega), hop0, hop1, rowTail_inverted hwf hready hr hs', ← Option.map_none, hcells] at h'
    obtain rfl := Host.Outcome.next.inj h'
    refine ⟨rfl, rfl, rfl, fun i hi => byte_ext fun j hj => ?_⟩
    rw [State.bitAt_bufByte_out _ _ hj, State.bitAt_bufByte_out _ _ hj]
    have hk : 8 * i + j < 8 * Config.outBytes := by omega
    rw [State.outBit_deliverDecoded _ _ hwf' hk, State.outBit_deliverDecoded _ _ hwf hk]
  · obtain ⟨hr, hstart, ht⟩ := exec_manch_completed h herr
    obtain ⟨hr', hop0, hop1, hlen⟩ := inverted_operands hr hs'
    have hfit := length_manchCells_le (conv := conv) hr (s.opndNat 1) (s.opndNat 0)
    rw [exec_manch_of_ready conv false hr' (by omega), hop0, hop1, rowTail_inverted hwf hready hr hs', manchCells_map_not] at h'
    generalize manchCells conv (s.opndNat 1) (s.rowTail row (s.opndNat 0)) = cells at *
    obtain rfl : t = s.deliverDecoded [] cells := ht
    obtain rfl : s'.deliverDecoded [] (cells.map (!·)) = t' := Host.Outcome.next.inj h'
    obtain ⟨hr0, hr1, hout⟩ := counts_deliverDecoded s s' (List.length_map (as := cells) (!·))
    exact ⟨hr0, hr1, hout, fun k hk => outBit_deliverDecoded_not hwf hwf' hfit hk⟩

end Sys2Proof.Machine
end

section
/-! UART8N1 on the scenario of R152, and SYMBOLS (spec/43_framing_decoders.md R150 to R159): O43, O44 and O45. -/

namespace Sys2Proof.Machine

/-! ### The bits of a row and the bytes of a message -/

theorem State.rowRun_eight (s : State) (r i : Nat) : s.rowRun r (8 * i) 8 = msbFirst (s.bufByte (.row r) i) := by
  have hbit : ∀ j, j < 8 → s.rowBit r (8 * i + j) = (s.bufByte (.row r) i).getLsbD (7 - j) := fun j hj => by
    rw [← State.bitAt_bufByte_row _ _ _ hj, bitAt_lt _ hj]
  exact List.map_congr_left (l := List.range 8) fun j hj => hbit j (List.mem_range.1 hj)

theorem State.message_succ (s : State) (src : Source) (off n : Nat) :
    s.message src off (n + 1) = s.message src off n ++ [s.bufByte src (off + n)] := by
  rw [State.message, List.range_succ, List.map_append]
  rfl

/-- The first bits of a row are the bits of its first bytes, most significant first (R9). -/
theorem State.rowRun_eq_flatMap_message (s : State) (r n : Nat) :
    s.rowRun r 0 (8 * n) = (s.message (.row r) 0 n).flatMap msbFirst := by
  induction n with
  | zero => rfl
  | succ n ih =>
    rw [Nat.mul_succ, State.rowRun_add, ih, State.message_succ, List.flatMap_append, Nat.zero_add, State.rowRun_eight,
      Nat.zero_add, List.flatMap_singleton]

/-- After a payload of bytes, a message from the front of OUT is read from the payload. -/
theorem State.message_deliverBytes {s : State} (hwf : Memory.wf s.mem = true) (bytes : List Byte) {n : Nat}
    (h : n ≤ Config.outBytes) : (s.deliverBytes bytes).message .out 0 n = (List.range n).map fun i => bytes.getD i 0 :=
  List.map_congr_left fun i hi => by
    rw [Nat.zero_add, State.bufByte_deliverBytes hwf bytes (Nat.lt_of_lt_of_le (List.mem_range.1 hi) h)]

/-- The scenario of R152: the fourth frame's stop bit is bad. -/
theorem unframe_scenario :
    unframe 10 frame8n1 4 (([0x24, 0x45, 0x93, 0x54, 0x3C] : List Byte).flatMap msbFirst) = [0x12, 0x34, 0x56] := by
  decide +kernel

/-- Settles O43: the row's first 40 bits are the scenario's five bytes, and the frame decoder runs on those. -/
theorem uartPartialDecodeScenario : Obligations.UartPartialDecodeScenario := by
  intro row s hinv hr hlen hmsg hstart hcount
  have hexec := framed_of_ready (width := 10) (frame := frame8n1) hr (by omega)
  have hitems : unframe 10 frame8n1 (s.opndNat 1 / 10) (s.rowRun row (s.opndNat 0) (s.opndNat 1)) = [0x12, 0x34, 0x56] := by
    rw [hstart, hcount, s.rowRun_eq_flatMap_message row 5, hmsg]
    exact unframe_scenario
  rw [hitems, ← exec_uart8n1] at hexec
  refine ⟨_, hexec, rfl, rfl, errOf_statusCompleted _, ?_⟩
  rw [State.message_complete, State.message_deliverBytes (State.wf_of_inv hinv) _ (by decide)]
  rfl

/-! ### SYMBOLS -/

theorem exec_symbols (row : Nat) (s : State) : exec (.symbols row) s = execSymbols row s := rfl

section
variable {row : Nat} {s : State} (hr : s.rowReady row = true) (hzero : symLen (s.opnd 2) ≤ 27) (hone : symLen (s.opnd 3) ≤ 27)
  (hsync : symLen (s.opnd 4) ≤ 27) (hfit : s.opndNat 0 + s.opndNat 1 ≤ s.rowLen row)
include hr hzero hone hsync hfit

/-- The checks of SYMBOLS pass: the decoded bits go to OUT (R159). -/
theorem exec_symbols_of_ready :
    let data := symbolData (s.opnd 2) (s.opnd 3) (s.opnd 4) (s.opndNat 1) false (s.rowRun row (s.opndNat 0) (s.opndNat 1))
    exec (.symbols row) s = .next ((s.deliverBits data).complete (BitVec.ofNat 32 data.length) 0) := by
  rw [exec_symbols, execSymbols, rowCommand_of_ready hr]
  exact firstError_eq_none.2 (by simp [hzero, hone, hsync, hfit])

/-- SYMBOLS with the whole next state. -/
theorem exec_symbols_reads (hinv : s.inv = true) :
    ∃ data m, let t := { s with mem := m, outbits := BitVec.ofNat 32 data.length, r0 := BitVec.ofNat 32 data.length, r1 := 0,
                                status := statusCompleted s.status }
      exec (.symbols row) s = .next t ∧ sameOutsideOut s t ∧ data.length ≤ s.opndNat 1 ∧
      SymbolReading (s.opnd 2) (s.opnd 3) (s.opnd 4) false (s.rowRun row (s.opndNat 0) (s.opndNat 1)) data ∧
      ∀ k, k < 8 * Config.outBytes → t.outBit k = data.getD k false :=
  ⟨_, _, exec_symbols_of_ready hr hzero hone hsync hfit, s.sameOutsideOut_deliverBits _,
    length_symbolData_le _ _ _ _ _ _, symbolData_reads _ _ _ _ _ _ (by rw [State.length_rowRun]),
    fun _ => State.outBit_deliverBits (State.wf_of_inv hinv) _⟩

end

/-- Settles O44: the machine's loop is a reading, and a run of bits has one reading. -/
theorem symbolsReadsTheRunAsTheRuleSays : Obligations.SymbolsReadsTheRunAsTheRuleSays := by
  intro row s hinv hr hzero hone hsync hfit
  obtain ⟨data, m, hexec, hframe, hlen, hreads, hbits⟩ := exec_symbols_reads hr hzero hone hsync hfit hinv
  exact ⟨data, m, hexec, hframe, hlen, hreads, fun _ => SymbolReading_unique hreads, hbits⟩

/-! ### Reading back the symbols of some data (R159 corner cases (a), (b)) -/

/-- Neither symbol's pattern begins with the other's. -/
def Incomparable (x y : Word) : Prop := ¬ symBits x <+: symBits y ∧ ¬ symBits y <+: symBits x

theorem Incomparable.symm {x y : Word} (h : Incomparable x y) : Incomparable y x := And.symm h

theorem stands_append {x : Word} (h : 1 ≤ symLen x) (rest : List Bool) : stands x (symBits x ++ rest) = true :=
  stands_iff.2 ⟨Nat.one_le_iff_ne_zero.1 h, List.prefix_append _ _⟩

/-- Where one symbol stands, no incomparable one does: two patterns at the front of the same bits are comparable. -/
theorem not_stands_append {x y : Word} (h : Incomparable x y) (rest : List Bool) : stands y (symBits x ++ rest) = false := by
  refine Bool.eq_false_iff.2 fun hy => ?_
  obtain hyx | hxy := List.prefix_or_prefix_of_prefix (stands_iff.1 hy).2 (List.prefix_append (symBits x) rest)
  · exact h.2 hyx
  · exact h.1 hxy

theorem drop_symLen_append (x : Word) (rest : List Bool) : (symBits x ++ rest).drop (symLen x) = rest :=
  List.drop_left' (length_symBits x)

/-- The symbols of some data, one after the other. -/
def symbolsOf (zero one : Word) (data : List Bool) : List Bool :=
  data.flatMap fun b => if b then symBits one else symBits zero

section
variable {zero one sync : Word} (hz : 1 ≤ symLen zero) (ho : 1 ≤ symLen one) (hs : 1 ≤ symLen sync)
  (hzo : Incomparable zero one) (hzs : Incomparable zero sync) (hos : Incomparable one sync) (tail : List Bool)
include hz ho hzo

/-- One symbol of data, whether or not data came before. -/
theorem SymbolReading.cons_of_stands (started b : Bool) {rest data : List Bool} (h : SymbolReading zero one sync true rest data) :
    SymbolReading zero one sync started ((if b then symBits one else symBits zero) ++ rest) (b :: data) := by
  cases b with
  | false =>
    rw [if_neg Bool.false_ne_true]
    exact .zero (stands_append hz _) (by rwa [drop_symLen_append])
  | true =>
    rw [if_pos rfl]
    exact .one (not_stands_append hzo.symm _) (stands_append ho _) (by rwa [drop_symLen_append])

include hs hzs hos

/-- Data after data: the sync at the end stops the reading. -/
theorem SymbolReading.symbolsOf_started (data : List Bool) :
    SymbolReading zero one sync true (symbolsOf zero one data ++ (symBits sync ++ tail)) data := by
  induction data with
  | nil => exact .finish (not_stands_append hzs.symm _) (not_stands_append hos.symm _) (stands_append hs _)
  | cons b data ih =>
    rw [symbolsOf, List.flatMap_cons, List.append_assoc]
    exact .cons_of_stands hz ho hzo true b ih

/-- Leading syncs are skipped, then the data is read. -/
theorem SymbolReading.syncs_symbolsOf (syncs : Nat) {data : List Bool} (hdata : data ≠ []) :
    SymbolReading zero one sync false
      ((List.replicate syncs (symBits sync)).flatten ++ (symbolsOf zero one data ++ (symBits sync ++ tail))) data := by
  induction syncs with
  | zero =>
    obtain ⟨b, data, rfl⟩ := List.exists_cons_of_ne_nil hdata
    rw [symbolsOf, List.flatMap_cons, List.append_assoc]
    exact .cons_of_stands hz ho hzo false b (.symbolsOf_started hz ho hs hzo hzs hos tail data)
  | succ syncs ih =>
    rw [List.replicate_succ, List.flatten_cons, List.append_assoc]
    exact .skip (not_stands_append hzs.symm _) (not_stands_append hos.symm _) (stands_append hs _) (by rwa [drop_symLen_append])

end

/-- Settles O45: the sent data is a reading of the run, so it is the one that SYMBOLS delivers. -/
theorem symbolsRoundTrip : Obligations.SymbolsRoundTrip := by
  intro row s syncs data tail hinv hr hfit hlens hfree hdata hrun
  obtain ⟨⟨hz, hz'⟩, ⟨ho, ho'⟩, ⟨hs, hs'⟩⟩ : (1 ≤ symLen (s.opnd 2) ∧ symLen (s.opnd 2) ≤ 27) ∧
      (1 ≤ symLen (s.opnd 3) ∧ symLen (s.opnd 3) ≤ 27) ∧ 1 ≤ symLen (s.opnd 4) ∧ symLen (s.opnd 4) ≤ 27 := by
    simpa using hlens
  obtain ⟨⟨hzo, hzs⟩, hos⟩ : (Incomparable (s.opnd 2) (s.opnd 3) ∧ Incomparable (s.opnd 2) (s.opnd 4)) ∧
      Incomparable (s.opnd 3) (s.opnd 4) := by
    simpa [Incomparable] using hfree
  obtain ⟨read, m, hexec, -, hlen, hreads, hbits⟩ := exec_symbols_reads hr hz' ho' hs' hfit hinv
  have hsent := SymbolReading.syncs_symbolsOf hz ho hs hzo hzs hos tail syncs hdata
  rw [hrun, List.append_assoc, List.append_assoc] at hreads
  obtain rfl : data = read := SymbolReading_unique hreads hsent
  have hbound := (rowReady_iff.1 hr).2.2
  have hcount : (BitVec.ofNat 32 data.length).toNat = data.length := by
    rw [BitVec.toNat_ofNat, Nat.mod_eq_of_lt (by omega)]
  exact ⟨_, hexec, hcount, hcount, hbits⟩

end Sys2Proof.Machine
end

section
/-! WHITEN (spec/44_whitening.md R180 to R183): the mask by the sequence of the generator, then O46, O47 and O48. -/

namespace Sys2Proof.Machine

/-! ### The mask -/

theorem lfsrStep8_eq_iterate : lfsrStep8 = lfsrStep^[8] := rfl

section
variable {a : Nat → Bool} (hseed : ∀ k, k < 9 → a k = true) (hrec : ∀ k, a (k + 9) = (a k ^^ a (k + 5)))
include hseed hrec

/-- After k steps from all ones the generator holds the nine bits of the sequence from bit k on (R181). -/
theorem getLsbD_lfsrStep_iterate (k : Nat) : ∀ i, i < 9 → (lfsrStep^[k] 0x1FF).getLsbD i = a (k + i) := by
  induction k with
  | zero =>
    intro i hi
    rw [Nat.zero_add, hseed i hi]
    interval_cases i <;> rfl
  | succ k ih =>
    rw [Function.iterate_succ_apply']
    exact lfsrStep_window hrec ih

/-- Mask byte j takes bits 8 * j .. 8 * j + 7 of the sequence, in the order REFL says (R181, R75). -/
theorem getLsbD_maskByte (refl : Bool) (j : Nat) {i : Nat} (hi : i < 8) :
    (maskByte (lfsrStep8^[j] 0x1FF) refl).getLsbD i = a (8 * j + if refl then 7 - i else i) := by
  have hbits : ∀ i, i < 8 → ((lfsrStep8^[j] 0x1FF).setWidth 8).getLsbD i = a (8 * j + i) := fun i hi => by
    rw [BitVec.getLsbD_setWidth, decide_eq_true hi, Bool.true_and, lfsrStep8_eq_iterate, ← Function.iterate_mul]
    exact getLsbD_lfsrStep_iterate hseed hrec (8 * j) i (by omega)
  cases refl with
  | false => exact hbits i hi
  | true =>
    rw [maskByte, if_pos rfl, getLsbD_reflect, decide_eq_true hi, Bool.true_and, hbits _ (by omega)]
    rfl

end

theorem getD_whitenMask (refl : Bool) {n j : Nat} (h : j < n) :
    (whitenMask refl n).getD j 0 = maskByte (lfsrStep8^[j] 0x1FF) refl := by
  rw [List.getD_eq_getElem?_getD, whitenMask, getElem?_maskFrom refl _ h]
  rfl

/-- The generator has the full period of a 9-bit register. -/
theorem lfsrStep_iterate_period : lfsrStep^[511] (0x1FF : BitVec 9) = 0x1FF := by decide +kernel

/-- After 511 bytes the generator has run through its period eight times (R180 corner case (e)). -/
theorem lfsrStep8_iterate_period : lfsrStep8^[511] (0x1FF : BitVec 9) = 0x1FF := by
  rw [lfsrStep8_eq_iterate, ← Function.iterate_mul, Nat.mul_comm, Function.iterate_mul]
  exact Function.iterate_fixed lfsrStep_iterate_period 8

/-- Settles O48: two tables, and the period of the generator's state. -/
theorem whiteningMaskTableAndPeriod : Obligations.WhiteningMaskTableAndPeriod := by
  refine ⟨by decide +kernel, by decide +kernel, fun refl n j h => ?_⟩
  rw [whitenMask, getElem?_maskFrom refl _ h, getElem?_maskFrom refl _ (by omega), Function.iterate_add_apply,
    lfsrStep8_iterate_period]

/-! ### Runs stored in place -/

theorem getD_zipWith_xor {xs ys : List Byte} {j : Nat} (hx : j < xs.length) (hy : j < ys.length) :
    (List.zipWith (· ^^^ ·) xs ys).getD j 0 = xs.getD j 0 ^^^ ys.getD j 0 := by
  simp [hx, hy]

/-- The same mask a second time gives the message back. -/
theorem zipWith_xor_twice {xs ys : List Byte} (h : xs.length = ys.length) :
    List.zipWith (· ^^^ ·) (List.zipWith (· ^^^ ·) xs ys) ys = xs := by
  induction xs generalizing ys with
  | nil => rfl
  | cons x xs ih =>
    obtain ⟨y, ys, rfl⟩ := List.exists_cons_of_length_eq_add_one h.symm
    rw [List.zipWith_cons_cons, List.zipWith_cons_cons, ih (by simpa using h), BitVec.xor_assoc, BitVec.xor_self, BitVec.xor_zero]

section
variable {s : State} (hwf : Memory.wf s.mem = true) {src : Source} {off : Nat}
include hwf

/-- A run just stored is the message read back from its place. -/
theorem State.message_storeRun {bs : List Byte} (h : off + bs.length ≤ src.capacity) :
    (s.storeRun src off bs).message src off bs.length = bs := by
  refine List.ext_getElem (State.length_message ..) fun j hj hj' => ?_
  rw [← List.getD_eq_getElem _ 0 hj, State.getD_message _ _ _ hj', State.bufByte_storeRun hwf _ _ _ h,
    if_pos ⟨by omega, by omega⟩, Nat.add_sub_cancel_left, List.getD_eq_getElem _ 0 hj']

/-- Storing the message of a run over whatever was stored there restores every byte. -/
theorem State.mem_storeRun_message {bs : List Byte} (h : off + bs.length ≤ src.capacity) :
    ((s.storeRun src off bs).storeRun src off (s.message src off bs.length)).mem = s.mem := by
  have hwf' : Memory.wf (s.storeRun src off bs).mem = true := Memory.wf_writeBytes hwf _ _
  have hlen := s.length_message src off bs.length
  refine Memory.eq_of_read_eq (Memory.wf_writeBytes hwf' _ _) hwf fun k => ?_
  rw [State.read_storeRun hwf' _ _ _ (by rwa [hlen]), State.read_storeRun hwf _ _ _ h, hlen]
  split
  · next hk =>
    rw [State.getD_message _ _ _ (by omega), State.bufByte, if_pos (by omega)]
    congr 1
    omega
  · rfl

end

/-! ### WHITEN -/

/-- The WHITEN command of a source buffer (R72). -/
def whitenOf (src : Source) (refl : Bool) : Instr :=
  match src with
  | .row r => .whiten r refl
  | .out => .whitenOut refl

theorem exec_whitenOf (src : Source) (refl : Bool) (s : State) : exec (whitenOf src refl) s = whitened src refl s := by
  cases src <;> rfl

/-- What WHITEN stores. -/
def State.whitenedRun (s : State) (src : Source) (refl : Bool) : List Byte :=
  List.zipWith (· ^^^ ·) (s.message src (s.opndNat 0) (s.opndNat 1)) (whitenMask refl (s.opndNat 1))

theorem State.length_whitenedRun (s : State) (src : Source) (refl : Bool) : (s.whitenedRun src refl).length = s.opndNat 1 := by
  rw [State.whitenedRun, List.length_zipWith, State.length_message, length_whitenMask, Nat.min_self]

section
variable {src : Source} (refl : Bool) {s : State} (hr : s.sourceReady src = true) (hfit : s.runFits src = true)
include hr hfit

theorem whitenedRun_le_capacity (hinv : s.inv = true) : s.opndNat 0 + (s.whitenedRun src refl).length ≤ src.capacity := by
  obtain ⟨-, -, hout, -⟩ := (State.inv_iff s).1 hinv
  rw [State.length_whitenedRun]
  exact run_le_capacity hout hr hfit

/-- WHITEN on a ready source whose run fits, by the run it stores. -/
theorem exec_whitenOf_of_fits :
    exec (whitenOf src refl) s = .next ((s.storeRun src (s.opndNat 0) (s.whitenedRun src refl)).complete 0 0) :=
  (exec_whitenOf src refl s).trans (whitened_of_fits hr hfit)

end

/-- Settles O46: the stored run byte by byte, and the mask bytes by the sequence. -/
theorem whitenXorsTheLfsrSequence : Obligations.WhitenXorsTheLfsrSequence := by
  intro a hseed hrec src refl s hinv hr hfit
  have hwf := State.wf_of_inv hinv
  have hlen := s.length_whitenedRun src refl
  have hcap := whitenedRun_le_capacity refl hr hfit hinv
  refine ⟨_, exec_whitenOf_of_fits refl hr hfit, fun j i hj hi => ?_, fun off hoff => ?_⟩
  · have hbyte : (s.storeRun src (s.opndNat 0) (s.whitenedRun src refl)).bufByte src (s.opndNat 0 + j) =
        s.bufByte src (s.opndNat 0 + j) ^^^ maskByte (lfsrStep8^[j] 0x1FF) refl := by
      rw [State.bufByte_storeRun hwf _ _ _ hcap, if_pos ⟨by omega, by omega⟩, Nat.add_sub_cancel_left, State.whitenedRun,
        getD_zipWith_xor (by rwa [State.length_message]) (by rwa [length_whitenMask]), State.getD_message _ _ _ hj,
        getD_whitenMask refl hj]
    exact (congrArg (BitVec.getLsbD · i) hbyte).trans (by rw [BitVec.getLsbD_xor, getLsbD_maskByte hseed hrec refl j hi])
  · rw [State.read_storeRun hwf _ _ _ hcap, hlen, if_neg]
    have := inRun_eq_false.1 hoff
    omega

/-- What the same WHITEN stores a second time: the message of before the first. -/
theorem State.whitenedRun_again {src : Source} (refl : Bool) {s : State} (hwf : Memory.wf s.mem = true)
    (hcap : s.opndNat 0 + (s.whitenedRun src refl).length ≤ src.capacity) :
    ((s.storeRun src (s.opndNat 0) (s.whitenedRun src refl)).complete 0 0).whitenedRun src refl =
      s.message src (s.opndNat 0) (s.opndNat 1) := by
  have hmsg := State.message_storeRun hwf hcap
  rw [State.length_whitenedRun] at hmsg
  refine (congrArg (fun msg => List.zipWith (· ^^^ ·) msg (whitenMask refl (s.opndNat 1))) hmsg).trans ?_
  exact zipWith_xor_twice (by rw [State.length_message, length_whitenMask])

/-- The checks of a byte-addressed command read what no in-place command writes. -/
theorem checks_congr {s t : State} (hc : Completes s t) (hout : t.outbits = s.outbits) (src : Source) :
    t.sourceReady src = s.sourceReady src ∧ t.runFits src = s.runFits src := by
  have hop : ∀ i, t.opndNat i = s.opndNat i := fun i => by rw [State.opndNat, State.opnd, hc.a]; rfl
  cases src with
  | row r =>
    have hlen := State.rowLen_congr hc.bits r
    refine ⟨?_, ?_⟩
    · rw [State.sourceReady, State.sourceReady, Bool.eq_iff_iff, rowReady_iff, rowReady_iff, hc.nrows, hlen]
    · rw [State.runFits, State.runFits, hop, hop, State.extent, State.extent, hlen]
  | out => exact ⟨rfl, by rw [State.runFits, State.runFits, hop, hop, State.extent, State.extent, hout]⟩

/-- Settles O47: the second WHITEN reads the first one's run, and the same mask gives the message back. -/
theorem whitenTwiceRestoresTheBytes : Obligations.WhitenTwiceRestoresTheBytes := by
  intro src refl s t hinv hr hfit i h
  have hwf := State.wf_of_inv hinv
  have hcap := whitenedRun_le_capacity refl hr hfit hinv
  obtain rfl := Host.Outcome.next.inj ((exec_whitenOf_of_fits refl hr hfit).symm.trans h)
  obtain ⟨hr', hfit'⟩ := checks_congr (Completes.storeRun_complete s src (s.opndNat 0) (s.whitenedRun src refl) 0 0) rfl src
  refine ⟨_, exec_whitenOf_of_fits refl (hr'.trans hr) (hfit'.trans hfit), ?_⟩
  have hrestore := State.mem_storeRun_message hwf hcap
  rw [State.length_whitenedRun] at hrestore
  rw [State.complete_mem, State.whitenedRun_again refl hwf hcap, State.opndNat_complete, State.opndNat_storeRun]
  exact hrestore

end Sys2Proof.Machine
end

section
/-! The CRC generator (spec/45_crc.md R190 to R200): O49, O50, O51 and O53. -/

namespace Sys2Proof.Machine

/-! ### Commands of the Checksum group, by their source -/

/-- The command of a source buffer: one constructor for a row, one for OUT (R72). -/
def Instr.ofSource (src : Source) (onRow : Nat → Instr) (onOut : Instr) : Instr :=
  match src with
  | .row r => onRow r
  | .out => onOut

/-- A Checksum command on a ready source whose run fits returns its value and changes nothing else (R192). -/
theorem exec_ofSource_of_fits {src : Source} {s : State} (hr : s.sourceReady src = true) (hfit : s.runFits src = true)
    (value : State → List Byte → Word) (onRow : Nat → Instr) (onOut : Instr)
    (hrow : ∀ r, exec (onRow r) s = checksum (.row r) value s) (hout : exec onOut s = checksum .out value s) :
    exec (Instr.ofSource src onRow onOut) s =
      .next { s with r0 := value s (s.message src (s.opndNat 0) (s.opndNat 1)), r1 := 0, status := statusCompleted s.status } := by
  have he : exec (Instr.ofSource src onRow onOut) s = checksum src value s := by
    cases src with
    | row r => exact hrow r
    | out => exact hout
  exact he.trans (checksum_of_fits hr hfit)

/-- Settles O49: each of the five is a checksum of its register. -/
theorem crcCommandsReturnTheRegister : Obligations.CrcCommandsReturnTheRegister := fun _ _ hr hfit =>
  ⟨exec_ofSource_of_fits hr hfit (crcMsbValue 4) .crc4 .crc4Out (fun _ => rfl) rfl,
    exec_ofSource_of_fits hr hfit (crcMsbValue 7) .crc7 .crc7Out (fun _ => rfl) rfl,
    exec_ofSource_of_fits hr hfit (crcMsbValue 8) .crc8 .crc8Out (fun _ => rfl) rfl,
    exec_ofSource_of_fits hr hfit (crcMsbValue 16) .crc16 .crc16Out (fun _ => rfl) rfl,
    exec_ofSource_of_fits hr hfit crc16lsbValue .crc16lsb .crc16lsbOut (fun _ => rfl) rfl⟩

/-! ### Reflection (R191, R200) -/

/-- Bit by bit the LSB-first register is the mirror image of the MSB-first one. -/
theorem foldl_crcLsbBit_eq_reflect {w : Nat} (poly init : BitVec w) (bits : List Bool) :
    bits.foldl (crcLsbBit poly) init = reflect (bits.foldl (crcMsbBit (reflect poly)) (reflect init)) := by
  induction bits generalizing init with
  | nil => exact (reflect_reflect init).symm
  | cons d bits ih => rw [List.foldl_cons, List.foldl_cons, ih, crcLsbBit_eq_reflect, reflect_reflect]

theorem crcLsb_eq_reflect {w : Nat} (msg : List Byte) (poly init : BitVec w) :
    crcLsb msg poly init = reflect (crcMsb (msg.map reflect) (reflect poly) (reflect init)) := by
  rw [crcLsb, crcMsb, flatMap_msbFirst_map_reflect, foldl_crcLsbBit_eq_reflect]

/-- Settles O51: the bit loops mirror each other; over no byte they do not run. -/
theorem lsbFirstRegisterIsTheReflectedMsbFirst : Obligations.LsbFirstRegisterIsTheReflectedMsbFirst :=
  fun _ msg poly init => ⟨crcLsb_eq_reflect msg poly init, rfl, rfl⟩

theorem crc8leValue_eq (s : State) (msg : List Byte) : crc8leValue s msg =
    (reflect (crcMsb (msg.map reflect) ((s.opnd 2).setWidth 8) ((s.opnd 3).setWidth 8))).setWidth 32 := by
  rw [crc8leValue, crcLsb_eq_reflect, reflect_reflect, reflect_reflect, State.opndLow, State.opndLow]

/-- Settles O50: CRC8LE reflects its parameters itself, so only message and result stay reflected. -/
theorem crc8leAndCrc16lsbAreReflectedCrcs : Obligations.Crc8leAndCrc16lsbAreReflectedCrcs := by
  refine ⟨fun s src hr hfit => ?_, crcLsb_eq_reflect⟩
  rw [← crc8leValue_eq]
  exact exec_ofSource_of_fits hr hfit crc8leValue .crc8le .crc8leOut (fun _ => rfl) rfl

/-! ### The residue (R195) -/

/-- A data bit that equals the register's top bit shifts it out. -/
theorem crcMsbBit_msb {w : Nat} (poly reg : BitVec w) : crcMsbBit poly reg reg.msb = reg <<< 1 := by
  rw [crcMsbBit, Bool.xor_self, if_neg Bool.false_ne_true]

/-- A register that meets its own bits, the top one first, is shifted out by them. -/
theorem foldl_crcMsbBit_own_bits {w : Nat} (poly reg : BitVec w) {n : Nat} (h : n ≤ w) :
    ((List.range n).map fun i => reg.getLsbD (w - 1 - i)).foldl (crcMsbBit poly) reg = reg <<< n := by
  induction n with
  | zero => exact (BitVec.shiftLeft_zero reg).symm
  | succ n ih =>
    have hbit : reg.getLsbD (w - 1 - n) = (reg <<< n).msb := by
      rw [BitVec.msb_shiftLeft, BitVec.getMsbD, decide_eq_true (by omega), Bool.true_and]
    rw [List.range_succ, List.map_append, List.foldl_append, ih (by omega), List.map_singleton, List.foldl_cons, List.foldl_nil,
      hbit, crcMsbBit_msb, ← BitVec.shiftLeft_add]

theorem crcMsb_append {w : Nat} (xs ys : List Byte) (poly init : BitVec w) :
    crcMsb (xs ++ ys) poly init = crcMsb ys poly (crcMsb xs poly init) := by
  rw [crcMsb, List.flatMap_append, List.foldl_append]
  rfl

theorem crcMsb_own_byte (poly c : BitVec 8) : crcMsb [c] poly c = 0 := by
  have hbits : crcMsb [c] poly c = c <<< 8 := foldl_crcMsbBit_own_bits poly c (Nat.le_refl 8)
  exact hbits.trans (BitVec.shiftLeft_eq_zero (Nat.le_refl 8))

theorem flatMap_msbFirst_zeros (n : Nat) :
    (List.replicate n (0 : Byte)).flatMap msbFirst = List.replicate (8 * n) false := by
  induction n with
  | zero => rfl
  | succ n ih =>
    rw [List.replicate_succ, List.flatMap_cons, ih, Nat.mul_succ, Nat.add_comm, List.replicate_add]
    rfl

theorem crcMsb_zeros {w : Nat} (poly : BitVec w) (n : Nat) : crcMsb (List.replicate n 0) poly 0 = 0 := by
  rw [crcMsb, flatMap_msbFirst_zeros, foldl_crcMsbBit_zeros]

/-- Settles O53: a register that meets its own byte is 0, and zero bytes leave a zero register. -/
theorem crc8ResidueIsZero : Obligations.Crc8ResidueIsZero := fun msg poly init zeros =>
  ⟨by rw [crcMsb_append, crcMsb_own_byte], by rw [crcMsb_append, crcMsb_zeros]⟩

end Sys2Proof.Machine
end

section
/-! R190: bit strings and registers as polynomials over GF(2), one step of the MSB-first register as one step of the division, then
O52. -/

namespace Sys2Proof.Machine

open Polynomial

/-! ### Bit strings and registers as polynomials -/

/-- A bit as an element of GF(2). -/
def gf2 (b : Bool) : ZMod 2 := if b then 1 else 0

theorem gf2_xor (a b : Bool) : gf2 (a ^^ b) = gf2 a + gf2 b := by
  revert a b; decide

/-- The polynomial of a bit string, highest coefficient first. -/
noncomputable def bitsPoly (bits : List Bool) : (ZMod 2)[X] :=
  bits.foldl (fun p b => p * X + (if b then 1 else 0)) 0

/-- The polynomial of a register: bit k is the coefficient of `x^k`. -/
noncomputable def regPoly {w : Nat} (v : BitVec w) : (ZMod 2)[X] :=
  bitsPoly ((List.range w).map fun i => v.getLsbD (w - 1 - i))

theorem C_gf2 (b : Bool) : C (gf2 b) = (if b then 1 else 0 : (ZMod 2)[X]) := by
  cases b <;> simp [gf2]

theorem bitsPoly_append_singleton (bits : List Bool) (b : Bool) :
    bitsPoly (bits ++ [b]) = bitsPoly bits * X + C (gf2 b) := by
  rw [bitsPoly, List.foldl_append, C_gf2]
  rfl

theorem coeff_bitsPoly (bits : List Bool) (k : Nat) :
    (bitsPoly bits).coeff k = gf2 (decide (k < bits.length) && bits.getD (bits.length - 1 - k) false) := by
  induction bits using List.reverseRecOn generalizing k with
  | nil => exact coeff_zero k
  | append_singleton bits b ih =>
    rw [bitsPoly_append_singleton, coeff_add, List.length_append, List.length_singleton, Nat.add_sub_cancel]
    cases k with
    | zero => simp
    | succ k =>
      rw [coeff_mul_X, coeff_C_succ, add_zero, ih]
      by_cases hk : k < bits.length
      · rw [List.getD_append _ _ _ _ (by omega), show bits.length - (k + 1) = bits.length - 1 - k by omega]
        simp [hk]
      · simp [hk]

theorem coeff_regPoly {w : Nat} (v : BitVec w) (k : Nat) : (regPoly v).coeff k = gf2 (v.getLsbD k) := by
  rw [regPoly, coeff_bitsPoly, List.length_map, List.length_range]
  by_cases hk : k < w
  · simp [hk, show w - 1 - k < w by omega, show w - 1 - (w - 1 - k) = k by omega]
  · simp [hk, BitVec.getLsbD_of_ge v k (by omega)]

section
variable {w : Nat}

theorem degree_regPoly_lt (v : BitVec w) : (regPoly v).degree < w := by
  refine (degree_lt_iff_coeff_zero _ _).2 fun k hk => ?_
  rw [coeff_regPoly, BitVec.getLsbD_of_ge v k hk]
  rfl

theorem regPoly_xor (a b : BitVec w) : regPoly (a ^^^ b) = regPoly a + regPoly b := by
  ext k
  rw [coeff_add, coeff_regPoly, coeff_regPoly, coeff_regPoly, BitVec.getLsbD_xor, gf2_xor]

/-- A shift multiplies by x, except that the top bit leaves the register. -/
theorem regPoly_shiftLeft_one (hw : 0 < w) (v : BitVec w) :
    regPoly (v <<< 1) + C (gf2 v.msb) * X ^ w = regPoly v * X := by
  ext k
  rw [coeff_add, coeff_regPoly, coeff_C_mul, coeff_X_pow, BitVec.getLsbD_shiftLeft]
  cases k with
  | zero => simp [hw, hw.ne, gf2]
  | succ k =>
    rw [coeff_mul_X, coeff_regPoly, BitVec.msb_eq_getLsbD_last]
    rcases Nat.lt_trichotomy (k + 1) w with hlt | rfl | hgt
    · simp [hlt, hlt.ne]
    · simp [gf2]
    · simp [hgt.ne', show ¬ k + 1 < w by omega, BitVec.getLsbD_of_ge v k (by omega)]

/-- The full generator polynomial: `x^w` plus the truncated one. -/
noncomputable def crcPoly (poly : BitVec w) : (ZMod 2)[X] := X ^ w + regPoly poly

theorem crcPoly_monic (poly : BitVec w) : (crcPoly poly).Monic := monic_X_pow_add (degree_regPoly_lt poly)

theorem degree_crcPoly (poly : BitVec w) : (crcPoly poly).degree = w := by
  rw [crcPoly, degree_add_eq_left_of_degree_lt, degree_X_pow]
  rw [degree_X_pow]
  exact degree_regPoly_lt poly

theorem regPoly_crcMsbBit_eq (poly reg : BitVec w) (d : Bool) :
    regPoly (crcMsbBit poly reg d) = regPoly (reg <<< 1) + C (gf2 (reg.msb ^^ d)) * regPoly poly := by
  rw [crcMsbBit]
  cases reg.msb ^^ d with
  | false => simp [gf2]
  | true => simp [gf2, regPoly_xor]

/-- One bit into the register: multiply by x, add the bit at `x^w`, and take the generator off if that leaves a term `x^w`. -/
theorem regPoly_crcMsbBit (hw : 0 < w) (poly reg : BitVec w) (d : Bool) :
    regPoly (crcMsbBit poly reg d) + C (gf2 (reg.msb ^^ d)) * crcPoly poly = regPoly reg * X + C (gf2 d) * X ^ w := by
  have hshift := regPoly_shiftLeft_one hw reg
  have htwo : (2 : (ZMod 2)[X]) = 0 := CharTwo.two_eq_zero
  have hquot : C (gf2 (reg.msb ^^ d)) = C (gf2 reg.msb) + C (gf2 d) := by rw [gf2_xor, C_add]
  rw [regPoly_crcMsbBit_eq, crcPoly]
  linear_combination hshift + X ^ w * hquot + C (gf2 (reg.msb ^^ d)) * regPoly poly * htwo

/-- The division after any number of bits: the register is what is left, up to a multiple of the generator. -/
theorem regPoly_foldl_crcMsbBit (hw : 0 < w) (poly init : BitVec w) (bits : List Bool) :
    ∃ q, regPoly (bits.foldl (crcMsbBit poly) init) + crcPoly poly * q =
      bitsPoly bits * X ^ w + regPoly init * X ^ bits.length := by
  induction bits using List.reverseRecOn with
  | nil => exact ⟨0, by simp [bitsPoly]⟩
  | append_singleton bits d ih =>
    obtain ⟨q, hq⟩ := ih
    generalize hreg : bits.foldl (crcMsbBit poly) init = reg at hq
    have hstep := regPoly_crcMsbBit hw poly reg d
    refine ⟨q * X + C (gf2 (reg.msb ^^ d)), ?_⟩
    rw [List.foldl_append, hreg, List.foldl_cons, List.foldl_nil, bitsPoly_append_singleton, List.length_append,
      List.length_singleton, pow_succ]
    linear_combination hstep + X * hq

end

/-- Settles O52: a remainder modulo a monic polynomial is the one of smaller degree. -/
theorem msbFirstCrcIsThePolynomialRemainder : Obligations.MsbFirstCrcIsThePolynomialRemainder := by
  intro w msg poly init hw
  obtain ⟨q, hq⟩ := regPoly_foldl_crcMsbBit hw poly init (msg.flatMap msbFirst)
  have hdegree : (regPoly (crcMsb msg poly init)).degree < (crcPoly poly).degree := by
    rw [degree_crcPoly]
    exact degree_regPoly_lt _
  rw [length_flatMap_bits length_msbFirst] at hq
  exact (div_modByMonic_unique q _ (crcPoly_monic poly) ⟨hq, hdegree⟩).2.symm

end Sys2Proof.Machine
end

section
/-! LFSR digests (spec/46_lfsr_digest.md R220 to R226): O54, O55 and O56. -/

namespace Sys2Proof.Machine

/-! ### Digests as the XOR of rolled keys (R225) -/

section
variable {w n : Nat} (roll : BitVec w → BitVec w) (key : BitVec w)

/-- A digest over 8 * n bits that are known by position. -/
theorem digestBits_of_getD {bits : List Bool} {bit : Nat → Bool} (hlen : bits.length = 8 * n)
    (hbit : ∀ k, k < 8 * n → bits.getD k false = bit k) :
    digestBits roll 0 key bits =
      (List.range (8 * n)).foldl (fun sum k => if bit k then sum ^^^ roll^[k] key else sum) 0 := by
  rw [digestBits_eq_foldl, hlen]
  exact List.foldl_ext _ _ _ fun acc k hk => by rw [hbit k (List.mem_range.1 hk)]

variable {msg : List Byte} {byte : Nat → Byte} (hlen : msg.length = n) (hbyte : ∀ j, j < n → msg.getD j 0 = byte j)
include hlen hbyte

theorem digestBits_msbFirst : digestBits roll 0 key (msg.flatMap msbFirst) =
    (List.range (8 * n)).foldl (fun sum k => if (byte (k / 8)).getLsbD (7 - k % 8) then sum ^^^ roll^[k] key else sum) 0 := by
  refine digestBits_of_getD roll key (by rw [length_flatMap_bits length_msbFirst, hlen]) fun k hk => ?_
  rw [getD_flatMap_bits length_msbFirst _ (by rwa [hlen]), getD_msbFirst _ (Nat.mod_lt _ (by decide)), hbyte _ (by omega)]

theorem digestBits_lsbFirst : digestBits roll 0 key (msg.flatMap lsbFirst) =
    (List.range (8 * n)).foldl (fun sum k => if (byte (k / 8)).getLsbD (k % 8) then sum ^^^ roll^[k] key else sum) 0 := by
  refine digestBits_of_getD roll key (by rw [length_flatMap_bits length_lsbFirst, hlen]) fun k hk => ?_
  rw [getD_flatMap_bits length_lsbFirst _ (by rwa [hlen]), getD_lsbFirst _ (Nat.mod_lt _ (by decide)), hbyte _ (by omega)]

end

theorem State.getD_reverse_message (s : State) (src : Source) (off : Nat) {n j : Nat} (h : j < n) :
    (s.message src off n).reverse.getD j 0 = s.bufByte src (off + (n - 1 - j)) := by
  rw [List.getD_eq_getElem?_getD, List.getElem?_reverse (by rwa [State.length_message]), ← List.getD_eq_getElem?_getD,
    State.length_message, State.getD_message _ _ _ (by omega)]

/-- Settles O54: each digest over its own order of the message's bytes and bits. -/
theorem lfsrDigestsXorTheRolledKeys : Obligations.LfsrDigestsXorTheRolledKeys := by
  intro s src hr hfit n byte gives digest
  have hlen := s.length_message src (s.opndNat 0) n
  have hlenrev : (s.message src (s.opndNat 0) n).reverse.length = n := List.length_reverse.trans hlen
  have hbyte : ∀ j, j < n → (s.message src (s.opndNat 0) n).getD j 0 = byte j := fun j => s.getD_message src _
  have hbyterev : ∀ j, j < n → (s.message src (s.opndNat 0) n).reverse.getD j 0 = byte (n - 1 - j) := fun j =>
    s.getD_reverse_message src _
  have h8 := exec_ofSource_of_fits hr hfit (digest8Value lfsr8) .lfsr8 .lfsr8Out (fun _ => rfl) rfl
  have hrev := exec_ofSource_of_fits hr hfit (digest8Value lfsr8rev) .lfsr8rev .lfsr8revOut (fun _ => rfl) rfl
  have hrfl := exec_ofSource_of_fits hr hfit (digest8Value lfsr8rfl) .lfsr8rfl .lfsr8rflOut (fun _ => rfl) rfl
  have h16 := exec_ofSource_of_fits hr hfit lfsr16Value .lfsr16 .lfsr16Out (fun _ => rfl) rfl
  rw [digest8Value, lfsr8, digestBits_msbFirst _ _ hlen hbyte] at h8
  rw [digest8Value, lfsr8rev, digestBits_msbFirst _ _ hlenrev hbyterev] at hrev
  rw [digest8Value, lfsr8rfl, digestBits_lsbFirst _ _ hlenrev hbyterev] at hrfl
  rw [lfsr16Value, lfsr16, digestBits_msbFirst _ _ hlen hbyte] at h16
  exact ⟨h8, hrev, hrfl, h16⟩

/-! ### The key rolls (R226) -/

section
variable {w : Nat} (gen key : BitVec w)

/-- The right roll bit by bit: a shift down, and the generator where a 1 falls off bit 0. -/
theorem getLsbD_rollRight {i : Nat} : (rollRight gen key).getLsbD i =
    (key.getLsbD (i + 1) ^^ (key.getLsbD 0 && gen.getLsbD i)) := by
  rw [rollRight]
  cases key.getLsbD 0 <;> simp [Nat.add_comm]

theorem rollLeft_eq_ite : rollLeft gen key = if key.getLsbD (w - 1) then (key <<< 1) ^^^ gen else key <<< 1 := by
  rw [rollLeft, BitVec.msb_eq_getLsbD_last]

/-- The left roll bit by bit: a shift up, and the generator where a 1 falls off the top bit. -/
theorem getLsbD_rollLeft {i : Nat} (hi : i < w) : (rollLeft gen key).getLsbD i =
    ((decide (0 < i) && key.getLsbD (i - 1)) ^^ (key.getLsbD (w - 1) && gen.getLsbD i)) := by
  have hshift : (key <<< 1).getLsbD i = (decide (0 < i) && key.getLsbD (i - 1)) := by
    rw [BitVec.getLsbD_shiftLeft, decide_eq_true hi, Bool.true_and, ← decide_not, decide_eq_decide.2 Nat.not_lt]
    rfl
  rw [rollLeft_eq_ite, ← hshift]
  cases key.getLsbD (w - 1)
  · simp
  · simp

theorem getLsbD_rotateRight_one {i : Nat} (hi : i < w) :
    (key.rotateRight 1).getLsbD i = if i = w - 1 then key.getLsbD 0 else key.getLsbD (i + 1) := by
  rw [BitVec.getLsbD_rotateRight]
  obtain rfl | hw : w = 1 ∨ 1 < w := by omega
  · obtain rfl : i = 0 := by omega
    rfl
  · rw [Nat.mod_eq_of_lt hw, Bool.cond_decide]
    by_cases htop : i = w - 1
    · rw [if_neg (by omega), if_pos htop, decide_eq_true hi, Bool.true_and, htop, Nat.sub_self]
    · rw [if_pos (by omega), if_neg htop, Nat.add_comm]

theorem getLsbD_rotateLeft_one {i : Nat} (hi : i < w) :
    (key.rotateLeft 1).getLsbD i = if i = 0 then key.getLsbD (w - 1) else key.getLsbD (i - 1) := by
  rw [BitVec.getLsbD_rotateLeft]
  obtain rfl | hw : w = 1 ∨ 1 < w := by omega
  · obtain rfl : i = 0 := by omega
    rfl
  · rw [Nat.mod_eq_of_lt hw, Bool.cond_decide]
    by_cases hbot : i = 0
    · rw [if_pos (by omega), if_pos hbot, hbot, Nat.add_zero]
    · rw [if_neg (by omega), if_neg hbot, decide_eq_true hi, Bool.true_and]

/-- With its wrap-around bit in the generator, the right roll rotates; the other generator bits are taps. -/
theorem rollRight_eq_rotateRight (hgen : gen.getLsbD (w - 1) = true) : rollRight gen key =
    key.rotateRight 1 ^^^ (if key.getLsbD 0 then gen &&& ~~~BitVec.twoPow w (w - 1) else 0) := by
  refine BitVec.eq_of_getLsbD_eq fun i hi => ?_
  rw [getLsbD_rollRight, BitVec.getLsbD_xor, getLsbD_rotateRight_one key hi]
  by_cases htop : i = w - 1
  · subst htop
    have hpast : key.getLsbD (w - 1 + 1) = false := BitVec.getLsbD_of_ge _ _ (by omega)
    rw [if_pos rfl, hgen, hpast]
    cases key.getLsbD 0 <;> simp [hi]
  · rw [if_neg htop]
    cases key.getLsbD 0 <;> simp [hi, htop]

theorem rollLeft_eq_rotateLeft (hgen : gen.getLsbD 0 = true) : rollLeft gen key =
    key.rotateLeft 1 ^^^ (if key.getLsbD (w - 1) then gen &&& ~~~1#w else 0) := by
  refine BitVec.eq_of_getLsbD_eq fun i hi => ?_
  rw [getLsbD_rollLeft _ _ hi, BitVec.getLsbD_xor, getLsbD_rotateLeft_one key hi]
  by_cases hbot : i = 0
  · subst hbot
    rw [if_pos rfl, hgen]
    cases key.getLsbD (w - 1) <;> simp [hi]
  · rw [if_neg hbot, decide_eq_true (Nat.pos_of_ne_zero hbot)]
    cases key.getLsbD (w - 1) <;> simp [hi, hbot]

theorem rollRight_xor (key' : BitVec w) : rollRight gen (key ^^^ key') = rollRight gen key ^^^ rollRight gen key' := by
  refine BitVec.eq_of_getLsbD_eq fun i _ => ?_
  rw [BitVec.getLsbD_xor, getLsbD_rollRight, getLsbD_rollRight, getLsbD_rollRight, BitVec.getLsbD_xor, BitVec.getLsbD_xor,
    Bool.and_xor_distrib_right, xor_xor_xor_swap]

theorem rollLeft_xor (key' : BitVec w) : rollLeft gen (key ^^^ key') = rollLeft gen key ^^^ rollLeft gen key' := by
  rw [rollLeft_eq_reflect, rollLeft_eq_reflect, rollLeft_eq_reflect, reflect_xor, rollRight_xor, reflect_xor]

variable {gen} in
/-- The right roll loses nothing exactly when its generator has the top bit: the bit that fell off can then be read from the top of
the result; without it the key that shifts down to the generator with a 1 falling off is rolled to 0, as 0 is. -/
theorem rollRight_injective_iff (hw : 0 < w) : Function.Injective (rollRight gen) ↔ gen.getLsbD (w - 1) = true := by
  constructor
  · intro hinj
    by_contra htop
    rw [Bool.not_eq_true] at htop
    have hkernel : rollRight gen (gen <<< 1 ||| 1#w) = rollRight gen 0 := by
      refine BitVec.eq_of_getLsbD_eq fun i hi => ?_
      have hshifted : (gen <<< 1 ||| 1#w).getLsbD (i + 1) = gen.getLsbD i := by
        by_cases hlast : i = w - 1
        · rw [hlast, htop, BitVec.getLsbD_of_ge _ _ (by omega)]
        · simp [hi, show i + 1 < w by omega]
      have hlow : (gen <<< 1 ||| 1#w).getLsbD 0 = true := by simp [hw]
      rw [getLsbD_rollRight, getLsbD_rollRight, hshifted, hlow]
      simp
    have hzero := congrArg (BitVec.getLsbD · 0) (hinj hkernel)
    simp [hw] at hzero
  · intro htop a b hab
    have hbits : ∀ i, (a.getLsbD (i + 1) ^^ (a.getLsbD 0 && gen.getLsbD i)) =
        (b.getLsbD (i + 1) ^^ (b.getLsbD 0 && gen.getLsbD i)) := fun i => by rw [← getLsbD_rollRight, ← getLsbD_rollRight, hab]
    have hfell : a.getLsbD 0 = b.getLsbD 0 := by
      simpa [htop, Nat.sub_add_cancel hw] using hbits (w - 1)
    refine BitVec.eq_of_getLsbD_eq fun i _ => ?_
    cases i with
    | zero => exact hfell
    | succ i => simpa [hfell] using hbits i

variable {gen} in
theorem rollLeft_injective_iff (hw : 0 < w) : Function.Injective (rollLeft gen) ↔ gen.getLsbD 0 = true := by
  have hreflect : Function.Involutive (reflect (w := w)) := reflect_reflect
  have heq : rollLeft gen = reflect ∘ rollRight (reflect gen) ∘ reflect := funext (rollLeft_eq_reflect gen)
  have htop : (reflect gen).getLsbD (w - 1) = gen.getLsbD 0 := by
    rw [getLsbD_reflect, decide_eq_true (by omega), Bool.true_and, Nat.sub_self]
  rw [heq, hreflect.injective.of_comp_iff, Function.Injective.of_comp_iff' _ hreflect.bijective, rollRight_injective_iff hw, htop]

end

/-- Settles O55: both rolls bit by bit; the left one is the right one in the mirror. -/
theorem keyRollsAreRotationsWithTaps : Obligations.KeyRollsAreRotationsWithTaps := fun _ gen key key' hw =>
  ⟨rfl, rollLeft_eq_ite gen key, rollRight_eq_rotateRight gen key, rollLeft_eq_rotateLeft gen key, rollRight_injective_iff hw,
    rollLeft_injective_iff hw, rollRight_xor gen key key', rollLeft_xor gen key key'⟩

/-! ### The variants (R221, R222) -/

/-- A digest with a left roll is the mirror image of one with a right roll. -/
theorem digestBits_rollLeft_eq_reflect {w : Nat} (gen sum key : BitVec w) (bits : List Bool) :
    digestBits (rollLeft gen) sum key bits =
      reflect (digestBits (rollRight (reflect gen)) (reflect sum) (reflect key) bits) := by
  induction bits generalizing sum key with
  | nil => exact (reflect_reflect sum).symm
  | cons b bits ih =>
    rw [digestBits, digestBits, ih, rollLeft_eq_reflect, reflect_reflect]
    cases b with
    | false => rfl
    | true => rw [if_pos rfl, if_pos rfl, reflect_xor]

/-- Settles O56: the base digest on the same bits, which reflected bytes list in the other order. -/
theorem digestVariantsMirrorTheBase : Obligations.DigestVariantsMirrorTheBase := fun msg gen key =>
  ⟨rfl, by rw [lfsr8rfl, lfsr8, flatMap_msbFirst_map_reflect, digestBits_rollLeft_eq_reflect, reflect_zero]⟩

end Sys2Proof.Machine
end

section
/-! Parity, XOR fold and sums (spec/47_parity_sum.md R241 to R246): each fold by one more byte, then O57 and O58. -/

namespace Sys2Proof.Machine

/-! ### One more byte -/

section
variable (msg : List Byte) (b : Byte)

theorem parityBytes_append_singleton : parityBytes (msg ++ [b]) = (parityBytes msg ^^ parity8 b) := List.foldl_append

theorem xorBytes_append_singleton : xorBytes (msg ++ [b]) = xorBytes msg ^^^ b := List.foldl_append

theorem addBytes_append_singleton : addBytes (msg ++ [b]) = addBytes msg + b.toNat := List.foldl_append

theorem addNibbles_append_singleton : addNibbles (msg ++ [b]) = addNibbles msg + (b.toNat / 16 + b.toNat % 16) := by
  obtain ⟨hhigh, hlow⟩ := nibbles_toNat b
  rw [← hhigh, ← hlow, ← Nat.add_assoc]
  exact List.foldl_append

theorem odd_countP_append_singleton (p : Byte → Bool) :
    decide ((msg ++ [b]).countP p % 2 = 1) = (decide (msg.countP p % 2 = 1) ^^ p b) := by
  rw [List.countP_append, List.countP_singleton]
  cases p b
  · simp
  · rcases Nat.mod_two_eq_zero_or_one (msg.countP p) with h | h <;> simp [Nat.add_mod, h]

end

/-! ### What the folds compute -/

theorem toNat_xor_eq_add_mod_two (a b : Bool) : (a ^^ b).toNat = (a.toNat + b.toNat) % 2 := by
  cases a <;> cases b <;> rfl

/-- PARITYB counts the set bits of all bytes (R241). -/
theorem toNat_parityBytes (msg : List Byte) :
    (parityBytes msg).toNat = (msg.map fun b => (List.range 8).countP fun i => b.getLsbD i).sum % 2 := by
  induction msg using List.reverseRecOn with
  | nil => rfl
  | append_singleton msg b ih =>
    rw [parityBytes_append_singleton, toNat_xor_eq_add_mod_two, ih, toNat_parity8, List.map_append, List.sum_append,
      List.map_singleton, List.sum_singleton, ← Nat.add_mod]

/-- Bit i of XORB is the parity of the bytes' bits i (R242). -/
theorem getLsbD_xorBytes (msg : List Byte) (i : Nat) :
    (xorBytes msg).getLsbD i = decide ((msg.countP fun b => b.getLsbD i) % 2 = 1) := by
  induction msg using List.reverseRecOn with
  | nil => exact BitVec.getLsbD_zero
  | append_singleton msg b ih => rw [xorBytes_append_singleton, BitVec.getLsbD_xor, ih, odd_countP_append_singleton]

theorem addBytes_eq_sum (msg : List Byte) : addBytes msg = (msg.map fun b => b.toNat).sum :=
  (foldl_addBytes_eq msg 0).trans (Nat.zero_add _)

theorem addNibbles_eq_sum (msg : List Byte) : addNibbles msg = (msg.map fun b => b.toNat / 16 + b.toNat % 16).sum := by
  induction msg using List.reverseRecOn with
  | nil => rfl
  | append_singleton msg b ih =>
    rw [addNibbles_append_singleton, ih, List.map_append, List.sum_append, List.map_singleton, List.sum_singleton]

theorem addBytes_le (msg : List Byte) : addBytes msg ≤ 255 * msg.length := by
  induction msg using List.reverseRecOn with
  | nil => exact Nat.le_refl 0
  | append_singleton msg b ih =>
    have hb := b.isLt
    rw [addBytes_append_singleton, List.length_append, List.length_singleton]
    omega

theorem addNibbles_le (msg : List Byte) : addNibbles msg ≤ 30 * msg.length := by
  induction msg using List.reverseRecOn with
  | nil => exact Nat.le_refl 0
  | append_singleton msg b ih =>
    have hb := b.isLt
    rw [addNibbles_append_singleton, List.length_append, List.length_singleton]
    omega

theorem toNat_wordOfBool (b : Bool) : (wordOfBool b).toNat = b.toNat := by cases b <;> rfl

theorem capacity_le (src : Source) : src.capacity ≤ 256 :=
  match src with
  | .row _ => (by decide : Config.rowBytes ≤ 256)
  | .out => Nat.le_refl 256

/-- Settles O57: the folds' values, and the bound of a message that lies in its buffer. -/
theorem parityXorAndSumsOfTheMessage : Obligations.ParityXorAndSumsOfTheMessage := by
  intro s src hinv hr hfit msg on done
  obtain ⟨-, -, hout, -⟩ := s.inv_iff.1 hinv
  have hrun := (run_le_capacity hout hr hfit).trans (capacity_le src)
  have hlen : msg.length = s.opndNat 1 := s.length_message src _ _
  have hadd := addBytes_le msg
  have hnib := addNibbles_le msg
  have haddNat : (BitVec.ofNat 32 (addBytes msg)).toNat = addBytes msg := by
    rw [BitVec.toNat_ofNat, Nat.mod_eq_of_lt (by omega)]
  have hnibNat : (BitVec.ofNat 32 (addNibbles msg)).toNat = addNibbles msg := by
    rw [BitVec.toNat_ofNat, Nat.mod_eq_of_lt (by omega)]
  refine ⟨⟨_, exec_ofSource_of_fits hr hfit (fun _ m => wordOfBool (parityBytes m)) .parityb .paritybOut (fun _ => rfl) rfl,
      (toNat_wordOfBool _).trans (toNat_parityBytes msg)⟩,
    ⟨_, exec_ofSource_of_fits hr hfit (fun _ m => (xorBytes m).setWidth 32) .xorb .xorbOut (fun _ => rfl) rfl, ?_,
      fun i hi => ?_⟩,
    ⟨_, exec_ofSource_of_fits hr hfit (fun _ m => BitVec.ofNat 32 (addBytes m)) .addb .addbOut (fun _ => rfl) rfl,
      haddNat.trans (addBytes_eq_sum msg), haddNat.trans_le (by omega)⟩,
    ⟨_, exec_ofSource_of_fits hr hfit (fun _ m => BitVec.ofNat 32 (addNibbles m)) .addn .addnOut (fun _ => rfl) rfl,
      hnibNat.trans (addNibbles_eq_sum msg), hnibNat.trans_le (by omega)⟩⟩
  · exact (toNat_setWidth_byte (xorBytes msg)).trans_lt (BitVec.isLt _)
  · rw [BitVec.getLsbD_setWidth, decide_eq_true (by omega), Bool.true_and, getLsbD_xorBytes]

/-! ### Relations between the folds (R246) -/

theorem parityBytes_eq_parity8_xorBytes (msg : List Byte) : parityBytes msg = parity8 (xorBytes msg) := by
  induction msg using List.reverseRecOn with
  | nil => rfl
  | append_singleton msg b ih => rw [parityBytes_append_singleton, xorBytes_append_singleton, parity8_xor, ih]

/-- The low bit of a sum is the XOR of the low bits. -/
theorem odd_addBytes (msg : List Byte) : decide (addBytes msg % 2 = 1) = (xorBytes msg).getLsbD 0 := by
  induction msg using List.reverseRecOn with
  | nil => rfl
  | append_singleton msg b ih =>
    have hlow : b.getLsbD 0 = decide (b.toNat % 2 = 1) := by rw [BitVec.getLsbD, Nat.testBit_zero]
    rw [addBytes_append_singleton, xorBytes_append_singleton, BitVec.getLsbD_xor, ← ih, hlow]
    rcases Nat.mod_two_eq_zero_or_one (addBytes msg) with h | h <;>
      rcases Nat.mod_two_eq_zero_or_one b.toNat with h' | h' <;> simp [Nat.add_mod, h, h']

/-- Settles O58: three inductions on the message, and a byte XORed with itself. -/
theorem parityXorAndSumRelations : Obligations.ParityXorAndSumRelations := fun msg =>
  ⟨parityBytes_eq_parity8_xorBytes msg, by rw [xorBytes_append_singleton, BitVec.xor_self]; rfl,
    by rw [← odd_addBytes, decide_eq_true_iff]⟩

end Sys2Proof.Machine
end
